-- ==== Sys2Proof/Word.lean ====
section
/-! DEFINITION. The words of BLSTRS-CORE and its extension-field containers (spec/10_state.md, spec/43_gt_group.md). -/

namespace Sys2Proof

/-- One byte of DBUF (20_memory.md R80). -/
abbrev Byte := BitVec 8

/-- A 32-bit host-bus word: a register of the window or a command word (10_state.md R51, 30_encoding.md R120). -/
abbrev Word := BitVec 32

/-- The container of a scalar register: 256 bits, four 64-bit limbs, limb 0 in bits 63:0 (10_state.md R40). -/
abbrev ScalarWord := BitVec 256

/-- The container of one base-field component: 384 bits (10_state.md R43, R45). -/
abbrev FpWord := BitVec 384

/-- An Fp2 value: the two Fp coefficients `l = 0, 1` of 43_gt_group.md R262. -/
structure Fp2 where
  c0 : FpWord
  c1 : FpWord
deriving DecidableEq, Repr, Inhabited

/-- An Fp6 value: the three Fp2 coefficients `j = 0, 1, 2` of 43_gt_group.md R262. -/
structure Fp6 where
  c0 : Fp2
  c1 : Fp2
  c2 : Fp2
deriving DecidableEq, Repr, Inhabited

/-- An Fp12 value: the two Fp6 halves `i = 0, 1` of 43_gt_group.md R262. The projections are `lo` and `hi` of
00_scope.md R19, and the constructor is `join`. -/
structure Fp12 where
  lo : Fp6
  hi : Fp6
deriving DecidableEq, Repr, Inhabited

/-- The 6 components in index order `k = 2*j + l` (43_gt_group.md R262). -/
def Fp6.comps (t : Fp6) : List FpWord :=
  [t.c0.c0, t.c0.c1, t.c1.c0, t.c1.c1, t.c2.c0, t.c2.c1]

/-- The 12 components in index order `k = 6*i + 2*j + l` (43_gt_group.md R262). -/
def Fp12.comps (a : Fp12) : List FpWord := a.lo.comps ++ a.hi.comps

/-- The Fp6 value with the given component at each index of R262. -/
def Fp6.ofFn (f : Nat → FpWord) : Fp6 := ⟨⟨f 0, f 1⟩, ⟨f 2, f 3⟩, ⟨f 4, f 5⟩⟩

/-- The Fp12 value with the given component at each index of R262. -/
def Fp12.ofFn (f : Nat → FpWord) : Fp12 := ⟨Fp6.ofFn f, Fp6.ofFn fun k => f (k + 6)⟩

/-- `ZERO6` (00_scope.md R19). -/
def Fp6.zero : Fp6 := Fp6.ofFn fun _ => 0

/-- `ONE6` (00_scope.md R19). -/
def Fp6.one : Fp6 := Fp6.ofFn fun k => if k = 0 then 1 else 0

/-- `ZERO12` (00_scope.md R19). -/
def Fp12.zero : Fp12 := Fp12.ofFn fun _ => 0

/-- `ONE12` (00_scope.md R19). -/
def Fp12.one : Fp12 := Fp12.ofFn fun k => if k = 0 then 1 else 0

end Sys2Proof
end

