-- ==== Sys2Proof/Syntax.lean ====
section
/-! DEFINITION. The commands of BLSTRS-CORE, one constructor per row of spec/opcode_table.json (spec/30_encoding.md R128).

A constructor carries the raw fields of the command word (R122, R123): a register field is the 4-bit field itself, so
that a G field of 8 or more or a T field of 4 or more is a command, the one that completes with BAD_REGISTER (R125). -/

namespace Sys2Proof

/-- A 4-bit register field D, A, B or R of a command word (30_encoding.md R122, R123). -/
abbrev RegField := BitVec 4

/-- A command. `d`, `a`, `b` and `r` are the register fields D, A, B and R; `imm` is IMM12 or IMM16; `off` is OFF, the
DBUF offset in units of 16 bytes; `len` is LEN, the length the host claims (30_encoding.md R122, R123, R126). -/
inductive Instr
  /-- NOP, OP 0x00, format N: 41_scalar_cmp_move.md R210. -/
  | nop
  /-- SADD, OP 0x10, format R: 40_scalar_arith.md R168. -/
  | sadd (d : RegField) (a : RegField) (b : RegField)
  /-- SSUB, OP 0x11, format R: 40_scalar_arith.md R169. -/
  | ssub (d : RegField) (a : RegField) (b : RegField)
  /-- SMUL, OP 0x12, format R: 40_scalar_arith.md R170. -/
  | smul (d : RegField) (a : RegField) (b : RegField)
  /-- SNEG, OP 0x13, format R: 40_scalar_arith.md R171. -/
  | sneg (d : RegField) (a : RegField)
  /-- SDBL, OP 0x14, format R: 40_scalar_arith.md R172. -/
  | sdbl (d : RegField) (a : RegField)
  /-- SSQR, OP 0x15, format R: 40_scalar_arith.md R173. -/
  | ssqr (d : RegField) (a : RegField)
  /-- SINV, OP 0x16, format R: 40_scalar_arith.md R174. -/
  | sinv (d : RegField) (a : RegField)
  /-- SDIV, OP 0x17, format R: 40_scalar_arith.md R175. -/
  | sdiv (d : RegField) (a : RegField) (b : RegField)
  /-- SPOW, OP 0x18, format R: 40_scalar_arith.md R176. -/
  | spow (d : RegField) (a : RegField) (b : RegField)
  /-- SSQRT, OP 0x19, format R: 40_scalar_arith.md R178. -/
  | ssqrt (d : RegField) (a : RegField)
  /-- SLEG, OP 0x1A, format R: 40_scalar_arith.md R177. -/
  | sleg (a : RegField)
  /-- SSHL, OP 0x1B, format I12: 40_scalar_arith.md R179. -/
  | sshl (d : RegField) (a : RegField) (imm : BitVec 12)
  /-- SSHR, OP 0x1C, format I12: 40_scalar_arith.md R180. -/
  | sshr (d : RegField) (a : RegField) (imm : BitVec 12)
  /-- SEQ, OP 0x20, format R: 41_scalar_cmp_move.md R200. -/
  | seq (a : RegField) (b : RegField)
  /-- SCMP, OP 0x21, format R: 41_scalar_cmp_move.md R201. -/
  | scmp (a : RegField) (b : RegField)
  /-- SISZ, OP 0x22, format R: 41_scalar_cmp_move.md R202. -/
  | sisz (a : RegField)
  /-- SSEL, OP 0x23, format R: 41_scalar_cmp_move.md R203. -/
  | ssel (d : RegField) (a : RegField) (b : RegField)
  /-- SMOV, OP 0x24, format R: 41_scalar_cmp_move.md R204. -/
  | smov (d : RegField) (a : RegField)
  /-- SZERO, OP 0x25, format R: 41_scalar_cmp_move.md R205. -/
  | szero (d : RegField)
  /-- SONE, OP 0x26, format R: 41_scalar_cmp_move.md R206. -/
  | sone (d : RegField)
  /-- SIMM, OP 0x27, format I16: 41_scalar_cmp_move.md R207. -/
  | simm (d : RegField) (imm : BitVec 16)
  /-- SNBITS, OP 0x28, format R: 41_scalar_cmp_move.md R208. -/
  | snbits (a : RegField)
  /-- SRAND, OP 0x29, format R: 41_scalar_cmp_move.md R212. -/
  | srand (d : RegField)
  /-- SLDLE, OP 0x30, format M: 42_scalar_codec.md R230. -/
  | sldle (r : RegField) (off : BitVec 6) (len : BitVec 12)
  /-- SLDBE, OP 0x31, format M: 42_scalar_codec.md R231. -/
  | sldbe (r : RegField) (off : BitVec 6) (len : BitVec 12)
  /-- SSTLE, OP 0x32, format M: 42_scalar_codec.md R232. -/
  | sstle (r : RegField) (off : BitVec 6) (len : BitVec 12)
  /-- SSTBE, OP 0x33, format M: 42_scalar_codec.md R233. -/
  | sstbe (r : RegField) (off : BitVec 6) (len : BitVec 12)
  /-- SLDRAW, OP 0x34, format M: 42_scalar_codec.md R240. -/
  | sldraw (r : RegField) (off : BitVec 6) (len : BitVec 12)
  /-- SLDWIDE, OP 0x35, format M: 42_scalar_codec.md R242. -/
  | sldwide (r : RegField) (off : BitVec 6) (len : BitVec 12)
  /-- SLDOKM, OP 0x36, format M: 42_scalar_codec.md R244. -/
  | sldokm (r : RegField) (off : BitVec 6) (len : BitVec 12)
  /-- GADD, OP 0x40, format R: 43_gt_group.md R266. -/
  | gadd (d : RegField) (a : RegField) (b : RegField)
  /-- GSUB, OP 0x41, format R: 43_gt_group.md R267. -/
  | gsub (d : RegField) (a : RegField) (b : RegField)
  /-- GNEG, OP 0x42, format R: 43_gt_group.md R268. -/
  | gneg (d : RegField) (a : RegField)
  /-- GDBL, OP 0x43, format R: 43_gt_group.md R269. -/
  | gdbl (d : RegField) (a : RegField)
  /-- GSMUL, OP 0x44, format R: 43_gt_group.md R270. -/
  | gsmul (d : RegField) (a : RegField) (b : RegField)
  /-- GINV, OP 0x45, format R: 43_gt_group.md R272. -/
  | ginv (d : RegField) (a : RegField)
  /-- GONE, OP 0x46, format R: 43_gt_group.md R273. -/
  | gone (d : RegField)
  /-- GGEN, OP 0x47, format R: 43_gt_group.md R274. -/
  | ggen (d : RegField)
  /-- GRAND, OP 0x48, format R: 43_gt_group.md R279. -/
  | grand (d : RegField)
  /-- GISID, OP 0x49, format R: 43_gt_group.md R275. -/
  | gisid (a : RegField)
  /-- GEQ, OP 0x4A, format R: 43_gt_group.md R276. -/
  | geq (a : RegField) (b : RegField)
  /-- GSUBG, OP 0x4B, format R: 43_gt_group.md R282. -/
  | gsubg (a : RegField)
  /-- GMOV, OP 0x4C, format R: 43_gt_group.md R277. -/
  | gmov (d : RegField) (a : RegField)
  /-- GLD, OP 0x50, format M: 44_gt_codec_torus.md R300. -/
  | gld (r : RegField) (off : BitVec 6) (len : BitVec 12)
  /-- GLDU, OP 0x51, format M: 44_gt_codec_torus.md R302. -/
  | gldu (r : RegField) (off : BitVec 6) (len : BitVec 12)
  /-- GST, OP 0x52, format M: 44_gt_codec_torus.md R303. -/
  | gst (r : RegField) (off : BitVec 6) (len : BitVec 12)
  /-- GCMPR, OP 0x53, format R: 44_gt_codec_torus.md R305. -/
  | gcmpr (d : RegField) (a : RegField)
  /-- GUNCMPR, OP 0x54, format R: 44_gt_codec_torus.md R307. -/
  | guncmpr (d : RegField) (a : RegField)
  /-- TLD, OP 0x55, format M: 44_gt_codec_torus.md R310. -/
  | tld (r : RegField) (off : BitVec 6) (len : BitVec 12)
  /-- TST, OP 0x56, format M: 44_gt_codec_torus.md R311. -/
  | tst (r : RegField) (off : BitVec 6) (len : BitVec 12)
deriving DecidableEq, Repr

end Sys2Proof
end

