-- ==== Sys2Proof/Decode.lean ====
section
/-! DEFINITION. Decoding and encoding of command words (spec/30_encoding.md).

`decodeWord` makes checks 2 and 3 of spec/60_exceptions.md R334 (opcode assigned, reserved fields zero); the register
ranges are check 4, which each command makes itself. -/

namespace Sys2Proof

/-- Why a command word is no command: the two errors that its bits alone decide (60_exceptions.md R334, checks 2, 3). -/
inductive DecodeError
  /-- OP is unassigned (30_encoding.md R129). -/
  | illegalOpcode
  /-- A reserved or unused field is nonzero (30_encoding.md R127). -/
  | reservedField
deriving DecidableEq, Repr

/-- The five formats (30_encoding.md R122). -/
inductive Format
  | n | r | i12 | i16 | m
deriving DecidableEq, Repr

/-- What a register field of an opcode indexes (30_encoding.md R125); `unused` fields must be zero (R127). -/
inductive FieldClass
  | unused | s | g | t
deriving DecidableEq, Repr

/-- The fields of a command word, every format's at once (30_encoding.md R122, R123, R130). -/
structure Fields where
  d : RegField
  a : RegField
  b : RegField
  imm12 : BitVec 12
  imm16 : BitVec 16
  off : BitVec 6
deriving DecidableEq, Repr

/-- One row of the opcode map (30_encoding.md R128). In format M, `d` is the class of the field R. -/
structure OpRow where
  op : BitVec 8
  mnemonic : String
  format : Format
  d : FieldClass
  a : FieldClass
  b : FieldClass
  build : Fields → Instr

/-- The opcode field OP, bits 31:24 (30_encoding.md R121). -/
def opField (w : Word) : BitVec 8 := w.extractLsb' 24 8

/-- The fields of a command word (30_encoding.md R122, R123). LEN of format M is IMM12's bits. -/
def fieldsOf (w : Word) : Fields where
  d := w.extractLsb' 20 4
  a := w.extractLsb' 16 4
  b := w.extractLsb' 12 4
  imm12 := w.extractLsb' 0 12
  imm16 := w.extractLsb' 0 16
  off := w.extractLsb' 12 6

/-- The bits of a register field that must be zero when the opcode leaves it unused (30_encoding.md R127). -/
def FieldClass.zeroMask (c : FieldClass) (field : Word) : Word :=
  match c with
  | .unused => field
  | .s => 0
  | .g => 0
  | .t => 0

/-- The bits that must be zero in a command of this row: the reserved fields of its format and its unused register
fields (30_encoding.md R122, R123, R127). -/
def OpRow.zeroMask (row : OpRow) : Word :=
  match row.format with
  | .n => 0x00FFFFFF
  | .r => 0x00000FFF ||| row.d.zeroMask 0x00F00000 ||| row.a.zeroMask 0x000F0000 ||| row.b.zeroMask 0x0000F000
  | .i12 => 0x0000F000
  | .i16 => 0x000F0000
  | .m => 0x000C0000

/-- The rows of 40_scalar_arith.md in the opcode map (30_encoding.md R128). -/
def scalarArithRows : List OpRow := [
  ⟨0x10, "SADD", .r, .s, .s, .s, fun f => .sadd f.d f.a f.b⟩,
  ⟨0x11, "SSUB", .r, .s, .s, .s, fun f => .ssub f.d f.a f.b⟩,
  ⟨0x12, "SMUL", .r, .s, .s, .s, fun f => .smul f.d f.a f.b⟩,
  ⟨0x13, "SNEG", .r, .s, .s, .unused, fun f => .sneg f.d f.a⟩,
  ⟨0x14, "SDBL", .r, .s, .s, .unused, fun f => .sdbl f.d f.a⟩,
  ⟨0x15, "SSQR", .r, .s, .s, .unused, fun f => .ssqr f.d f.a⟩,
  ⟨0x16, "SINV", .r, .s, .s, .unused, fun f => .sinv f.d f.a⟩,
  ⟨0x17, "SDIV", .r, .s, .s, .s, fun f => .sdiv f.d f.a f.b⟩,
  ⟨0x18, "SPOW", .r, .s, .s, .s, fun f => .spow f.d f.a f.b⟩,
  ⟨0x19, "SSQRT", .r, .s, .s, .unused, fun f => .ssqrt f.d f.a⟩,
  ⟨0x1A, "SLEG", .r, .unused, .s, .unused, fun f => .sleg f.a⟩,
  ⟨0x1B, "SSHL", .i12, .s, .s, .unused, fun f => .sshl f.d f.a f.imm12⟩,
  ⟨0x1C, "SSHR", .i12, .s, .s, .unused, fun f => .sshr f.d f.a f.imm12⟩]

/-- The rows of 41_scalar_cmp_move.md in the opcode map (30_encoding.md R128). -/
def scalarCmpMoveRows : List OpRow := [
  ⟨0x00, "NOP", .n, .unused, .unused, .unused, fun _ => .nop⟩,
  ⟨0x20, "SEQ", .r, .unused, .s, .s, fun f => .seq f.a f.b⟩,
  ⟨0x21, "SCMP", .r, .unused, .s, .s, fun f => .scmp f.a f.b⟩,
  ⟨0x22, "SISZ", .r, .unused, .s, .unused, fun f => .sisz f.a⟩,
  ⟨0x23, "SSEL", .r, .s, .s, .s, fun f => .ssel f.d f.a f.b⟩,
  ⟨0x24, "SMOV", .r, .s, .s, .unused, fun f => .smov f.d f.a⟩,
  ⟨0x25, "SZERO", .r, .s, .unused, .unused, fun f => .szero f.d⟩,
  ⟨0x26, "SONE", .r, .s, .unused, .unused, fun f => .sone f.d⟩,
  ⟨0x27, "SIMM", .i16, .s, .unused, .unused, fun f => .simm f.d f.imm16⟩,
  ⟨0x28, "SNBITS", .r, .unused, .s, .unused, fun f => .snbits f.a⟩,
  ⟨0x29, "SRAND", .r, .s, .unused, .unused, fun f => .srand f.d⟩]

/-- The rows of 42_scalar_codec.md in the opcode map (30_encoding.md R128). -/
def scalarCodecRows : List OpRow := [
  ⟨0x30, "SLDLE", .m, .s, .unused, .unused, fun f => .sldle f.d f.off f.imm12⟩,
  ⟨0x31, "SLDBE", .m, .s, .unused, .unused, fun f => .sldbe f.d f.off f.imm12⟩,
  ⟨0x32, "SSTLE", .m, .s, .unused, .unused, fun f => .sstle f.d f.off f.imm12⟩,
  ⟨0x33, "SSTBE", .m, .s, .unused, .unused, fun f => .sstbe f.d f.off f.imm12⟩,
  ⟨0x34, "SLDRAW", .m, .s, .unused, .unused, fun f => .sldraw f.d f.off f.imm12⟩,
  ⟨0x35, "SLDWIDE", .m, .s, .unused, .unused, fun f => .sldwide f.d f.off f.imm12⟩,
  ⟨0x36, "SLDOKM", .m, .s, .unused, .unused, fun f => .sldokm f.d f.off f.imm12⟩]

/-- The rows of 43_gt_group.md in the opcode map (30_encoding.md R128). -/
def gtGroupRows : List OpRow := [
  ⟨0x40, "GADD", .r, .g, .g, .g, fun f => .gadd f.d f.a f.b⟩,
  ⟨0x41, "GSUB", .r, .g, .g, .g, fun f => .gsub f.d f.a f.b⟩,
  ⟨0x42, "GNEG", .r, .g, .g, .unused, fun f => .gneg f.d f.a⟩,
  ⟨0x43, "GDBL", .r, .g, .g, .unused, fun f => .gdbl f.d f.a⟩,
  ⟨0x44, "GSMUL", .r, .g, .g, .s, fun f => .gsmul f.d f.a f.b⟩,
  ⟨0x45, "GINV", .r, .g, .g, .unused, fun f => .ginv f.d f.a⟩,
  ⟨0x46, "GONE", .r, .g, .unused, .unused, fun f => .gone f.d⟩,
  ⟨0x47, "GGEN", .r, .g, .unused, .unused, fun f => .ggen f.d⟩,
  ⟨0x48, "GRAND", .r, .g, .unused, .unused, fun f => .grand f.d⟩,
  ⟨0x49, "GISID", .r, .unused, .g, .unused, fun f => .gisid f.a⟩,
  ⟨0x4A, "GEQ", .r, .unused, .g, .g, fun f => .geq f.a f.b⟩,
  ⟨0x4B, "GSUBG", .r, .unused, .g, .unused, fun f => .gsubg f.a⟩,
  ⟨0x4C, "GMOV", .r, .g, .g, .unused, fun f => .gmov f.d f.a⟩]

/-- The rows of 44_gt_codec_torus.md in the opcode map (30_encoding.md R128). -/
def gtCodecRows : List OpRow := [
  ⟨0x50, "GLD", .m, .g, .unused, .unused, fun f => .gld f.d f.off f.imm12⟩,
  ⟨0x51, "GLDU", .m, .g, .unused, .unused, fun f => .gldu f.d f.off f.imm12⟩,
  ⟨0x52, "GST", .m, .g, .unused, .unused, fun f => .gst f.d f.off f.imm12⟩,
  ⟨0x53, "GCMPR", .r, .t, .g, .unused, fun f => .gcmpr f.d f.a⟩,
  ⟨0x54, "GUNCMPR", .r, .g, .t, .unused, fun f => .guncmpr f.d f.a⟩,
  ⟨0x55, "TLD", .m, .t, .unused, .unused, fun f => .tld f.d f.off f.imm12⟩,
  ⟨0x56, "TST", .m, .t, .unused, .unused, fun f => .tst f.d f.off f.imm12⟩]

/-- The opcode map: the 51 assigned opcodes (30_encoding.md R128). -/
def opRows : List OpRow :=
  scalarArithRows ++ scalarCmpMoveRows ++ scalarCodecRows ++ gtGroupRows ++ gtCodecRows

/-- The row of an opcode, if it is assigned (30_encoding.md R128, R129). -/
def opRow (op : BitVec 8) : Option OpRow := opRows.find? fun row => row.op == op

/-- Decoding of a command word: total, and rejecting by name (60_exceptions.md R334, checks 2 and 3). -/
def decodeWord (w : Word) : Except DecodeError Instr :=
  match opRow (opField w) with
  | none => .error .illegalOpcode
  | some row => if w &&& row.zeroMask = 0 then .ok (row.build (fieldsOf w)) else .error .reservedField

/-- The instruction the decoder reads from the table's bits `w` (bit 0 the least significant bit of the command word,
30_encoding.md R120: one 32-bit word), where `nbits` of them are given and the rest are 0. -/
def decodeTableWord (nbits w : Nat) : Option Instr :=
  if nbits ≤ 32 then
    match decodeWord (BitVec.ofNat 32 (w % 2 ^ nbits)) with
    | .ok i => some i
    | .error _ => none
  else none

/-- A command word of format R (30_encoding.md R122). -/
def wordR (op : BitVec 8) (d a b : RegField) : Word := op ++ d ++ a ++ b ++ 0#12

/-- A command word of format I12 (30_encoding.md R122). -/
def wordI12 (op : BitVec 8) (d a : RegField) (imm : BitVec 12) : Word := op ++ d ++ a ++ 0#4 ++ imm

/-- A command word of format I16 (30_encoding.md R122). -/
def wordI16 (op : BitVec 8) (d : RegField) (imm : BitVec 16) : Word := op ++ d ++ 0#4 ++ imm

/-- A command word of format M (30_encoding.md R123). -/
def wordM (op : BitVec 8) (r : RegField) (off : BitVec 6) (len : BitVec 12) : Word := op ++ r ++ 0#2 ++ off ++ len

/-- The command word of a command (30_encoding.md R122, R123, R128). -/
def encode : Instr → Word
  | .nop => wordR 0x00 0 0 0
  | .sadd d a b => wordR 0x10 d a b
  | .ssub d a b => wordR 0x11 d a b
  | .smul d a b => wordR 0x12 d a b
  | .sneg d a => wordR 0x13 d a 0
  | .sdbl d a => wordR 0x14 d a 0
  | .ssqr d a => wordR 0x15 d a 0
  | .sinv d a => wordR 0x16 d a 0
  | .sdiv d a b => wordR 0x17 d a b
  | .spow d a b => wordR 0x18 d a b
  | .ssqrt d a => wordR 0x19 d a 0
  | .sleg a => wordR 0x1A 0 a 0
  | .sshl d a imm => wordI12 0x1B d a imm
  | .sshr d a imm => wordI12 0x1C d a imm
  | .seq a b => wordR 0x20 0 a b
  | .scmp a b => wordR 0x21 0 a b
  | .sisz a => wordR 0x22 0 a 0
  | .ssel d a b => wordR 0x23 d a b
  | .smov d a => wordR 0x24 d a 0
  | .szero d => wordR 0x25 d 0 0
  | .sone d => wordR 0x26 d 0 0
  | .simm d imm => wordI16 0x27 d imm
  | .snbits a => wordR 0x28 0 a 0
  | .srand d => wordR 0x29 d 0 0
  | .sldle r off len => wordM 0x30 r off len
  | .sldbe r off len => wordM 0x31 r off len
  | .sstle r off len => wordM 0x32 r off len
  | .sstbe r off len => wordM 0x33 r off len
  | .sldraw r off len => wordM 0x34 r off len
  | .sldwide r off len => wordM 0x35 r off len
  | .sldokm r off len => wordM 0x36 r off len
  | .gadd d a b => wordR 0x40 d a b
  | .gsub d a b => wordR 0x41 d a b
  | .gneg d a => wordR 0x42 d a 0
  | .gdbl d a => wordR 0x43 d a 0
  | .gsmul d a b => wordR 0x44 d a b
  | .ginv d a => wordR 0x45 d a 0
  | .gone d => wordR 0x46 d 0 0
  | .ggen d => wordR 0x47 d 0 0
  | .grand d => wordR 0x48 d 0 0
  | .gisid a => wordR 0x49 0 a 0
  | .geq a b => wordR 0x4A 0 a b
  | .gsubg a => wordR 0x4B 0 a 0
  | .gmov d a => wordR 0x4C d a 0
  | .gld r off len => wordM 0x50 r off len
  | .gldu r off len => wordM 0x51 r off len
  | .gst r off len => wordM 0x52 r off len
  | .gcmpr d a => wordR 0x53 d a 0
  | .guncmpr d a => wordR 0x54 d a 0
  | .tld r off len => wordM 0x55 r off len
  | .tst r off len => wordM 0x56 r off len

end Sys2Proof
end

