-- ==== Sys2Proof/Config.lean ====
section
/-! DEFINITION. The parameters of the model (spec/00_scope.md R7) and its free values (spec/00_scope.md R18).

Which parameters a machine has is plain data, the structure `Platform`, so that a claim about every state is a claim
about every value of them; the values below that R9, R10 and R264 recommend are where `State.reset` starts
(log entry 1). -/

namespace Sys2Proof

/-- What the block can ask of the tower port: the eight functions of 43_gt_group.md R261. `none` is "absent". -/
structure Tower where
  mul12 : Fp12 → Fp12 → Fp12
  sqr12 : Fp12 → Fp12
  inv12 : Fp12 → Option Fp12
  conj12 : Fp12 → Fp12
  subg : Fp12 → Bool
  fexp : Fp12 → Fp12
  mul6 : Fp6 → Fp6 → Fp6
  inv6 : Fp6 → Option Fp6
deriving Inhabited

/-- Which tower is connected to the tower port: the recommended one (43_gt_group.md R264), over whatever P the platform
has, or some other one, of which nothing is known (R261: each function is a parameter of the model). -/
inductive TowerChoice
  | recommended
  | other (id : Nat)
deriving DecidableEq, Repr

/-- The parameters that 00_scope.md R7 leaves open. `window` places the block: `BASE = window * 0x800`, which is a
multiple of 0x800 as 20_memory.md R83 requires. -/
structure Platform where
  q : Nat
  p : Nat
  gtGen : Fp12
  window : Nat
  tower : TowerChoice
deriving DecidableEq, Repr

namespace Config

/-- Free value (43_gt_group.md R261, entry 10): the functions of a tower other than the recommended one. -/
opaque otherTower : Nat → Tower

/-- Free value (10_state.md R62, entry 2): byte `k` of the 64 bytes that the entropy port answers at draw number `n`. -/
opaque drawByte (n k : Nat) : Byte

/-- Free value (10_state.md R62, entry 2): a number behind component `k` of the entropy port's answer at draw number
`n`; the component is this number modulo P, which can be anything in `[0, P)`. -/
opaque drawComponent (n k : Nat) : Nat

/-- Free value (40_scalar_arith.md R178, entry 2): `draw_SQRT_PICK()` at draw number `n`; `true` is 1. -/
opaque drawSqrtPick (n : Nat) : Bool

/-- The Montgomery radix, 2^256 (00_scope.md R7). -/
def R : Nat := 2 ^ 256

/-- The recommended scalar modulus Q (00_scope.md R9). -/
def recommendedQ : Nat := 0x73eda753299d7d483339d80809a1d80553bda402fffe5bfeffffffff00000001

/-- The recommended base-field modulus P (00_scope.md R10). -/
def recommendedP : Nat :=
  0x1a0111ea397fe69a4b1ba7b6434bacd764774b84f38512bf6730d2a0f6b0f6241eabfffeb153ffffb9feffffffffaaab

/-- The subgroup member H of 95_test_vectors.md section 7.1, which stands for GT_GEN at reset: DESIGN CHOICE, the spec
gives GT_GEN no value (43_gt_group.md R274, entry 1). -/
def memberH : Fp12 where
  lo := ⟨
    ⟨0x0f90359457da79edbfb4b7f62c678d505f74b8d594d367d0add968c1fa5f2b01689a0ca367c98e39e659d174828e6b3c,
     0x091ffd7dd0166a24163cbdb5819191437961ec055a1311dd6a48830963d36a1a0c98a4239b06dfba4f97e5c15d30f2c5⟩,
    ⟨0x07b6cf6fa469ecb440e1bf109c4ffade52e167db90773856d23d5103d3a3141257cc94dc31cd7c2f112d8412e42611b4,
     0x1396436c1a7d6c888badc32f1fa4c7f88787890ae9df4d3caf8b3725942802a330f8674a1e8b315b9c916b8707324062⟩,
    ⟨0x17502fa087b2e081ff349c1c5617f7a9c7c60fc616ce0299e481cee499b30609f442de83e769420fb2d92e1b4be6b9ff,
     0x179cd1353bd9c62ae62807c02e65294c993b56dab720d5fff98122abc01fc1688f7257100ef44a89ccc4e6b4e85ab0a5⟩⟩
  hi := ⟨
    ⟨0x0d13e4010de855c01ddea34687762e485d630853e64dffb6bdae9f6666462c31228a7d281b5f1ff649dfd059b60b9909,
     0x01978deb7d0553e89c209d589b8cd9431f7fc243da42a860cd6d91988d5888e58da8f99f3653c5d534a0362cf9211189⟩,
    ⟨0x18fc3a9091b0134343cea3f1a211162bb37a210df8b0bcd3593d852cd84c06da5d96538db060adfb81d2d0f347d1d232,
     0x12e0f93dda8fb47e76751d1ae2606f2655783ce8c42e4026027ae7402ca4a5e8351c1d0c234f731b86c78df936819670⟩,
    ⟨0x0a37580a010877016e05d75e3900780090a1f2583abd10b3e9f8a518aaeaea0c004ff499a599da88f8b07c9d36636cfe,
     0x1325f0b298736b1516221f0d08a592bec0ae9c2c93fa36cf484755f2e830002913739195a9cfdb5e867fd6e31805e92d⟩⟩

/-- The parameters at reset: those the spec recommends (00_scope.md R9, R10; 43_gt_group.md R264), with `memberH` for
GT_GEN and BASE = 0 (DESIGN CHOICE, entry 1). -/
def recommended : Platform :=
  ⟨recommendedQ, recommendedP, memberH, 0, .recommended⟩

end Config

end Sys2Proof
end

