-- ==== Sys2Proof/Machine/State.lean ====
section
/-! DEFINITION. The state of BLSTRS-CORE (spec/10_state.md R61), the state after reset (R60), and the fixed names of the
two ways a step could stop.

The fields from `platform` on are the model's own, not the spec's: parameters, the counter of draws, and what the
outside world presents (log entries 1, 2, 4, 15 and 21). -/

namespace Sys2Proof.Machine

/-- The reason codes of a `none` outcome (60_exceptions.md R331). -/
inductive Reason
  | notCanonical
  | wrongLength
  | nonInvertible
  | notInSubgroup
  | nonResidue
deriving DecidableEq, Repr

/-- The error codes (60_exceptions.md R332). -/
inductive ErrorCode
  | illegalOpcode
  | reservedField
  | badRegister
  | uninit
  | bounds
  | divByZero
  | haltedReject
deriving DecidableEq, Repr

/-- How a command ends other than ok (60_exceptions.md R330; 00_scope.md R17). -/
inductive Stop
  /-- The outcome `none(reason)`: a recoverable failure. -/
  | none (reason : Reason)
  /-- The outcome `error(code)`: the command could not be performed. -/
  | error (code : ErrorCode)
deriving DecidableEq, Repr

/-- The stored fields of STATUS (10_state.md R49). BUSY is not stored: it is 1 exactly when PEND holds a word (R53).
The reserved bits read 0 and hold nothing. -/
structure Status where
  done : Bool
  ok : Bool
  noneFlag : Bool
  err : Bool
  halted : Bool
  reason : BitVec 4
  ecode : BitVec 8
deriving DecidableEq, Repr

/-- STATUS after reset: every field 0 (10_state.md R60). -/
def Status.reset : Status := ⟨false, false, false, false, false, 0, 0⟩

/-- DBUF as a list of (offset, byte) pairs: offsets strictly rising and below 1024, no listed byte equal to 0x00, which
is what an unlisted byte reads as (20_memory.md R80; reset contents 10_state.md R60). -/
abbrev Memory := List Host.Cell

/-- The width of a host access: 1, 2 or 4 bytes (10_state.md R59). -/
inductive Width
  | byte | half | word
deriving DecidableEq, Repr

/-- A host access to a bus address (10_state.md R59, 20_memory.md R83): the low bytes of `data` are what is written. -/
inductive Access
  | read (addr : Nat) (width : Width)
  | write (addr : Nat) (width : Width) (data : Word)
deriving DecidableEq, Repr

/-- The two response codes of the host bus (10_state.md R59). -/
inductive BusCode
  | okay | error
deriving DecidableEq, Repr

/-- The response to a host access (10_state.md R59): its code and, for a read, the data it returns. -/
structure BusResponse where
  code : BusCode
  readData : Option Word
deriving DecidableEq, Repr

/-- What the outside world presents to the block, in order (log entry 4). -/
inductive Input
  /-- The host presents an access (20_memory.md R90). -/
  | access (a : Access)
  /-- The reset pin rst_n takes a level; `false` is asserted (70_reset_and_hazards.md R370). -/
  | rstN (level : Bool)
  /-- Nothing is presented: the command engine has the turn (20_memory.md R95: completion comes at any time). -/
  | idle
deriving DecidableEq, Repr

/-- The state of the block (10_state.md R61) and, from `platform` on, the model's own fields. -/
structure State where
  /-- S[0..15], in residue form (R40, R41). -/
  sreg : Vector ScalarWord 16
  /-- The valid bits SV[0..15] (R40, R55). -/
  sv : Vector Bool 16
  /-- G[0..7] (R43). -/
  greg : Vector Fp12 8
  /-- The valid bits GV[0..7] (R43, R55). -/
  gv : Vector Bool 8
  /-- T[0..3] (R45). -/
  treg : Vector Fp6 4
  /-- The valid bits TV[0..3] (R45, R55). -/
  tv : Vector Bool 4
  /-- The data buffer DBUF (20_memory.md R80). -/
  dbuf : Memory
  /-- CTRL.IE (R48). -/
  ie : Bool
  /-- STATUS but for BUSY (R49). -/
  status : Status
  /-- RESULT (R50). -/
  result : Word
  /-- PEND: the accepted command word, or empty (R53). -/
  pend : Option Word
  /-- The model's own (entry 1): the parameters of 00_scope.md R7. No step changes them (70_reset_and_hazards.md R370). -/
  platform : Platform
  /-- The model's own (entry 2): how many draws have been taken. -/
  draws : Nat
  /-- The model's own (entry 4): the inputs still to come. -/
  inputs : List Input
  /-- The model's own (entry 21): the presented accesses that the hold rule keeps waiting, oldest first (20_memory.md
  R93). -/
  held : List Access
  /-- The model's own (entry 4): the response to the last access performed, if it was answered. -/
  lastResp : Option BusResponse
  /-- The model's own (entry 15): the level of the pin rst_n. -/
  rstN : Bool
deriving DecidableEq, Repr

/-- Why the machine could stop with a fault: never. Every accepted command completes with ok, none or an error, which
are next states (60_exceptions.md R330), and a bus error is a response (R346). No constructor, so no fault can be raised;
nothing is unsafe about it (entry 17). -/
inductive Fault
deriving DecidableEq, Repr

/-- Why a step could be refused. -/
inductive Refusal
  /-- Raised by an arm of `exec` for an instruction that has no meaning yet; no arm raises it. Safe: it says nothing of
  what the hardware does. -/
  | notModelled (mnemonic : String)
deriving DecidableEq, Repr

/-- The state after a hard reset (10_state.md R60), at the recommended parameters (entry 1), with no draw taken, no input
to come or held, and rst_n released (entries 2, 4, 15, 21). -/
def State.reset : State where
  sreg := Vector.replicate 16 0
  sv := Vector.replicate 16 false
  greg := Vector.replicate 8 Fp12.zero
  gv := Vector.replicate 8 false
  treg := Vector.replicate 4 Fp6.zero
  tv := Vector.replicate 4 false
  dbuf := []
  ie := false
  status := Status.reset
  result := 0
  pend := none
  platform := Config.recommended
  draws := 0
  inputs := []
  held := []
  lastResp := none
  rstN := true

end Sys2Proof.Machine
end

