-- ==== Sys2Proof/Machine/Flags.lean ====
section
/-! DEFINITION. STATUS, CTRL and IRQ: the block's flags (spec/10_state.md R48, R49, R54, R57). -/

namespace Sys2Proof.Machine

/-- The 4-bit code of a reason (60_exceptions.md R331). -/
def Reason.code : Reason → BitVec 4
  | .notCanonical => 1
  | .wrongLength => 2
  | .nonInvertible => 3
  | .notInSubgroup => 4
  | .nonResidue => 5

/-- The 8-bit code of an error (60_exceptions.md R332). -/
def ErrorCode.code : ErrorCode → BitVec 8
  | .illegalOpcode => 1
  | .reservedField => 2
  | .badRegister => 3
  | .uninit => 4
  | .bounds => 5
  | .divByZero => 6
  | .haltedReject => 7

/-- The STATUS update at completion, where `none` is the outcome ok (60_exceptions.md R333). -/
def Status.update (st : Status) : Option Stop → Status
  | none => { st with done := true, ok := true, reason := 0 }
  | some (.none r) => { st with done := true, ok := false, reason := r.code, noneFlag := true }
  | some (.error e) =>
    { st with
      done := true, ok := false, reason := 0, err := true, ecode := e.code
      halted := st.halted || e == .divByZero }

/-- A host write to STATUS: data bit 1 clears DONE, bit 3 clears NONE, bit 4 clears ERR and ECODE; every other bit is
ignored (10_state.md R49). -/
def Status.writeOneToClear (st : Status) (data : Word) : Status :=
  { st with
    done := st.done && !data.getLsbD 1
    noneFlag := st.noneFlag && !data.getLsbD 3
    err := st.err && !data.getLsbD 4
    ecode := if data.getLsbD 4 then 0 else st.ecode }

/-- STATUS.BUSY: 1 exactly when PEND holds a word (10_state.md R49, R53). -/
def State.busy (s : State) : Bool := s.pend.isSome

/-- STATUS as the host reads it; the reserved bits 7:6, 15:12 and 31:24 read 0 (10_state.md R49). -/
def State.statusWord (s : State) : Word :=
  0#8 ++ s.status.ecode ++ 0#4 ++ s.status.reason ++ 0#2
    ++ BitVec.ofBool s.status.halted ++ BitVec.ofBool s.status.err ++ BitVec.ofBool s.status.noneFlag
    ++ BitVec.ofBool s.status.ok ++ BitVec.ofBool s.status.done ++ BitVec.ofBool s.busy

/-- CTRL as the host reads it: IE in bit 0; SRST and the reserved bits read 0 (10_state.md R48). -/
def State.ctrlWord (s : State) : Word := 0#31 ++ BitVec.ofBool s.ie

/-- ID: the constant 0x424C5301 (10_state.md R47). -/
def idWord : Word := 0x424C5301

/-- The output IRQ = CTRL.IE and STATUS.DONE (10_state.md R54, 60_exceptions.md R347). -/
def State.irq (s : State) : Bool := s.ie && s.status.done

end Sys2Proof.Machine
end

