-- ==== Sys2Proof/Machine/Bytes.lean ====
section
/-! DEFINITION. Byte sequences and the integers they encode (spec/00_scope.md R13). -/

namespace Sys2Proof.Machine

/-- `le(B)`: the integer of a byte sequence, least significant byte first (R13). -/
def leNat : List Byte → Nat
  | [] => 0
  | b :: bs => b.toNat + 256 * leNat bs

/-- `be(B)`: the integer of a byte sequence, most significant byte first (R13). -/
def beNat (bs : List Byte) : Nat := leNat bs.reverse

/-- `le_n(x)`: the n-byte little-endian encoding (R13). -/
def leBytes : Nat → Nat → List Byte
  | 0, _ => []
  | n + 1, x => BitVec.ofNat 8 x :: leBytes n (x / 256)

/-- `be_n(x)`: the n-byte big-endian encoding (R13). -/
def beBytes (n x : Nat) : List Byte := (leBytes n x).reverse

/-- `bitlen(x)`: the number of bits of `x`, so `bitlen(0) = 0` (R12). -/
def bitlen (x : Nat) : Nat := if x = 0 then 0 else Nat.log2 x + 1

end Sys2Proof.Machine
end

