-- ==== Sys2Proof/Machine/Residue.lean ====
section
/-! DEFINITION. The scalar-field engine (spec/00_scope.md R12, R15; spec/40_scalar_arith.md): Montgomery multiplier and
reducer by their results, the limb algorithms that compute them, and the field operations on canonical values.

Every function takes the modulus `q`. The rules apply to a `q` that meets 00_scope.md R8; for any other `q` the functions
are merely total (entry 12). -/

namespace Sys2Proof.Machine

open Sys2Proof.Config (R)

/-- The loop of 40_scalar_arith.md R176, over bits `n-1` down to 0 of `e`: square, then multiply where the bit is 1. -/
def powLoop (q x e : Nat) : Nat → Nat → Nat
  | 0, acc => acc
  | n + 1, acc =>
    let sq := acc * acc % q
    powLoop q x e n (if e.testBit n then sq * x % q else sq)

/-- `x^e mod q` for an exponent below 2^256, left to right from bit 255 (40_scalar_arith.md R176). -/
def powMod (q x e : Nat) : Nat := powLoop q x e 256 1

/-- `inv_q(a)` for `a ≠ 0 mod q` (00_scope.md R12), computed as `a^(q-2)` (40_scalar_arith.md R174). -/
def invMod (q a : Nat) : Nat := powMod q a (q - 2)

/-- `res(x) = (x · R) mod Q` (00_scope.md R15). -/
def res (q x : Nat) : Nat := x * R % q

/-- `val(m) = (m · inv_q(R mod Q)) mod Q` (00_scope.md R15). -/
def val (q m : Nat) : Nat := m * invMod q (R % q) % q

/-- Montgomery multiplication, by its result (40_scalar_arith.md R160). -/
def montMul (q a b : Nat) : Nat := a * b * invMod q (R % q) % q

/-- Montgomery reduction, by its result (40_scalar_arith.md R163). -/
def montRed (q t : Nat) : Nat := t * invMod q (R % q) % q

/-- `R1 = R mod Q` (40_scalar_arith.md R161). -/
def r1 (q : Nat) : Nat := R % q

/-- `R2 = R^2 mod Q` (40_scalar_arith.md R161). -/
def r2 (q : Nat) : Nat := R ^ 2 % q

/-- `R3 = R^3 mod Q` (40_scalar_arith.md R161). -/
def r3 (q : Nat) : Nat := R ^ 3 % q

/-- `ModAdd(a, b)` (40_scalar_arith.md R166). -/
def modAdd (q a b : Nat) : Nat := let s := a + b; if q ≤ s then s - q else s

/-- `ModSub(a, b)`: `a − b`, plus `Q` where that is negative (40_scalar_arith.md R166). -/
def modSub (q a b : Nat) : Nat := if a < b then a + q - b else a - b

/-- `ModNeg(a)` (40_scalar_arith.md R166). -/
def modNeg (q a : Nat) : Nat := if a = 0 then 0 else q - a

/-! ### Limb algorithms -/

/-- 2^64, the base of a limb. -/
def limbBase : Nat := 2 ^ 64

/-- Limb `i` of an integer: 64 bits, least significant limb first (10_state.md R40). -/
def limb (x i : Nat) : Nat := x / limbBase ^ i % limbBase

/-- Newton's iteration for the inverse of an odd number modulo a power of two; each round doubles the valid bits. -/
def invPow2Loop (q : Nat) : Nat → Nat → Nat
  | 0, y => y
  | n + 1, y => invPow2Loop q n (y * (2 + limbBase * limbBase - q % limbBase * y % limbBase) % limbBase)

/-- `INV = −inv(Q) mod 2^64`, the Montgomery constant of a limb (40_scalar_arith.md R161). It exists for an odd `q`. -/
def montInv (q : Nat) : Nat := (limbBase - invPow2Loop q 6 1) % limbBase

/-- The words `t[0..5]` of the loop of 40_scalar_arith.md R162. -/
structure CiosWords where
  t0 : Nat
  t1 : Nat
  t2 : Nat
  t3 : Nat
  t4 : Nat
  t5 : Nat
deriving DecidableEq, Repr

/-- `(C, x) = e`: the high part and the low 64 bits of `e` (40_scalar_arith.md R162). -/
def splitLimb (e : Nat) : Nat × Nat := (e / limbBase, e % limbBase)

/-- One round `i` of 40_scalar_arith.md R162: add `a · b_i`, then add the multiple of `Q` that clears the low word and
shift down by one word. -/
def ciosRound (q a bi : Nat) (t : CiosWords) : CiosWords :=
  let (c, t0) := splitLimb (t.t0 + limb a 0 * bi)
  let (c, t1) := splitLimb (t.t1 + limb a 1 * bi + c)
  let (c, t2) := splitLimb (t.t2 + limb a 2 * bi + c)
  let (c, t3) := splitLimb (t.t3 + limb a 3 * bi + c)
  let (t5, t4) := splitLimb (t.t4 + c)
  let m := t0 * montInv q % limbBase
  let (c, _) := splitLimb (t0 + m * limb q 0)
  let (c, u0) := splitLimb (t1 + m * limb q 1 + c)
  let (c, u1) := splitLimb (t2 + m * limb q 2 + c)
  let (c, u2) := splitLimb (t3 + m * limb q 3 + c)
  let (c, u3) := splitLimb (t4 + c)
  ⟨u0, u1, u2, u3, t5 + c, t5⟩

/-- The integer of the words `t[0..4]` (40_scalar_arith.md R162). -/
def CiosWords.value (t : CiosWords) : Nat :=
  t.t0 + t.t1 * limbBase + t.t2 * limbBase ^ 2 + t.t3 * limbBase ^ 3 + t.t4 * limbBase ^ 4

/-- The limb algorithm of 40_scalar_arith.md R162. -/
def cios (q a b : Nat) : Nat :=
  let t := ciosRound q a (limb b 0) ⟨0, 0, 0, 0, 0, 0⟩
  let t := ciosRound q a (limb b 1) t
  let t := ciosRound q a (limb b 2) t
  let t := ciosRound q a (limb b 3) t
  let u := t.value
  if q ≤ u then u - q else u

/-- One round `i` of 40_scalar_arith.md R164, on the integer of the words `T[0..8]`: add the multiple of
`Q · 2^(64·i)` that clears word `i`. -/
def redcRound (q i t : Nat) : Nat := t + limb t i * montInv q % limbBase * q * limbBase ^ i

/-- The limb algorithm of 40_scalar_arith.md R164. -/
def redc (q t : Nat) : Nat :=
  let t := redcRound q 3 (redcRound q 2 (redcRound q 1 (redcRound q 0 t)))
  let u := t / limbBase ^ 4
  if q ≤ u then u - q else u

/-! ### Conversions and wide reduction -/

/-- Convert-in by the multiplier: `MontMul(x, R2)` (40_scalar_arith.md R165, 42_scalar_codec.md R241). -/
def convertIn (q x : Nat) : Nat := montMul q x (r2 q)

/-- The wide reduction of 42_scalar_codec.md R243, from two 256-bit parts and the constants R2 and R3. -/
def wideReduce (q v : Nat) : Nat :=
  modAdd q (montMul q (v % R) (r2 q)) (montMul q (v / R) (r3 q))

/-! ### Powers, squares and roots -/

/-- `x^((Q-1)/2) mod Q` (40_scalar_arith.md R177). -/
def eulerPower (q x : Nat) : Nat := powMod q x ((q - 1) / 2)

/-- The Legendre symbol as a 32-bit word: 0, 1 or −1 (40_scalar_arith.md R177). -/
def legendreWord (q x : Nat) : Word :=
  let l := eulerPower q x
  if l = 0 then 0x00000000 else if l = 1 then 0x00000001 else 0xFFFFFFFF

/-- How often 2 divides `n`, up to a number of rounds. -/
def twoAdicity : Nat → Nat → Nat
  | 0, _ => 0
  | k + 1, n => if n % 2 = 0 then twoAdicity k (n / 2) + 1 else 0

/-- The least non-residue from `z` on, within a number of rounds. -/
def nonResidue (q : Nat) : Nat → Nat → Nat
  | 0, z => z
  | k + 1, z => if eulerPower q z = q - 1 then z else nonResidue q k (z + 1)

/-- `b` squared `k` times modulo `q`. -/
def squareTimes (q : Nat) : Nat → Nat → Nat
  | 0, b => b
  | k + 1, b => squareTimes q k (b * b % q)

/-- The loop of Tonelli–Shanks, over the powers of two that remain. -/
def tonelliLoop (q : Nat) : Nat → Nat → Nat → Nat → Nat
  | 0, r, _, _ => r
  | k + 1, r, b, c =>
    let c2 := c * c % q
    if squareTimes q k b = 1 then tonelliLoop q k r b c2
    else tonelliLoop q k (r * c % q) (b * c2 % q) c2

/-- A candidate square root by Tonelli–Shanks, the algorithm 40_scalar_arith.md R178 names. -/
def tonelli (q x : Nat) : Nat :=
  let s := twoAdicity 256 (q - 1)
  let t := (q - 1) / 2 ^ s
  tonelliLoop q (s - 1) (powMod q x ((t + 1) / 2)) (powMod q x t) (powMod q (nonResidue q 256 2) t)

/-- The least root from `r` on, within a number of rounds. -/
def leastRoot (q x : Nat) : Nat → Nat → Nat
  | 0, r => r
  | k + 1, r => if r * r % q = x then r else leastRoot q x k (r + 1)

/-- The smaller of the two square roots of a nonzero residue `x` (`r0` of 40_scalar_arith.md R178): the smaller of `r`
and `Q − r` where Tonelli–Shanks finds a root `r`, else the least number whose square is `x` (entry 11). -/
def smallerRoot (q x : Nat) : Nat :=
  let r := tonelli q x
  if r * r % q = x then min r (q - r) else leastRoot q x q 1

/-! ### Shifts -/

/-- Modular halving, exact (40_scalar_arith.md R180). -/
def halve (q m : Nat) : Nat := if m % 2 = 1 then (m + q) / 2 else m / 2

/-- Modular halving applied `n` times (40_scalar_arith.md R180). -/
def halveTimes (q : Nat) : Nat → Nat → Nat
  | 0, m => m
  | n + 1, m => halveTimes q n (halve q m)

/-! ### Byte-wise comparison and bit length -/

/-- The byte-wise comparison of 41_scalar_cmp_move.md R201, most significant byte first: −1, 0 or 1 as a word. -/
def compareBytes : List Byte → List Byte → Word
  | x :: xs, y :: ys =>
    if x.toNat < y.toNat then 0xFFFFFFFF else if y.toNat < x.toNat then 0x00000001 else compareBytes xs ys
  | _, _ => 0x00000000

/-- The bit length by the most significant nonzero byte (41_scalar_cmp_move.md R208): with `n` bytes after the first
nonzero byte `X`, `8·n + bitlen(X)`; 0 if every byte is 0. -/
def bitLengthBytes : List Byte → Nat
  | [] => 0
  | x :: xs => if x = 0 then bitLengthBytes xs else 8 * xs.length + bitlen x.toNat

end Sys2Proof.Machine
end

