-- ==== Sys2Proof/Machine/Tower.lean ====
section
/-! DEFINITION. The tower port (spec/43_gt_group.md R260, R261): the recommended tower of R264 over a given P, and the
tower that a platform connects.

Fp2 = Fp[u]/(u² + 1), Fp6 = Fp2[v]/(v³ − (u + 1)), Fp12 = Fp6[w]/(w² − v), in the component order of R262. -/

namespace Sys2Proof.Machine

/-! ### Fp -/

/-- Addition in Fp. -/
def fpAdd (p : Nat) (x y : FpWord) : FpWord := BitVec.ofNat 384 ((x.toNat + y.toNat) % p)

/-- Negation in Fp. -/
def fpNeg (p : Nat) (x : FpWord) : FpWord := BitVec.ofNat 384 ((p - x.toNat % p) % p)

/-- Multiplication in Fp. -/
def fpMul (p : Nat) (x y : FpWord) : FpWord := BitVec.ofNat 384 (x.toNat * y.toNat % p)

/-- Subtraction in Fp. -/
def fpSub (p : Nat) (x y : FpWord) : FpWord := fpAdd p x (fpNeg p y)

/-- The loop of `fpPow`, over bits `n-1` down to 0 of `e`. -/
def fpPowLoop (p : Nat) (x : FpWord) (e : Nat) : Nat → FpWord → FpWord
  | 0, acc => acc
  | n + 1, acc =>
    let sq := fpMul p acc acc
    fpPowLoop p x e n (if e.testBit n then fpMul p sq x else sq)

/-- The inverse of a nonzero element of Fp, as `x^(P-2)`. -/
def fpInv (p : Nat) (x : FpWord) : FpWord := fpPowLoop p x (p - 2) 384 1

/-! ### Fp2 = Fp[u]/(u² + 1) -/

/-- Addition in Fp2. -/
def fp2Add (p : Nat) (x y : Fp2) : Fp2 := ⟨fpAdd p x.c0 y.c0, fpAdd p x.c1 y.c1⟩

/-- Negation in Fp2. -/
def fp2Neg (p : Nat) (x : Fp2) : Fp2 := ⟨fpNeg p x.c0, fpNeg p x.c1⟩

/-- Subtraction in Fp2. -/
def fp2Sub (p : Nat) (x y : Fp2) : Fp2 := fp2Add p x (fp2Neg p y)

/-- Multiplication in Fp2, with `u² = −1`. -/
def fp2Mul (p : Nat) (x y : Fp2) : Fp2 :=
  ⟨fpSub p (fpMul p x.c0 y.c0) (fpMul p x.c1 y.c1), fpAdd p (fpMul p x.c0 y.c1) (fpMul p x.c1 y.c0)⟩

/-- Multiplication by `u + 1`, which is `v³`. -/
def fp2MulXi (p : Nat) (x : Fp2) : Fp2 := ⟨fpSub p x.c0 x.c1, fpAdd p x.c0 x.c1⟩

/-- The inverse of a nonzero element of Fp2: its conjugate over its norm. -/
def fp2Inv (p : Nat) (x : Fp2) : Fp2 :=
  let n := fpInv p (fpAdd p (fpMul p x.c0 x.c0) (fpMul p x.c1 x.c1))
  ⟨fpMul p x.c0 n, fpMul p (fpNeg p x.c1) n⟩

/-! ### Fp6 = Fp2[v]/(v³ − (u + 1)) -/

/-- Addition in Fp6. -/
def fp6Add (p : Nat) (x y : Fp6) : Fp6 := ⟨fp2Add p x.c0 y.c0, fp2Add p x.c1 y.c1, fp2Add p x.c2 y.c2⟩

/-- Negation in Fp6: each component modulo P. -/
def fp6Neg (p : Nat) (x : Fp6) : Fp6 := ⟨fp2Neg p x.c0, fp2Neg p x.c1, fp2Neg p x.c2⟩

/-- Subtraction in Fp6. -/
def fp6Sub (p : Nat) (x y : Fp6) : Fp6 := fp6Add p x (fp6Neg p y)

/-- Multiplication in Fp6, with `v³ = u + 1`. -/
def fp6Mul (p : Nat) (x y : Fp6) : Fp6 where
  c0 := fp2Add p (fp2Mul p x.c0 y.c0) (fp2MulXi p (fp2Add p (fp2Mul p x.c1 y.c2) (fp2Mul p x.c2 y.c1)))
  c1 := fp2Add p (fp2Add p (fp2Mul p x.c0 y.c1) (fp2Mul p x.c1 y.c0)) (fp2MulXi p (fp2Mul p x.c2 y.c2))
  c2 := fp2Add p (fp2Add p (fp2Mul p x.c0 y.c2) (fp2Mul p x.c1 y.c1)) (fp2Mul p x.c2 y.c0)

/-- Multiplication by `v`, which is `w²`. -/
def fp6MulV (p : Nat) (x : Fp6) : Fp6 := ⟨fp2MulXi p x.c2, x.c0, x.c1⟩

/-- The inverse of a nonzero element of Fp6: its adjugate over its norm to Fp2. -/
def fp6Inv (p : Nat) (x : Fp6) : Fp6 :=
  let t0 := fp2Sub p (fp2Mul p x.c0 x.c0) (fp2MulXi p (fp2Mul p x.c1 x.c2))
  let t1 := fp2Sub p (fp2MulXi p (fp2Mul p x.c2 x.c2)) (fp2Mul p x.c0 x.c1)
  let t2 := fp2Sub p (fp2Mul p x.c1 x.c1) (fp2Mul p x.c0 x.c2)
  let n := fp2Inv p (fp2Add p (fp2Mul p x.c0 t0)
    (fp2MulXi p (fp2Add p (fp2Mul p x.c2 t1) (fp2Mul p x.c1 t2))))
  ⟨fp2Mul p t0 n, fp2Mul p t1 n, fp2Mul p t2 n⟩

/-! ### Fp12 = Fp6[w]/(w² − v) -/

/-- Multiplication in Fp12, with `w² = v`. -/
def fp12Mul (p : Nat) (x y : Fp12) : Fp12 :=
  ⟨fp6Add p (fp6Mul p x.lo y.lo) (fp6MulV p (fp6Mul p x.hi y.hi)),
   fp6Add p (fp6Mul p x.lo y.hi) (fp6Mul p x.hi y.lo)⟩

/-- Conjugation `c0 + c1·w ↦ c0 − c1·w` (43_gt_group.md R264). -/
def fp12Conj (p : Nat) (x : Fp12) : Fp12 := ⟨x.lo, fp6Neg p x.hi⟩

/-- The inverse of a nonzero element of Fp12: its conjugate over its norm to Fp6. -/
def fp12Inv (p : Nat) (x : Fp12) : Fp12 :=
  let n := fp6Inv p (fp6Sub p (fp6Mul p x.lo x.lo) (fp6MulV p (fp6Mul p x.hi x.hi)))
  ⟨fp6Mul p x.lo n, fp6Mul p (fp6Neg p x.hi) n⟩

/-- The loop of `fp12Pow`, over bits `n-1` down to 0 of `e`. -/
def fp12PowLoop (p : Nat) (x : Fp12) (e : Nat) : Nat → Fp12 → Fp12
  | 0, acc => acc
  | n + 1, acc =>
    let sq := fp12Mul p acc acc
    fp12PowLoop p x e n (if e.testBit n then fp12Mul p sq x else sq)

/-- `x^e` in Fp12. -/
def fp12Pow (p : Nat) (x : Fp12) (e : Nat) : Fp12 := fp12PowLoop p x e (Nat.log2 e + 1) Fp12.one

/-- The recommended tower over P, for the subgroup of order Q (43_gt_group.md R264). -/
def recommendedTower (q p : Nat) : Tower where
  mul12 := fp12Mul p
  sqr12 a := fp12Mul p a a
  inv12 a := if a = Fp12.zero then none else some (fp12Inv p a)
  conj12 := fp12Conj p
  subg a := a ≠ Fp12.zero ∧ fp12Pow p a q = Fp12.one
  fexp a := fp12Pow p a ((p ^ 12 - 1) / q)
  mul6 := fp6Mul p
  inv6 s := if s = Fp6.zero then none else some (fp6Inv p s)

/-- The tower that a platform connects to the tower port (10_state.md R58). -/
def towerOf (c : Platform) : Tower :=
  match c.tower with
  | .recommended => recommendedTower c.q c.p
  | .other id => Config.otherTower id

/-- `MINUS_ONE6 = (P−1, 0, 0, 0, 0, 0)` (00_scope.md R19). -/
def minusOne6 (p : Nat) : Fp6 := Fp6.ofFn fun k => if k = 0 then BitVec.ofNat 384 (p - 1) else 0

/-- `addone(c)`: component 0 plus 1 modulo P (43_gt_group.md R264). -/
def addone (p : Nat) (c : Fp6) : Fp6 := { c with c0 := { c.c0 with c0 := BitVec.ofNat 384 ((c.c0.c0.toNat + 1) % p) } }

end Sys2Proof.Machine
end

