-- ==== Sys2Proof/Machine/Ops.lean ====
section
/-! DEFINITION. The named operations over DBUF, the register files and the draws, the completion of a command (the one
operation by which the block takes an error, spec/60_exceptions.md R333) and the reset (spec/70_reset_and_hazards.md). -/

namespace Sys2Proof.Machine

/-! ### DBUF -/

/-- How many bytes DBUF has (20_memory.md R80). -/
def dbufSize : Nat := 1024

/-- The byte at an offset; an unlisted byte reads 0x00 (20_memory.md R80, 10_state.md R60). -/
def Memory.read : Memory → Nat → Byte
  | [], _ => 0
  | (b, v) :: m, a => if b = a then v else Memory.read m a

/-- Replaces the byte at an offset, keeping the canonical form: a byte of 0x00 is not listed. -/
def Memory.write : Memory → Nat → Byte → Memory
  | [], a, v => if v = 0 then [] else [(a, v)]
  | (b, w) :: m, a, v =>
    if a < b then (if v = 0 then (b, w) :: m else (a, v) :: (b, w) :: m)
    else if a = b then (if v = 0 then m else (a, v) :: m)
    else (b, w) :: Memory.write m a v

/-- The canonical form from an offset on: offsets strictly rising from `lo` and below 1024, no byte 0x00. -/
def Memory.wfFrom : Nat → Memory → Bool
  | _, [] => true
  | lo, (b, v) :: m => decide (lo ≤ b) && decide (b < dbufSize) && decide (v ≠ 0) && Memory.wfFrom (b + 1) m

/-- The canonical form of DBUF's list. -/
def Memory.wf (m : Memory) : Bool := Memory.wfFrom 0 m

/-- `MemRead(off, n)` (00_scope.md R16). -/
def Memory.readBytes (m : Memory) (off : Nat) : Nat → List Byte
  | 0 => []
  | n + 1 => Memory.read m off :: Memory.readBytes m (off + 1) n

/-- `MemWrite(off, n, bytes)` (00_scope.md R16). -/
def Memory.writeBytes (m : Memory) (off : Nat) : List Byte → Memory
  | [] => m
  | v :: bs => Memory.writeBytes (Memory.write m off v) (off + 1) bs

/-! ### Parameters -/

/-- The scalar modulus Q (00_scope.md R7). -/
def State.q (s : State) : Nat := s.platform.q

/-- The base-field modulus P (00_scope.md R7). -/
def State.p (s : State) : Nat := s.platform.p

/-- The tower on the tower port (43_gt_group.md R261). -/
def State.tower (s : State) : Tower := towerOf s.platform

/-! ### Registers -/

/-- `S[i] <- m`, with the residue `m` in the 256-bit container; sets `SV[i]` (00_scope.md R14). -/
def State.setS (s : State) (i : Fin 16) (m : Nat) : State :=
  { s with sreg := s.sreg.set i (BitVec.ofNat 256 m), sv := s.sv.set i true }

/-- `S[i] <- res(x)` (00_scope.md R15). -/
def State.writeScalar (s : State) (i : Fin 16) (x : Nat) : State := s.setS i (res s.q x)

/-- `G[i] <- a`; sets `GV[i]` (00_scope.md R14). -/
def State.setG (s : State) (i : Fin 8) (a : Fp12) : State :=
  { s with greg := s.greg.set i a, gv := s.gv.set i true }

/-- `T[i] <- t`; sets `TV[i]` (00_scope.md R14). -/
def State.setT (s : State) (i : Fin 4) (t : Fp6) : State :=
  { s with treg := s.treg.set i t, tv := s.tv.set i true }

/-- `RESULT <- v` (10_state.md R50). -/
def State.setResult (s : State) (v : Word) : State := { s with result := v }

/-- `MemWrite(off, n, bytes)` on DBUF (00_scope.md R16). -/
def State.store (s : State) (off : Nat) (bs : List Byte) : State :=
  { s with dbuf := Memory.writeBytes s.dbuf off bs }

/-! ### Draws (00_scope.md R18; entry 2) -/

/-- A draw has been taken: the next one is another free value. -/
def State.drawn (s : State) : State := { s with draws := s.draws + 1 }

/-- `draw_RNG(64)`: the 64 bytes of this draw (41_scalar_cmp_move.md R212). -/
def State.drawBytes (s : State) : List Byte := (List.range 64).map (Config.drawByte s.draws)

/-- 12 draws of `draw_RNG_P()`, each in `[0, P)` (43_gt_group.md R279). -/
def State.drawFp12 (s : State) : Fp12 :=
  Fp12.ofFn fun k => BitVec.ofNat 384 (Config.drawComponent s.draws k % s.p)

/-- `draw_SQRT_PICK()` (40_scalar_arith.md R178). -/
def State.drawSqrtPick (s : State) : Bool := Config.drawSqrtPick s.draws

/-! ### Completion (60_exceptions.md R333) -/

/-- Completion of the pending command with an outcome, `none` being ok: the STATUS update, PEND empty and with it
BUSY 0. This is the one operation by which the block takes a none outcome or an error (60_exceptions.md R333, R342). -/
def State.complete (s : State) (outcome : Option Stop) : State :=
  { s with status := s.status.update outcome, pend := none }

/-- The completed state of a command that started in `s` and whose rule gave a result: the state it wrote, completed
with ok, or `s` itself, completed with what stopped it (60_exceptions.md R330, R341). -/
def State.finish (s : State) : Except Stop State → State
  | .ok t => t.complete none
  | .error e => s.complete (some e)

/-- One command: check 1 (halted), then the command's own checks and rule (60_exceptions.md R334, R344). -/
def runCommand (rule : State → Except Stop State) (s : State) : Host.Outcome State Fault Refusal :=
  .next (s.finish (if s.status.halted then .error (.error .haltedReject) else rule s))

/-! ### Reset (70_reset_and_hazards.md R370, R371) -/

/-- Both resets: every piece of the spec's state takes its value of 10_state.md R60. The model's own fields stay
(entries 1, 2, 4, 15, 16, 21). -/
def State.cleared (s : State) : State :=
  { State.reset with
    platform := s.platform, draws := s.draws, inputs := s.inputs, held := s.held, lastResp := s.lastResp
    rstN := s.rstN }

end Sys2Proof.Machine
end

