-- ==== Sys2Proof/Machine/Operands.lean ====
section
/-! DEFINITION. The operand forms and the checks 4 to 7 of spec/60_exceptions.md R334, which each command makes in their
order, and the vector codec of spec/44_gt_codec_torus.md R301. -/

namespace Sys2Proof.Machine

/-- The register an S field names: every value of the field is in range (30_encoding.md R125). -/
def sIndex (f : RegField) : Fin 16 := f.toFin

/-- Check 4 for a G field: BAD_REGISTER where it is 8 or more (30_encoding.md R125). -/
def gIndex (f : RegField) : Except Stop (Fin 8) :=
  if h : f.toNat < 8 then .ok ⟨f.toNat, h⟩ else .error (.error .badRegister)

/-- Check 4 for a T field: BAD_REGISTER where it is 4 or more (30_encoding.md R125). -/
def tIndex (f : RegField) : Except Stop (Fin 4) :=
  if h : f.toNat < 4 then .ok ⟨f.toNat, h⟩ else .error (.error .badRegister)

/-- A read of the residue in `S[i]`, after check 5: UNINIT where `SV[i]` is 0 (60_exceptions.md R336). -/
def State.residue (s : State) (i : Fin 16) : Except Stop Nat :=
  if s.sv[i] then .ok s.sreg[i].toNat else .error (.error .uninit)

/-- A read of `G[i]`, after check 5 (60_exceptions.md R336). -/
def State.gt (s : State) (i : Fin 8) : Except Stop Fp12 :=
  if s.gv[i] then .ok s.greg[i] else .error (.error .uninit)

/-- A read of `T[i]`, after check 5 (60_exceptions.md R336). -/
def State.torus (s : State) (i : Fin 4) : Except Stop Fp6 :=
  if s.tv[i] then .ok s.treg[i] else .error (.error .uninit)

/-- A read of the canonical value `val(S[i])`, after check 5 (00_scope.md R15). -/
def State.scalar (s : State) (i : Fin 16) : Except Stop Nat :=
  match s.residue i with
  | .ok m => .ok (val s.q m)
  | .error e => .error e

/-- Checks 6 and 7 of an M-format command of fixed length `lreq`: the length, then the bounds; the result is the byte
offset `OFF · 16` (42_scalar_codec.md R234, 60_exceptions.md R337 to R339). -/
def bufferRange (off : BitVec 6) (len : BitVec 12) (lreq : Nat) : Except Stop Nat :=
  if len.toNat ≠ lreq then .error (.none .wrongLength)
  else if dbufSize < off.toNat * 16 + lreq then .error (.error .bounds)
  else .ok (off.toNat * 16)

/-- Component `k` of a vector at an offset of DBUF, in a byte order (44_gt_codec_torus.md R301). -/
def component (order : List Byte → Nat) (m : Memory) (off k : Nat) : Nat :=
  order (Memory.readBytes m (off + 48 * k) 48)

/-- `decode_vec(off, n, order)`: absent if some component is P or more (44_gt_codec_torus.md R301). -/
def decodeVec (p : Nat) (order : List Byte → Nat) (m : Memory) (off n : Nat) : Option (Nat → FpWord) :=
  if (List.range n).all fun k => component order m off k < p then
    some fun k => BitVec.ofNat 384 (component order m off k)
  else none

/-- The bytes of a vector: each component in 48 bytes, in index order (44_gt_codec_torus.md R303, R311). -/
def encodeVec (order : Nat → Nat → List Byte) (cs : List FpWord) : List Byte :=
  cs.flatMap fun c => order 48 c.toNat

end Sys2Proof.Machine
end

