-- ==== Sys2Proof/Machine/GtCodec.lean ====
section
/-! DEFINITION. Gt encoding and the torus compression codec (spec/44_gt_codec_torus.md R300 to R311). -/

namespace Sys2Proof.Machine

/-- GLD (R300): canonicity, then subgroup membership. -/
def execGld (r : RegField) (off : BitVec 6) (len : BitVec 12) (s : State) : Host.Outcome State Fault Refusal :=
  runCommand (fun s => do
    let r ← gIndex r
    let o ← bufferRange off len 576
    match decodeVec s.p beNat s.dbuf o 12 with
    | none => throw (.none .notCanonical)
    | some f =>
      if s.tower.subg (Fp12.ofFn f) then return s.setG r (Fp12.ofFn f)
      else throw (.none .notInSubgroup)) s

/-- GLDU (R302): canonicity only. -/
def execGldu (r : RegField) (off : BitVec 6) (len : BitVec 12) (s : State) : Host.Outcome State Fault Refusal :=
  runCommand (fun s => do
    let r ← gIndex r
    let o ← bufferRange off len 576
    match decodeVec s.p beNat s.dbuf o 12 with
    | none => throw (.none .notCanonical)
    | some f => return s.setG r (Fp12.ofFn f)) s

/-- GST (R303): 12 big-endian components. -/
def execGst (r : RegField) (off : BitVec 6) (len : BitVec 12) (s : State) : Host.Outcome State Fault Refusal :=
  runCommand (fun s => do
    let r ← gIndex r
    let x ← s.gt r
    let o ← bufferRange off len 576
    return s.store o (encodeVec beBytes x.comps)) s

/-- Compression `inverse(c1) · addone(c0)`, absent where `c1` has no inverse (R305, R306). -/
def compress (tw : Tower) (p : Nat) (g : Fp12) : Option Fp6 :=
  match tw.inv6 g.hi with
  | none => none
  | some i => some (tw.mul6 i (addone p g.lo))

/-- GCMPR (R305). -/
def execGcmpr (d a : RegField) (s : State) : Host.Outcome State Fault Refusal :=
  runCommand (fun s => do
    let d ← tIndex d
    let a ← gIndex a
    let x ← s.gt a
    match compress s.tower s.p x with
    | none => throw (.none .nonInvertible)
    | some t => return s.setT d t) s

/-- Uncompression `(t, 1) · inverse((t, −1))` with the subgroup check (R307). -/
def uncompress (tw : Tower) (p : Nat) (t : Fp6) : Except Stop Fp12 :=
  match tw.inv12 ⟨t, minusOne6 p⟩ with
  | none => .error (.none .nonInvertible)
  | some yi =>
    let g := tw.mul12 ⟨t, Fp6.one⟩ yi
    if tw.subg g then .ok g else .error (.none .notInSubgroup)

/-- GUNCMPR (R307). -/
def execGuncmpr (d a : RegField) (s : State) : Host.Outcome State Fault Refusal :=
  runCommand (fun s => do
    let d ← gIndex d
    let a ← tIndex a
    let t ← s.torus a
    let g ← uncompress s.tower s.p t
    return s.setG d g) s

/-- TLD (R310): 6 little-endian components, no subgroup check. -/
def execTld (r : RegField) (off : BitVec 6) (len : BitVec 12) (s : State) : Host.Outcome State Fault Refusal :=
  runCommand (fun s => do
    let r ← tIndex r
    let o ← bufferRange off len 288
    match decodeVec s.p leNat s.dbuf o 6 with
    | none => throw (.none .notCanonical)
    | some f => return s.setT r (Fp6.ofFn f)) s

/-- TST (R311): 6 little-endian components. -/
def execTst (r : RegField) (off : BitVec 6) (len : BitVec 12) (s : State) : Host.Outcome State Fault Refusal :=
  runCommand (fun s => do
    let r ← tIndex r
    let x ← s.torus r
    let o ← bufferRange off len 288
    return s.store o (encodeVec leBytes x.comps)) s

end Sys2Proof.Machine
end

