-- ==== Sys2Proof/Machine/GtGroup.lean ====
section
/-! DEFINITION. The target-group commands (spec/43_gt_group.md R266 to R282). -/

namespace Sys2Proof.Machine

/-- GADD (R266). -/
def execGadd (d a b : RegField) (s : State) : Host.Outcome State Fault Refusal :=
  runCommand (fun s => do
    let d ← gIndex d
    let a ← gIndex a
    let b ← gIndex b
    let x ← s.gt a
    let y ← s.gt b
    return s.setG d (s.tower.mul12 x y)) s

/-- GSUB (R267): a + (−b), with negation by conjugation. -/
def execGsub (d a b : RegField) (s : State) : Host.Outcome State Fault Refusal :=
  runCommand (fun s => do
    let d ← gIndex d
    let a ← gIndex a
    let b ← gIndex b
    let x ← s.gt a
    let y ← s.gt b
    return s.setG d (s.tower.mul12 x (s.tower.conj12 y))) s

/-- GNEG (R268). -/
def execGneg (d a : RegField) (s : State) : Host.Outcome State Fault Refusal :=
  runCommand (fun s => do
    let d ← gIndex d
    let a ← gIndex a
    let x ← s.gt a
    return s.setG d (s.tower.conj12 x)) s

/-- GDBL (R269). -/
def execGdbl (d a : RegField) (s : State) : Host.Outcome State Fault Refusal :=
  runCommand (fun s => do
    let d ← gIndex d
    let a ← gIndex a
    let x ← s.gt a
    return s.setG d (s.tower.sqr12 x)) s

/-- The double-and-add loop of R270, over bits `n-1` down to 0 of the scalar `x`. -/
def gsmulLoop (tw : Tower) (g : Fp12) (x : Nat) : Nat → Fp12 → Fp12
  | 0, acc => acc
  | n + 1, acc =>
    let dbl := tw.sqr12 acc
    gsmulLoop tw g x n (if x.testBit n then tw.mul12 dbl g else dbl)

/-- Scalar multiplication: bit 255 skipped, from ONE12 (R270). -/
def gsmul (tw : Tower) (g : Fp12) (x : Nat) : Fp12 := gsmulLoop tw g x 255 Fp12.one

/-- GSMUL (R270): the scalar is the canonical value of `S[b]`. -/
def execGsmul (d a b : RegField) (s : State) : Host.Outcome State Fault Refusal :=
  runCommand (fun s => do
    let d ← gIndex d
    let a ← gIndex a
    let g ← s.gt a
    let x ← s.scalar (sIndex b)
    return s.setG d (gsmul s.tower g x)) s

/-- GINV (R272): none where the tower's inverse is absent. -/
def execGinv (d a : RegField) (s : State) : Host.Outcome State Fault Refusal :=
  runCommand (fun s => do
    let d ← gIndex d
    let a ← gIndex a
    let x ← s.gt a
    match s.tower.inv12 x with
    | none => throw (.none .nonInvertible)
    | some y => return s.setG d y) s

/-- GONE (R273). -/
def execGone (d : RegField) (s : State) : Host.Outcome State Fault Refusal :=
  runCommand (fun s => do
    let d ← gIndex d
    return s.setG d Fp12.one) s

/-- GGEN (R274). -/
def execGgen (d : RegField) (s : State) : Host.Outcome State Fault Refusal :=
  runCommand (fun s => do
    let d ← gIndex d
    return s.setG d s.platform.gtGen) s

/-- One round of GRAND (R279): 12 draws; ZERO12 is rejected and the command stays pending for another round, anything
else is projected into the subgroup and the command completes (entry 3). -/
def grandRound (s : State) (d : Fin 8) : State :=
  if s.drawFp12 = Fp12.zero then s.drawn
  else (s.drawn.setG d (s.tower.fexp s.drawFp12)).complete none

/-- GRAND (R279, R280). -/
def execGrand (d : RegField) (s : State) : Host.Outcome State Fault Refusal :=
  if s.status.halted then .next (s.complete (some (.error .haltedReject)))
  else
    match gIndex d with
    | .error e => .next (s.complete (some e))
    | .ok d => .next (grandRound s d)

/-- GISID (R275): componentwise equality with ONE12. -/
def execGisid (a : RegField) (s : State) : Host.Outcome State Fault Refusal :=
  runCommand (fun s => do
    let a ← gIndex a
    let x ← s.gt a
    return s.setResult (if x = Fp12.one then 1 else 0)) s

/-- GEQ (R276): componentwise equality. -/
def execGeq (a b : RegField) (s : State) : Host.Outcome State Fault Refusal :=
  runCommand (fun s => do
    let a ← gIndex a
    let b ← gIndex b
    let x ← s.gt a
    let y ← s.gt b
    return s.setResult (if x = y then 1 else 0)) s

/-- GSUBG (R282). -/
def execGsubg (a : RegField) (s : State) : Host.Outcome State Fault Refusal :=
  runCommand (fun s => do
    let a ← gIndex a
    let x ← s.gt a
    return s.setResult (if s.tower.subg x then 1 else 0)) s

/-- GMOV (R277). -/
def execGmov (d a : RegField) (s : State) : Host.Outcome State Fault Refusal :=
  runCommand (fun s => do
    let d ← gIndex d
    let a ← gIndex a
    let x ← s.gt a
    return s.setG d x) s

end Sys2Proof.Machine
end

