-- ==== Sys2Proof/Machine/ScalarArith.lean ====
section
/-! DEFINITION. The scalar arithmetic commands (spec/40_scalar_arith.md R168 to R180). -/

namespace Sys2Proof.Machine

/-- SADD (R168). -/
def execSadd (d a b : RegField) (s : State) : Host.Outcome State Fault Refusal :=
  runCommand (fun s => do
    let x ← s.scalar (sIndex a)
    let y ← s.scalar (sIndex b)
    return s.writeScalar (sIndex d) ((x + y) % s.q)) s

/-- SSUB (R169). -/
def execSsub (d a b : RegField) (s : State) : Host.Outcome State Fault Refusal :=
  runCommand (fun s => do
    let x ← s.scalar (sIndex a)
    let y ← s.scalar (sIndex b)
    return s.writeScalar (sIndex d) (((x : Int) - (y : Int)) % (s.q : Int)).toNat) s

/-- SMUL: the Montgomery product of the residues (R170). -/
def execSmul (d a b : RegField) (s : State) : Host.Outcome State Fault Refusal :=
  runCommand (fun s => do
    let m ← s.residue (sIndex a)
    let n ← s.residue (sIndex b)
    return s.setS (sIndex d) (montMul s.q m n)) s

/-- SNEG (R171). -/
def execSneg (d a : RegField) (s : State) : Host.Outcome State Fault Refusal :=
  runCommand (fun s => do
    let x ← s.scalar (sIndex a)
    return s.writeScalar (sIndex d) ((s.q - x) % s.q)) s

/-- SDBL (R172). -/
def execSdbl (d a : RegField) (s : State) : Host.Outcome State Fault Refusal :=
  runCommand (fun s => do
    let x ← s.scalar (sIndex a)
    return s.writeScalar (sIndex d) (2 * x % s.q)) s

/-- SSQR: the Montgomery product of the residue with itself (R173). -/
def execSsqr (d a : RegField) (s : State) : Host.Outcome State Fault Refusal :=
  runCommand (fun s => do
    let m ← s.residue (sIndex a)
    return s.setS (sIndex d) (montMul s.q m m)) s

/-- SINV (R174): zero has no inverse. -/
def execSinv (d a : RegField) (s : State) : Host.Outcome State Fault Refusal :=
  runCommand (fun s => do
    let x ← s.scalar (sIndex a)
    if x = 0 then throw (.none .nonInvertible)
    return s.writeScalar (sIndex d) (invMod s.q x)) s

/-- SDIV (R175): a zero divisor is the fatal error DIV_BY_ZERO. -/
def execSdiv (d a b : RegField) (s : State) : Host.Outcome State Fault Refusal :=
  runCommand (fun s => do
    let x ← s.scalar (sIndex a)
    let y ← s.scalar (sIndex b)
    if y = 0 then throw (.error .divByZero)
    return s.writeScalar (sIndex d) (x * invMod s.q y % s.q)) s

/-- SPOW (R176): the exponent is the canonical value of `S[b]`. -/
def execSpow (d a b : RegField) (s : State) : Host.Outcome State Fault Refusal :=
  runCommand (fun s => do
    let x ← s.scalar (sIndex a)
    let e ← s.scalar (sIndex b)
    return s.writeScalar (sIndex d) (powMod s.q x e)) s

/-- SSQRT (R178): 0 has the root 0; a non-residue has none; otherwise a draw picks one of the two roots. -/
def execSsqrt (d a : RegField) (s : State) : Host.Outcome State Fault Refusal :=
  runCommand (fun s => do
    let x ← s.scalar (sIndex a)
    if x = 0 then return s.writeScalar (sIndex d) 0
    else if eulerPower s.q x ≠ 1 then throw (.none .nonResidue)
    else
      let r := smallerRoot s.q x
      return s.drawn.writeScalar (sIndex d) (if s.drawSqrtPick then s.q - r else r)) s

/-- SLEG (R177): the Legendre symbol into RESULT. -/
def execSleg (a : RegField) (s : State) : Host.Outcome State Fault Refusal :=
  runCommand (fun s => do
    let x ← s.scalar (sIndex a)
    return s.setResult (legendreWord s.q x)) s

/-- SSHL (R179): the residue times `2^n`, modulo Q. -/
def execSshl (d a : RegField) (imm : BitVec 12) (s : State) : Host.Outcome State Fault Refusal :=
  runCommand (fun s => do
    let m ← s.residue (sIndex a)
    return s.setS (sIndex d) (m * 2 ^ imm.toNat % s.q)) s

/-- SSHR (R180): modular halving of the residue, `n` times. -/
def execSshr (d a : RegField) (imm : BitVec 12) (s : State) : Host.Outcome State Fault Refusal :=
  runCommand (fun s => do
    let m ← s.residue (sIndex a)
    return s.setS (sIndex d) (halveTimes s.q imm.toNat m)) s

end Sys2Proof.Machine
end

