-- ==== Sys2Proof/Machine/ScalarCmpMove.lean ====
section
/-! DEFINITION. Scalar comparison, selection, constants and moves (spec/41_scalar_cmp_move.md R200 to R212). -/

namespace Sys2Proof.Machine

/-- NOP (R210): nothing but the completion. -/
def execNop (s : State) : Host.Outcome State Fault Refusal :=
  runCommand (fun s => return s) s

/-- SEQ (R200): equality of the residues. -/
def execSeq (a b : RegField) (s : State) : Host.Outcome State Fault Refusal :=
  runCommand (fun s => do
    let m ← s.residue (sIndex a)
    let n ← s.residue (sIndex b)
    return s.setResult (if m = n then 1 else 0)) s

/-- SCMP (R201): byte-wise comparison of the big-endian canonical encodings. -/
def execScmp (a b : RegField) (s : State) : Host.Outcome State Fault Refusal :=
  runCommand (fun s => do
    let x ← s.scalar (sIndex a)
    let y ← s.scalar (sIndex b)
    return s.setResult (compareBytes (beBytes 32 x) (beBytes 32 y))) s

/-- SISZ (R202). -/
def execSisz (a : RegField) (s : State) : Host.Outcome State Fault Refusal :=
  runCommand (fun s => do
    let x ← s.scalar (sIndex a)
    return s.setResult (if x = 0 then 1 else 0)) s

/-- SSEL (R203): bit 0 of RESULT selects; both sources are read whatever it is. -/
def execSsel (d a b : RegField) (s : State) : Host.Outcome State Fault Refusal :=
  runCommand (fun s => do
    let m ← s.residue (sIndex a)
    let n ← s.residue (sIndex b)
    return s.setS (sIndex d) (if s.result.getLsbD 0 then n else m)) s

/-- SMOV (R204). -/
def execSmov (d a : RegField) (s : State) : Host.Outcome State Fault Refusal :=
  runCommand (fun s => do
    let m ← s.residue (sIndex a)
    return s.setS (sIndex d) m) s

/-- SZERO (R205). -/
def execSzero (d : RegField) (s : State) : Host.Outcome State Fault Refusal :=
  runCommand (fun s => return s.writeScalar (sIndex d) 0) s

/-- SONE (R206). -/
def execSone (d : RegField) (s : State) : Host.Outcome State Fault Refusal :=
  runCommand (fun s => return s.writeScalar (sIndex d) 1) s

/-- SIMM (R207): the zero-extended 16-bit immediate. -/
def execSimm (d : RegField) (imm : BitVec 16) (s : State) : Host.Outcome State Fault Refusal :=
  runCommand (fun s => return s.writeScalar (sIndex d) imm.toNat) s

/-- SNBITS (R208): the bit length, from the big-endian canonical bytes. -/
def execSnbits (a : RegField) (s : State) : Host.Outcome State Fault Refusal :=
  runCommand (fun s => do
    let x ← s.scalar (sIndex a)
    return s.setResult (BitVec.ofNat 32 (bitLengthBytes (beBytes 32 x)))) s

/-- SRAND (R212): 64 drawn bytes, reduced modulo Q. -/
def execSrand (d : RegField) (s : State) : Host.Outcome State Fault Refusal :=
  runCommand (fun s => return s.drawn.writeScalar (sIndex d) (leNat s.drawBytes % s.q)) s

end Sys2Proof.Machine
end

