-- ==== Sys2Proof/Machine/ScalarCodec.lean ====
section
/-! DEFINITION. Scalar encode and decode through DBUF (spec/42_scalar_codec.md R230 to R244). -/

namespace Sys2Proof.Machine

/-- SLDLE (R230): a canonical little-endian scalar. -/
def execSldle (r : RegField) (off : BitVec 6) (len : BitVec 12) (s : State) : Host.Outcome State Fault Refusal :=
  runCommand (fun s => do
    let o ← bufferRange off len 32
    let x := leNat (Memory.readBytes s.dbuf o 32)
    if s.q ≤ x then throw (.none .notCanonical)
    return s.writeScalar (sIndex r) x) s

/-- SLDBE (R231): a canonical big-endian scalar. -/
def execSldbe (r : RegField) (off : BitVec 6) (len : BitVec 12) (s : State) : Host.Outcome State Fault Refusal :=
  runCommand (fun s => do
    let o ← bufferRange off len 32
    let x := beNat (Memory.readBytes s.dbuf o 32)
    if s.q ≤ x then throw (.none .notCanonical)
    return s.writeScalar (sIndex r) x) s

/-- SSTLE (R232): the little-endian canonical encoding. -/
def execSstle (r : RegField) (off : BitVec 6) (len : BitVec 12) (s : State) : Host.Outcome State Fault Refusal :=
  runCommand (fun s => do
    let x ← s.scalar (sIndex r)
    let o ← bufferRange off len 32
    return s.store o (leBytes 32 x)) s

/-- SSTBE (R233): the big-endian canonical encoding. -/
def execSstbe (r : RegField) (off : BitVec 6) (len : BitVec 12) (s : State) : Host.Outcome State Fault Refusal :=
  runCommand (fun s => do
    let x ← s.scalar (sIndex r)
    let o ← bufferRange off len 32
    return s.store o (beBytes 32 x)) s

/-- SLDRAW (R240): four little-endian limbs, reduced modulo Q by `MontMul(x, R2)`. -/
def execSldraw (r : RegField) (off : BitVec 6) (len : BitVec 12) (s : State) : Host.Outcome State Fault Refusal :=
  runCommand (fun s => do
    let o ← bufferRange off len 32
    return s.setS (sIndex r) (convertIn s.q (leNat (Memory.readBytes s.dbuf o 32)))) s

/-- SLDWIDE (R242): 64 little-endian bytes, reduced modulo Q. -/
def execSldwide (r : RegField) (off : BitVec 6) (len : BitVec 12) (s : State) : Host.Outcome State Fault Refusal :=
  runCommand (fun s => do
    let o ← bufferRange off len 64
    return s.writeScalar (sIndex r) (leNat (Memory.readBytes s.dbuf o 64) % s.q)) s

/-- SLDOKM (R244): 48 big-endian bytes, reduced modulo Q. -/
def execSldokm (r : RegField) (off : BitVec 6) (len : BitVec 12) (s : State) : Host.Outcome State Fault Refusal :=
  runCommand (fun s => do
    let o ← bufferRange off len 48
    return s.writeScalar (sIndex r) (beNat (Memory.readBytes s.dbuf o 48) % s.q)) s

end Sys2Proof.Machine
end

