-- ==== Sys2Proof/Machine/Dispatch.lean ====
section
/-! DEFINITION. The one dispatch of commands to their meanings, one arm per constructor (spec/30_encoding.md R128). -/

namespace Sys2Proof.Machine

def exec (i : Instr) (s : State) : Host.Outcome State Fault Refusal :=
  match i with
  | .nop => Sys2Proof.Machine.execNop s
  | .sadd d a b => Sys2Proof.Machine.execSadd d a b s
  | .ssub d a b => Sys2Proof.Machine.execSsub d a b s
  | .smul d a b => Sys2Proof.Machine.execSmul d a b s
  | .sneg d a => Sys2Proof.Machine.execSneg d a s
  | .sdbl d a => Sys2Proof.Machine.execSdbl d a s
  | .ssqr d a => Sys2Proof.Machine.execSsqr d a s
  | .sinv d a => Sys2Proof.Machine.execSinv d a s
  | .sdiv d a b => Sys2Proof.Machine.execSdiv d a b s
  | .spow d a b => Sys2Proof.Machine.execSpow d a b s
  | .ssqrt d a => Sys2Proof.Machine.execSsqrt d a s
  | .sleg a => Sys2Proof.Machine.execSleg a s
  | .sshl d a imm => Sys2Proof.Machine.execSshl d a imm s
  | .sshr d a imm => Sys2Proof.Machine.execSshr d a imm s
  | .seq a b => Sys2Proof.Machine.execSeq a b s
  | .scmp a b => Sys2Proof.Machine.execScmp a b s
  | .sisz a => Sys2Proof.Machine.execSisz a s
  | .ssel d a b => Sys2Proof.Machine.execSsel d a b s
  | .smov d a => Sys2Proof.Machine.execSmov d a s
  | .szero d => Sys2Proof.Machine.execSzero d s
  | .sone d => Sys2Proof.Machine.execSone d s
  | .simm d imm => Sys2Proof.Machine.execSimm d imm s
  | .snbits a => Sys2Proof.Machine.execSnbits a s
  | .srand d => Sys2Proof.Machine.execSrand d s
  | .sldle r off len => Sys2Proof.Machine.execSldle r off len s
  | .sldbe r off len => Sys2Proof.Machine.execSldbe r off len s
  | .sstle r off len => Sys2Proof.Machine.execSstle r off len s
  | .sstbe r off len => Sys2Proof.Machine.execSstbe r off len s
  | .sldraw r off len => Sys2Proof.Machine.execSldraw r off len s
  | .sldwide r off len => Sys2Proof.Machine.execSldwide r off len s
  | .sldokm r off len => Sys2Proof.Machine.execSldokm r off len s
  | .gadd d a b => Sys2Proof.Machine.execGadd d a b s
  | .gsub d a b => Sys2Proof.Machine.execGsub d a b s
  | .gneg d a => Sys2Proof.Machine.execGneg d a s
  | .gdbl d a => Sys2Proof.Machine.execGdbl d a s
  | .gsmul d a b => Sys2Proof.Machine.execGsmul d a b s
  | .ginv d a => Sys2Proof.Machine.execGinv d a s
  | .gone d => Sys2Proof.Machine.execGone d s
  | .ggen d => Sys2Proof.Machine.execGgen d s
  | .grand d => Sys2Proof.Machine.execGrand d s
  | .gisid a => Sys2Proof.Machine.execGisid a s
  | .geq a b => Sys2Proof.Machine.execGeq a b s
  | .gsubg a => Sys2Proof.Machine.execGsubg a s
  | .gmov d a => Sys2Proof.Machine.execGmov d a s
  | .gld r off len => Sys2Proof.Machine.execGld r off len s
  | .gldu r off len => Sys2Proof.Machine.execGldu r off len s
  | .gst r off len => Sys2Proof.Machine.execGst r off len s
  | .gcmpr d a => Sys2Proof.Machine.execGcmpr d a s
  | .guncmpr d a => Sys2Proof.Machine.execGuncmpr d a s
  | .tld r off len => Sys2Proof.Machine.execTld r off len s
  | .tst r off len => Sys2Proof.Machine.execTst r off len s

end Sys2Proof.Machine
end

