-- ==== Sys2Proof/Machine/Engine.lean ====
section
/-! DEFINITION. The command engine: completion of the word that PEND holds (spec/20_memory.md R95, spec/30_encoding.md
R130). -/

namespace Sys2Proof.Machine

/-- The error of a word that is no command (60_exceptions.md R334, checks 2 and 3). -/
def DecodeError.code : DecodeError → ErrorCode
  | .illegalOpcode => .illegalOpcode
  | .reservedField => .reservedField

/-- Completion of the word `w`: a word that is no command completes with its error, unless the block is halted, which is
checked first (60_exceptions.md R334, R344); a command runs. -/
def runWord (w : Word) (s : State) : Host.Outcome State Fault Refusal :=
  match decodeWord w with
  | .ok i => exec i s
  | .error e => runCommand (fun _ => .error (.error (DecodeError.code e))) s

/-- The engine's turn: it completes the pending command, if there is one (20_memory.md R95); an idle block stays as it is
(60_exceptions.md R357). -/
def engineTurn (s : State) : Host.Outcome State Fault Refusal :=
  match s.pend with
  | none => .next s
  | some w => runWord w s

end Sys2Proof.Machine
end

