-- ==== Sys2Proof/Machine/HostBus.lean ====
section
/-! DEFINITION. The host bus (spec/20_memory.md R80 to R101), the soft reset of CTRL and the reset pin
(spec/70_reset_and_hazards.md R370, R371). -/

namespace Sys2Proof.Machine

/-- The bytes of a width (10_state.md R59). -/
def Width.bytes : Width → Nat
  | .byte => 1
  | .half => 2
  | .word => 4

/-- The size of the window (20_memory.md R83). -/
def windowSize : Nat := 0x800

/-- BASE, a multiple of 0x800 (20_memory.md R83). -/
def baseOf (c : Platform) : Nat := c.window * windowSize

/-- The platform selects the block for bus addresses BASE to BASE + 0x7FF (20_memory.md R83). -/
def selected (c : Platform) (addr : Nat) : Bool := decide (baseOf c ≤ addr) && decide (addr < baseOf c + windowSize)

/-- What a selected access reaches (20_memory.md R85). -/
inductive Target
  | id
  | ctrl
  | status
  | result
  | cmd
  | dbuf (off : Nat)
  /-- An access that gets the ERROR response: misaligned, of the wrong width, or at a reserved offset (R88, R89). -/
  | error
deriving DecidableEq, Repr

/-- The target of an access to a window offset: registers take 4 bytes at a multiple of 4, 0x014 to 0x3FF is reserved,
DBUF takes 1, 2 or 4 bytes naturally aligned (20_memory.md R85, R88, R89). -/
def targetAt (offset : Nat) (width : Width) : Target :=
  if offset < 0x014 then
    if width = .word then
      if offset = 0x000 then .id
      else if offset = 0x004 then .ctrl
      else if offset = 0x008 then .status
      else if offset = 0x00C then .result
      else if offset = 0x010 then .cmd
      else .error
    else .error
  else if offset < 0x400 then .error
  else if offset % width.bytes = 0 then .dbuf (offset - 0x400)
  else .error

/-- The bus address of an access. -/
def Access.addr : Access → Nat
  | .read addr _ => addr
  | .write addr _ _ => addr

/-- The width of an access. -/
def Access.width : Access → Width
  | .read _ width => width
  | .write _ width _ => width

/-- The target of an access: the block decodes offset bits 10:0 (20_memory.md R83). -/
def Access.target (a : Access) : Target := targetAt (a.addr % windowSize) a.width

/-- An access that a pending command does not hold: a read of STATUS or of ID (20_memory.md R93, entry 7). -/
def Access.neverHeld : Access → Bool
  | .read addr width =>
    match targetAt (addr % windowSize) width with
    | .id => true
    | .status => true
    | .ctrl => false
    | .result => false
    | .cmd => false
    | .dbuf _ => false
    | .error => false
  | .write _ _ _ => false

/-- The block is addressed and able to answer: it is selected and not in reset (20_memory.md R83; 70_reset_and_hazards.md
R370; entry 8). -/
def State.addressed (s : State) (a : Access) : Bool := s.rstN && selected s.platform a.addr

/-- An access that the pending command holds: it reaches the block, and is no read of STATUS or ID (20_memory.md R93). -/
def State.mustWait (s : State) (a : Access) : Bool := s.addressed a && s.busy && !a.neverHeld

/-- An access that is held when it is presented: by the pending command, or by an access that waits already (20_memory.md
R93, entry 19). -/
def State.holds (s : State) (a : Access) : Bool := !s.held.isEmpty || s.mustWait a

/-- The access is answered. -/
def State.respond (s : State) (r : BusResponse) : State := { s with lastResp := some r }

/-- What a read returns; reads have no side effect, and one that gets the ERROR response returns 0 (20_memory.md R86, R88
to R90, R92). -/
def State.readTarget (s : State) (width : Width) : Target → BusResponse
  | .id => ⟨.okay, some idWord⟩
  | .ctrl => ⟨.okay, some s.ctrlWord⟩
  | .status => ⟨.okay, some s.statusWord⟩
  | .result => ⟨.okay, some s.result⟩
  | .cmd => ⟨.okay, some 0⟩
  | .dbuf off => ⟨.okay, some (BitVec.ofNat 32 (leNat (Memory.readBytes s.dbuf off width.bytes)))⟩
  | .error => ⟨.error, some 0⟩

/-- A host write to CTRL: IE from data bit 0, then, where data bit 1 is 1, the soft reset, which clears IE (10_state.md
R48, 70_reset_and_hazards.md R371). -/
def State.writeCtrl (s : State) (data : Word) : State :=
  let t := { s with ie := data.getLsbD 0 }
  if data.getLsbD 1 then t.cleared else t

/-- What a write does, before it is answered (20_memory.md R86, R90). -/
def State.writeTarget (s : State) (width : Width) (data : Word) : Target → State
  | .id => s
  | .ctrl => s.writeCtrl data
  | .status => { s with status := s.status.writeOneToClear data }
  | .result => s
  | .cmd => { s with pend := some data }
  | .dbuf off => s.store off (leBytes width.bytes data.toNat)
  | .error => s

/-- The response to a write (20_memory.md R88 to R90). -/
def writeResponse : Target → BusResponse
  | .error => ⟨.error, none⟩
  | .id => ⟨.okay, none⟩
  | .ctrl => ⟨.okay, none⟩
  | .status => ⟨.okay, none⟩
  | .result => ⟨.okay, none⟩
  | .cmd => ⟨.okay, none⟩
  | .dbuf _ => ⟨.okay, none⟩

/-- An access that is not held is performed (20_memory.md R90); one that does not reach the block, or comes while rst_n
is 0, gets no response and has no effect (entry 8). -/
def State.perform (s : State) (a : Access) : State :=
  if s.addressed a then
    match a with
    | .read _ width => s.respond (s.readTarget width a.target)
    | .write _ width data => (s.writeTarget width data a.target).respond (writeResponse a.target)
  else { s with lastResp := none }

/-- The pin rst_n takes a level. Asserted (0), it discards whatever is pending or held and leaves the block in the state of
10_state.md R60; released, it finds the block there; 1 where it is 1 already is no event (70_reset_and_hazards.md R370,
entries 8 and 15). -/
def State.setRstN (s : State) (level : Bool) : State :=
  if level && s.rstN then s else { s.cleared with held := [], rstN := level }

/-! ### Whose turn it is -/

/-- What the next step is (20_memory.md R90, R93, R95; 70_reset_and_hazards.md R370). -/
inductive Turn
  /-- The command engine has the turn. -/
  | engine
  /-- The access is presented and must wait. -/
  | hold (a : Access)
  /-- The access is performed. -/
  | perform (a : Access)
  /-- The pin rst_n takes a level. -/
  | pin (level : Bool)
deriving DecidableEq, Repr

/-- The oldest held access and those behind it, where no command holds it any longer: none is pending, or it is a read of
STATUS or ID that only waited behind an access since performed (20_memory.md R93). -/
def State.released (s : State) : Option (Access × List Access) :=
  match s.held with
  | [] => none
  | a :: rest => if s.mustWait a then none else some (a, rest)

/-- The next turn, and the state in which it is taken. A level of rst_n waits for nothing (60_exceptions.md R349,
70_reset_and_hazards.md R370); then a held access that has been released is performed; then the next input is taken, and
where none is left the engine has the turn (20_memory.md R93, R95; entries 4 and 21). -/
def State.turn (s : State) : Turn × State :=
  match s.inputs, s.released with
  | .rstN level :: rest, _ => (.pin level, { s with inputs := rest })
  | [], some (a, waiting) => (.perform a, { s with held := waiting })
  | .idle :: _, some (a, waiting) => (.perform a, { s with held := waiting })
  | .access _ :: _, some (a, waiting) => (.perform a, { s with held := waiting })
  | [], none => (.engine, s)
  | .idle :: rest, none => (.engine, { s with inputs := rest })
  | .access a :: rest, none => (if s.holds a then .hold a else .perform a, { s with inputs := rest })

end Sys2Proof.Machine
end

