-- ==== Sys2Proof/Machine/Step.lean ====
section
/-! DEFINITION. One step of the block: an input is taken, a held access is performed, or the command engine has the turn
(spec/20_memory.md R90, R93, R95, R96; log entries 4, 5, 6, 21). -/

namespace Sys2Proof.Machine

/-- One step: `State.turn` says which. -/
def step (s : State) : Host.Outcome State Fault Refusal :=
  match s.turn with
  | (.engine, t) => engineTurn t
  | (.hold a, t) => .next { t with held := t.held ++ [a] }
  | (.perform a, t) => .next (t.perform a)
  | (.pin level, t) => .next (t.setRstN level)

/-- The state in which the very next step runs the command word whose bits are `w` (those above `nbits` zero): the word
is in PEND, as after its acceptance (20_memory.md R95), and where accesses wait or inputs are to come the engine has the
turn before them all (log entry 5). -/
def State.withFetchWord (s : State) (nbits w : Nat) : State :=
  { s with
    pend := some (BitVec.ofNat 32 (w % 2 ^ nbits))
    held := []
    inputs := match s.held.map .access ++ s.inputs with
      | [] => []
      | i :: rest => .idle :: i :: rest }

end Sys2Proof.Machine
end

