-- ==== Sys2Proof/Machine/Assembler.lean ====
section
/-! DEFINITION. The assembler (spec/30_encoding.md R131, R132): its words and refusals on a mnemonic and a list of operands,
and how it reads a line of text (log entry 25). The block itself never sees an assembler. -/

namespace Sys2Proof.Machine

/-- An operand as written: a register of one of the three files, a number, or `[byteoffset]` (30_encoding.md R131). -/
inductive AsmOperand
  | s (i : Nat)
  | g (i : Nat)
  | t (i : Nat)
  | num (n : Nat)
  | mem (byteOffset : Nat)
deriving DecidableEq, Repr

/-- The fixed length LREQ of an M-format opcode (30_encoding.md R124). -/
def requiredLength (op : BitVec 8) : Nat :=
  if op = 0x36 then 48
  else if op = 0x35 then 64
  else if op = 0x50 ∨ op = 0x51 ∨ op = 0x52 then 576
  else if op = 0x55 ∨ op = 0x56 then 288
  else 32

/-- A pseudo-instruction's mnemonic is that of the command it expands to (30_encoding.md R132). -/
def expandMnemonic (m : String) : String :=
  if m = "GCONJ" then "GNEG" else if m = "SCOPY" then "SMOV" else if m = "SCLR" then "SZERO" else m

/-- The field for a register operand of a class: an unused field takes none and is 0; a register of the wrong file or an
index out of range is refused (30_encoding.md R131). -/
def takeReg : FieldClass → List AsmOperand → Option (RegField × List AsmOperand)
  | .unused, ops => some (0, ops)
  | .s, .s i :: rest => if i < 16 then some (BitVec.ofNat 4 i, rest) else none
  | .g, .g i :: rest => if i < 8 then some (BitVec.ofNat 4 i, rest) else none
  | .t, .t i :: rest => if i < 4 then some (BitVec.ofNat 4 i, rest) else none
  | .s, _ => none
  | .g, _ => none
  | .t, _ => none

/-- The last operand of format I12 or I16: one number that fits its field (30_encoding.md R131). -/
def takeNum (bits : Nat) : List AsmOperand → Option (BitVec bits)
  | [.num n] => if n < 2 ^ bits then some (BitVec.ofNat bits n) else none
  | _ => none

/-- The last operands of format M: `[byteoffset]`, a multiple of 16 up to 1008, and the length, which may be left out
(30_encoding.md R131, R132). -/
def takeBuffer (op : BitVec 8) : List AsmOperand → Option (BitVec 6 × BitVec 12)
  | [.mem o] => if o % 16 = 0 ∧ o ≤ 1008 then some (BitVec.ofNat 6 (o / 16), BitVec.ofNat 12 (requiredLength op)) else none
  | [.mem o, .num n] =>
    if o % 16 = 0 ∧ o ≤ 1008 ∧ n < 4096 then some (BitVec.ofNat 6 (o / 16), BitVec.ofNat 12 n) else none
  | _ => none

/-- The word of a row's command with the written operands, in the order D, A, B (30_encoding.md R131). -/
def assembleRow (row : OpRow) (ops : List AsmOperand) : Option Word := do
  let (d, ops) ← takeReg row.d ops
  let (a, ops) ← takeReg row.a ops
  let (b, ops) ← takeReg row.b ops
  match row.format with
  | .n => if ops = [] then some (wordR row.op 0 0 0) else none
  | .r => if ops = [] then some (wordR row.op d a b) else none
  | .i12 => do let n ← takeNum 12 ops; some (wordI12 row.op d a n)
  | .i16 => do let n ← takeNum 16 ops; some (wordI16 row.op d n)
  | .m => do let (off, len) ← takeBuffer row.op ops; some (wordM row.op d off len)

/-- The word of an assembler line, or a refusal (30_encoding.md R131, R132). The mnemonic is upper or lower case; that a
mixed one is read too is a DESIGN CHOICE (log entry 25). -/
def assemble (mnemonic : String) (ops : List AsmOperand) : Option Word :=
  match opRows.find? fun row => row.mnemonic == expandMnemonic mnemonic.toUpper with
  | none => none
  | some row => assembleRow row ops

/-- The operand that a register field of a class stands for; an unused field stands for none (30_encoding.md R131). -/
def writtenReg : FieldClass → RegField → List AsmOperand
  | .unused, _ => []
  | .s, f => [.s f.toNat]
  | .g, f => [.g f.toNat]
  | .t, f => [.t f.toNat]

/-- The operands of a row's word as the assembler writes them: the used register fields in the order D, A, B, then the
number, or the byte offset and the length (30_encoding.md R131). -/
def writtenOperands (row : OpRow) (w : Word) : List AsmOperand :=
  writtenReg row.d (fieldsOf w).d ++ writtenReg row.a (fieldsOf w).a ++ writtenReg row.b (fieldsOf w).b ++
    match row.format with
    | .n => []
    | .r => []
    | .i12 => [.num (fieldsOf w).imm12.toNat]
    | .i16 => [.num (fieldsOf w).imm16.toNat]
    | .m => [.mem ((fieldsOf w).off.toNat * 16), .num (fieldsOf w).imm12.toNat]

/-! ### Reading a line -/

/-- The value of a digit, decimal or hexadecimal (30_encoding.md R131). DESIGN CHOICE (log entry 25): hexadecimal digits of
either case. -/
def digitValue (base : Nat) (c : Char) : Option Nat :=
  let v := if '0' ≤ c ∧ c ≤ '9' then c.toNat - 48
    else if 'a' ≤ c ∧ c ≤ 'f' then c.toNat - 87
    else if 'A' ≤ c ∧ c ≤ 'F' then c.toNat - 55
    else base
  if v < base then some v else none

/-- The number that digits write after a number already read. -/
def readDigits (base : Nat) : List Char → Nat → Option Nat
  | [], n => some n
  | c :: cs, n =>
    match digitValue base c with
    | none => none
    | some v => readDigits base cs (n * base + v)

/-- A number, decimal or `0x` hexadecimal (30_encoding.md R131). DESIGN CHOICE (log entry 25): the `x` is lower case, the
hexadecimal digits of either case, and leading zeros are allowed. -/
def readNumber : List Char → Option Nat
  | [] => none
  | ['0', 'x'] => none
  | '0' :: 'x' :: cs => readDigits 16 cs 0
  | c :: cs => readDigits 10 (c :: cs) 0

/-- The index of a register name (30_encoding.md R131). DESIGN CHOICE (log entry 25): leading zeros are refused. -/
def readIndex : List Char → Option Nat
  | [] => none
  | ['0'] => some 0
  | '0' :: _ => none
  | c :: cs => readDigits 10 (c :: cs) 0

/-- One operand as written (30_encoding.md R131). DESIGN CHOICE (log entry 25): register names are upper case only. R131 says
of mnemonics that lower case is accepted too, and does not say it of register names; `s0`, `g0` and `t0` are refused;
and no space may stand inside an operand, so none inside the brackets of `[byteoffset]`. -/
def readOperand : List Char → Option AsmOperand
  | 'S' :: cs => (readIndex cs).map .s
  | 'G' :: cs => (readIndex cs).map .g
  | 'T' :: cs => (readIndex cs).map .t
  | '[' :: cs => if cs.getLast? = some ']' then (readNumber cs.dropLast).map .mem else none
  | cs => (readNumber cs).map .num

/-- The characters without the spaces at either end. DESIGN CHOICE (log entry 25): the space character is the only white
space, so a tab is refused like any other character that R131 does not name. -/
def trimSpaces (cs : List Char) : List Char :=
  ((cs.dropWhile (· == ' ')).reverse.dropWhile (· == ' ')).reverse

/-- The parts of a text between commas. -/
def splitCommas : List Char → List (List Char)
  | [] => [[]]
  | c :: cs =>
    match splitCommas cs with
    | [] => [[c]]
    | part :: parts => if c = ',' then [] :: part :: parts else (c :: part) :: parts

/-- The word of a line of text: a mnemonic, then its operands with commas between them (30_encoding.md R131).
DESIGN CHOICE (log entry 25): one space or more follow the mnemonic, spaces may stand around the operands and at both ends
of the line, no other white space is read, and a line holds one command and nothing else (no label, no comment). -/
def assembleLine (line : List Char) : Option Word :=
  let text := trimSpaces line
  let rest := trimSpaces (text.dropWhile (· != ' '))
  let operands := if rest = [] then some [] else (splitCommas rest).mapM fun part => readOperand (trimSpaces part)
  operands.bind (assemble (String.ofList (text.takeWhile (· != ' '))))

end Sys2Proof.Machine
end

