-- ==== Sys2Proof/Safety.lean ====
section
/-! DEFINITION. The terms that claims are stated in: usable parameters (spec/00_scope.md R8, spec/43_gt_group.md R261,
R263), the invariant of the block (spec/10_state.md R41, R44, R45), what a command reads, and what a completed command
may have changed (spec/60_exceptions.md R330, R333, R341). -/

namespace Sys2Proof

/-! ### Parameters -/

/-- The constraints on Q (00_scope.md R8); odd follows. -/
structure ScalarModulusOk (q : Nat) : Prop where
  prime : q.Prime
  low : 2 ^ 254 < q
  high : q < 2 ^ 255

/-- The constraints on P: a prime whose elements fit 48 bytes (00_scope.md R10). -/
structure BaseModulusOk (p : Nat) : Prop where
  prime : p.Prime
  fits : p < 2 ^ 384

/-- Every component is in [0, P) (43_gt_group.md R261). -/
def Fp6.inRange (p : Nat) (t : Fp6) : Bool := t.comps.all fun c => decide (c.toNat < p)

/-- Every component is in [0, P) (43_gt_group.md R261). -/
def Fp12.inRange (p : Nat) (a : Fp12) : Bool := a.lo.inRange p && a.hi.inRange p

/-- The results of the tower port have components in [0, P) whenever its arguments do (43_gt_group.md R261). -/
structure Tower.Closed (p : Nat) (tw : Tower) : Prop where
  mul12 : ∀ a b, a.inRange p → b.inRange p → (tw.mul12 a b).inRange p
  sqr12 : ∀ a, a.inRange p → (tw.sqr12 a).inRange p
  inv12 : ∀ a b, a.inRange p → tw.inv12 a = some b → b.inRange p
  conj12 : ∀ a, a.inRange p → (tw.conj12 a).inRange p
  fexp : ∀ a, a.inRange p → (tw.fexp a).inRange p
  mul6 : ∀ s t, s.inRange p → t.inRange p → (tw.mul6 s t).inRange p
  inv6 : ∀ s t, s.inRange p → tw.inv6 s = some t → t.inRange p

/-- `a^n`: the n-fold product by TW_MUL12, with `a^0 = ONE12` (43_gt_group.md R263). -/
def Tower.pow (tw : Tower) (a : Fp12) : Nat → Fp12
  | 0 => Fp12.one
  | n + 1 => tw.mul12 (tw.pow a n) a

/-- The laws L1 to L7 and L9 of 43_gt_group.md R263, on values in range. `Tower.AllLaws` adds L8. -/
structure Tower.Lawful (q p : Nat) (tw : Tower) : Prop extends Tower.Closed p tw where
  /-- L1: associative. -/
  mulAssoc : ∀ a b c, a.inRange p → b.inRange p → c.inRange p →
    tw.mul12 (tw.mul12 a b) c = tw.mul12 a (tw.mul12 b c)
  /-- L1: commutative. -/
  mulComm : ∀ a b, a.inRange p → b.inRange p → tw.mul12 a b = tw.mul12 b a
  /-- L1: identity. -/
  mulOne : ∀ a, a.inRange p → tw.mul12 a Fp12.one = a
  /-- L1: ZERO12 is absorbing. -/
  mulZero : ∀ a, a.inRange p → tw.mul12 a Fp12.zero = Fp12.zero
  /-- L1: no zero divisors. -/
  noZeroDivisors : ∀ a b, a.inRange p → b.inRange p → tw.mul12 a b = Fp12.zero → a = Fp12.zero ∨ b = Fp12.zero
  /-- L2. -/
  sqr : ∀ a, a.inRange p → tw.sqr12 a = tw.mul12 a a
  /-- L3. -/
  invZero : tw.inv12 Fp12.zero = none
  /-- L3. -/
  invMul : ∀ a, a.inRange p → a ≠ Fp12.zero → ∃ b, tw.inv12 a = some b ∧ tw.mul12 a b = Fp12.one
  /-- L4: an involution. -/
  conjConj : ∀ a, a.inRange p → tw.conj12 (tw.conj12 a) = a
  /-- L4: multiplicative. -/
  conjMul : ∀ a b, a.inRange p → b.inRange p → tw.conj12 (tw.mul12 a b) = tw.mul12 (tw.conj12 a) (tw.conj12 b)
  /-- L4: ONE12 is fixed. -/
  conjOne : tw.conj12 Fp12.one = Fp12.one
  /-- L4: members are unitary. -/
  unitary : ∀ a, a.inRange p → tw.subg a = true → tw.mul12 a (tw.conj12 a) = Fp12.one
  /-- L5. -/
  subgIff : ∀ a, a.inRange p → (tw.subg a = true ↔ a ≠ Fp12.zero ∧ tw.pow a q = Fp12.one)
  /-- L6. -/
  fexpSubg : ∀ a, a.inRange p → a ≠ Fp12.zero → tw.subg (tw.fexp a) = true
  /-- L6. -/
  fexpMul : ∀ a b, a.inRange p → b.inRange p → tw.fexp (tw.mul12 a b) = tw.mul12 (tw.fexp a) (tw.fexp b)
  /-- L6. -/
  fexpOne : tw.fexp Fp12.one = Fp12.one
  /-- L7. -/
  mul6Assoc : ∀ r s t, r.inRange p → s.inRange p → t.inRange p → tw.mul6 (tw.mul6 r s) t = tw.mul6 r (tw.mul6 s t)
  /-- L7. -/
  mul6Comm : ∀ s t, s.inRange p → t.inRange p → tw.mul6 s t = tw.mul6 t s
  /-- L7. -/
  mul6One : ∀ s, s.inRange p → tw.mul6 s Fp6.one = s
  /-- L7. -/
  inv6Zero : tw.inv6 Fp6.zero = none
  /-- L7. -/
  inv6Mul : ∀ s, s.inRange p → s ≠ Fp6.zero → ∃ t, tw.inv6 s = some t ∧ tw.mul6 s t = Fp6.one
  /-- L9: Fp6 is the lower half. -/
  embed : ∀ s t, s.inRange p → t.inRange p → tw.mul12 ⟨s, Fp6.zero⟩ ⟨t, Fp6.zero⟩ = ⟨tw.mul6 s t, Fp6.zero⟩
  /-- L9: conjugation negates the upper half, each component modulo P. -/
  conjJoin : ∀ c0 c1, c0.inRange p → c1.inRange p → tw.conj12 ⟨c0, c1⟩ = ⟨c0, Machine.fp6Neg p c1⟩

/-- All the laws of 43_gt_group.md R263. -/
structure Tower.AllLaws (q p : Nat) (tw : Tower) : Prop extends Tower.Lawful q p tw where
  /-- L8: compressing a member, where that gives a value, and uncompressing the value gives the member back. -/
  roundTrip : ∀ g t, g.inRange p → tw.subg g = true → Machine.compress tw p g = some t →
    Machine.uncompress tw p t = .ok g

/-- Parameters that the rules of the spec apply to (00_scope.md R8, R10; 43_gt_group.md R261, R274). -/
structure Platform.Usable (c : Platform) : Prop where
  scalar : ScalarModulusOk c.q
  base : BaseModulusOk c.p
  generator : c.gtGen.inRange c.p
  generatorMember : (Machine.towerOf c).subg c.gtGen = true
  generatorNotOne : c.gtGen ≠ Fp12.one
  closed : (Machine.towerOf c).Closed c.p

/-- A tower that counts: TW_SQR12 adds 1 to component 6 of its argument and TW_MUL12 adds 1 to component 7 of its first.
A loop run over it leaves the number of its calls there (70_reset_and_hazards.md R388). -/
def countingTower : Tower where
  mul12 a _ := { a with hi := { a.hi with c0 := { a.hi.c0 with c1 := a.hi.c0.c1 + 1 } } }
  sqr12 a := { a with hi := { a.hi with c0 := { a.hi.c0 with c0 := a.hi.c0.c0 + 1 } } }
  inv12 _ := none
  conj12 a := a
  subg _ := false
  fexp a := a
  mul6 s _ := s
  inv6 _ := none

/-! ### What a command reads -/

/-- A register field as a destination, in its class (30_encoding.md R125). -/
inductive Destination
  | s (f : RegField)
  | g (f : RegField)
  | t (f : RegField)
deriving DecidableEq, Repr

namespace Instr

/-- The S fields that a command reads (30_encoding.md R128, 60_exceptions.md R336). -/
def sSources : Instr → List RegField
  | .nop => []
  | .sadd _ a b => [a, b]
  | .ssub _ a b => [a, b]
  | .smul _ a b => [a, b]
  | .sneg _ a => [a]
  | .sdbl _ a => [a]
  | .ssqr _ a => [a]
  | .sinv _ a => [a]
  | .sdiv _ a b => [a, b]
  | .spow _ a b => [a, b]
  | .ssqrt _ a => [a]
  | .sleg a => [a]
  | .sshl _ a _ => [a]
  | .sshr _ a _ => [a]
  | .seq a b => [a, b]
  | .scmp a b => [a, b]
  | .sisz a => [a]
  | .ssel _ a b => [a, b]
  | .smov _ a => [a]
  | .szero _ => []
  | .sone _ => []
  | .simm _ _ => []
  | .snbits a => [a]
  | .srand _ => []
  | .sldle _ _ _ => []
  | .sldbe _ _ _ => []
  | .sstle r _ _ => [r]
  | .sstbe r _ _ => [r]
  | .sldraw _ _ _ => []
  | .sldwide _ _ _ => []
  | .sldokm _ _ _ => []
  | .gadd _ _ _ => []
  | .gsub _ _ _ => []
  | .gneg _ _ => []
  | .gdbl _ _ => []
  | .gsmul _ _ b => [b]
  | .ginv _ _ => []
  | .gone _ => []
  | .ggen _ => []
  | .grand _ => []
  | .gisid _ => []
  | .geq _ _ => []
  | .gsubg _ => []
  | .gmov _ _ => []
  | .gld _ _ _ => []
  | .gldu _ _ _ => []
  | .gst _ _ _ => []
  | .gcmpr _ _ => []
  | .guncmpr _ _ => []
  | .tld _ _ _ => []
  | .tst _ _ _ => []

/-- The G fields that a command reads (30_encoding.md R128, 60_exceptions.md R336). -/
def gSources : Instr → List RegField
  | .nop => []
  | .sadd _ _ _ => []
  | .ssub _ _ _ => []
  | .smul _ _ _ => []
  | .sneg _ _ => []
  | .sdbl _ _ => []
  | .ssqr _ _ => []
  | .sinv _ _ => []
  | .sdiv _ _ _ => []
  | .spow _ _ _ => []
  | .ssqrt _ _ => []
  | .sleg _ => []
  | .sshl _ _ _ => []
  | .sshr _ _ _ => []
  | .seq _ _ => []
  | .scmp _ _ => []
  | .sisz _ => []
  | .ssel _ _ _ => []
  | .smov _ _ => []
  | .szero _ => []
  | .sone _ => []
  | .simm _ _ => []
  | .snbits _ => []
  | .srand _ => []
  | .sldle _ _ _ => []
  | .sldbe _ _ _ => []
  | .sstle _ _ _ => []
  | .sstbe _ _ _ => []
  | .sldraw _ _ _ => []
  | .sldwide _ _ _ => []
  | .sldokm _ _ _ => []
  | .gadd _ a b => [a, b]
  | .gsub _ a b => [a, b]
  | .gneg _ a => [a]
  | .gdbl _ a => [a]
  | .gsmul _ a _ => [a]
  | .ginv _ a => [a]
  | .gone _ => []
  | .ggen _ => []
  | .grand _ => []
  | .gisid a => [a]
  | .geq a b => [a, b]
  | .gsubg a => [a]
  | .gmov _ a => [a]
  | .gld _ _ _ => []
  | .gldu _ _ _ => []
  | .gst r _ _ => [r]
  | .gcmpr _ a => [a]
  | .guncmpr _ _ => []
  | .tld _ _ _ => []
  | .tst _ _ _ => []

/-- The T fields that a command reads (30_encoding.md R128, 60_exceptions.md R336). -/
def tSources : Instr → List RegField
  | .nop => []
  | .sadd _ _ _ => []
  | .ssub _ _ _ => []
  | .smul _ _ _ => []
  | .sneg _ _ => []
  | .sdbl _ _ => []
  | .ssqr _ _ => []
  | .sinv _ _ => []
  | .sdiv _ _ _ => []
  | .spow _ _ _ => []
  | .ssqrt _ _ => []
  | .sleg _ => []
  | .sshl _ _ _ => []
  | .sshr _ _ _ => []
  | .seq _ _ => []
  | .scmp _ _ => []
  | .sisz _ => []
  | .ssel _ _ _ => []
  | .smov _ _ => []
  | .szero _ => []
  | .sone _ => []
  | .simm _ _ => []
  | .snbits _ => []
  | .srand _ => []
  | .sldle _ _ _ => []
  | .sldbe _ _ _ => []
  | .sstle _ _ _ => []
  | .sstbe _ _ _ => []
  | .sldraw _ _ _ => []
  | .sldwide _ _ _ => []
  | .sldokm _ _ _ => []
  | .gadd _ _ _ => []
  | .gsub _ _ _ => []
  | .gneg _ _ => []
  | .gdbl _ _ => []
  | .gsmul _ _ _ => []
  | .ginv _ _ => []
  | .gone _ => []
  | .ggen _ => []
  | .grand _ => []
  | .gisid _ => []
  | .geq _ _ => []
  | .gsubg _ => []
  | .gmov _ _ => []
  | .gld _ _ _ => []
  | .gldu _ _ _ => []
  | .gst _ _ _ => []
  | .gcmpr _ _ => []
  | .guncmpr _ a => [a]
  | .tld _ _ _ => []
  | .tst r _ _ => [r]

/-- The DBUF range of an M-format command: OFF, LEN and the fixed length LREQ (30_encoding.md R123, R124). -/
def buffer : Instr → Option (BitVec 6 × BitVec 12 × Nat)
  | .nop => none
  | .sadd _ _ _ => none
  | .ssub _ _ _ => none
  | .smul _ _ _ => none
  | .sneg _ _ => none
  | .sdbl _ _ => none
  | .ssqr _ _ => none
  | .sinv _ _ => none
  | .sdiv _ _ _ => none
  | .spow _ _ _ => none
  | .ssqrt _ _ => none
  | .sleg _ => none
  | .sshl _ _ _ => none
  | .sshr _ _ _ => none
  | .seq _ _ => none
  | .scmp _ _ => none
  | .sisz _ => none
  | .ssel _ _ _ => none
  | .smov _ _ => none
  | .szero _ => none
  | .sone _ => none
  | .simm _ _ => none
  | .snbits _ => none
  | .srand _ => none
  | .sldle _ off len => some (off, len, 32)
  | .sldbe _ off len => some (off, len, 32)
  | .sstle _ off len => some (off, len, 32)
  | .sstbe _ off len => some (off, len, 32)
  | .sldraw _ off len => some (off, len, 32)
  | .sldwide _ off len => some (off, len, 64)
  | .sldokm _ off len => some (off, len, 48)
  | .gadd _ _ _ => none
  | .gsub _ _ _ => none
  | .gneg _ _ => none
  | .gdbl _ _ => none
  | .gsmul _ _ _ => none
  | .ginv _ _ => none
  | .gone _ => none
  | .ggen _ => none
  | .grand _ => none
  | .gisid _ => none
  | .geq _ _ => none
  | .gsubg _ => none
  | .gmov _ _ => none
  | .gld _ off len => some (off, len, 576)
  | .gldu _ off len => some (off, len, 576)
  | .gst _ off len => some (off, len, 576)
  | .gcmpr _ _ => none
  | .guncmpr _ _ => none
  | .tld _ off len => some (off, len, 288)
  | .tst _ off len => some (off, len, 288)

/-- The destination register of a command: the field that its rule writes (30_encoding.md R128, 00_scope.md R14). -/
def dest : Instr → Option Destination
  | .nop => none
  | .sadd d _ _ => some (.s d)
  | .ssub d _ _ => some (.s d)
  | .smul d _ _ => some (.s d)
  | .sneg d _ => some (.s d)
  | .sdbl d _ => some (.s d)
  | .ssqr d _ => some (.s d)
  | .sinv d _ => some (.s d)
  | .sdiv d _ _ => some (.s d)
  | .spow d _ _ => some (.s d)
  | .ssqrt d _ => some (.s d)
  | .sleg _ => none
  | .sshl d _ _ => some (.s d)
  | .sshr d _ _ => some (.s d)
  | .seq _ _ => none
  | .scmp _ _ => none
  | .sisz _ => none
  | .ssel d _ _ => some (.s d)
  | .smov d _ => some (.s d)
  | .szero d => some (.s d)
  | .sone d => some (.s d)
  | .simm d _ => some (.s d)
  | .snbits _ => none
  | .srand d => some (.s d)
  | .sldle r _ _ => some (.s r)
  | .sldbe r _ _ => some (.s r)
  | .sstle _ _ _ => none
  | .sstbe _ _ _ => none
  | .sldraw r _ _ => some (.s r)
  | .sldwide r _ _ => some (.s r)
  | .sldokm r _ _ => some (.s r)
  | .gadd d _ _ => some (.g d)
  | .gsub d _ _ => some (.g d)
  | .gneg d _ => some (.g d)
  | .gdbl d _ => some (.g d)
  | .gsmul d _ _ => some (.g d)
  | .ginv d _ => some (.g d)
  | .gone d => some (.g d)
  | .ggen d => some (.g d)
  | .grand d => some (.g d)
  | .gisid _ => none
  | .geq _ _ => none
  | .gsubg _ => none
  | .gmov d _ => some (.g d)
  | .gld r _ _ => some (.g r)
  | .gldu r _ _ => some (.g r)
  | .gst _ _ _ => none
  | .gcmpr d _ => some (.t d)
  | .guncmpr d _ => some (.g d)
  | .tld r _ _ => some (.t r)
  | .tst _ _ _ => none

/-- The queries: the commands that write RESULT (10_state.md R50). -/
def writesResult : Instr → Bool
  | .nop => false
  | .sadd _ _ _ => false
  | .ssub _ _ _ => false
  | .smul _ _ _ => false
  | .sneg _ _ => false
  | .sdbl _ _ => false
  | .ssqr _ _ => false
  | .sinv _ _ => false
  | .sdiv _ _ _ => false
  | .spow _ _ _ => false
  | .ssqrt _ _ => false
  | .sleg _ => true
  | .sshl _ _ _ => false
  | .sshr _ _ _ => false
  | .seq _ _ => true
  | .scmp _ _ => true
  | .sisz _ => true
  | .ssel _ _ _ => false
  | .smov _ _ => false
  | .szero _ => false
  | .sone _ => false
  | .simm _ _ => false
  | .snbits _ => true
  | .srand _ => false
  | .sldle _ _ _ => false
  | .sldbe _ _ _ => false
  | .sstle _ _ _ => false
  | .sstbe _ _ _ => false
  | .sldraw _ _ _ => false
  | .sldwide _ _ _ => false
  | .sldokm _ _ _ => false
  | .gadd _ _ _ => false
  | .gsub _ _ _ => false
  | .gneg _ _ => false
  | .gdbl _ _ => false
  | .gsmul _ _ _ => false
  | .ginv _ _ => false
  | .gone _ => false
  | .ggen _ => false
  | .grand _ => false
  | .gisid _ => true
  | .geq _ _ => true
  | .gsubg _ => true
  | .gmov _ _ => false
  | .gld _ _ _ => false
  | .gldu _ _ _ => false
  | .gst _ _ _ => false
  | .gcmpr _ _ => false
  | .guncmpr _ _ => false
  | .tld _ _ _ => false
  | .tst _ _ _ => false

end Instr

namespace Machine

/-- Every register that a command reads is valid (60_exceptions.md R336). A G or T field out of its class's range names
no register. -/
def State.SourcesValid (s : State) (i : Instr) : Prop :=
  (∀ f ∈ i.sSources, s.sv[f.toFin] = true) ∧
  (∀ f ∈ i.gSources, ∀ h : f.toNat < 8, s.gv[f.toNat] = true) ∧
  (∀ f ∈ i.tSources, ∀ h : f.toNat < 4, s.tv[f.toNat] = true)

/-! ### The invariant -/

/-- What every state of the block satisfies, reachable or only imagined, once it satisfies it at all. -/
structure State.Inv (s : State) : Prop where
  /-- The parameters are usable. -/
  usable : s.platform.Usable
  /-- 10_state.md R41. -/
  scalars : ∀ i : Fin 16, s.sv[i] = true → s.sreg[i].toNat < s.q
  /-- 10_state.md R44. -/
  gts : ∀ i : Fin 8, s.gv[i] = true → s.greg[i].inRange s.p
  /-- 10_state.md R45. -/
  tori : ∀ i : Fin 4, s.tv[i] = true → s.treg[i].inRange s.p
  /-- An invalid register holds zero (10_state.md R55, R60). -/
  scalarsClear : ∀ i : Fin 16, s.sv[i] = false → s.sreg[i] = 0
  /-- An invalid register holds zero (10_state.md R55, R60). -/
  gtsClear : ∀ i : Fin 8, s.gv[i] = false → s.greg[i] = Fp12.zero
  /-- An invalid register holds zero (10_state.md R55, R60). -/
  toriClear : ∀ i : Fin 4, s.tv[i] = false → s.treg[i] = Fp6.zero
  /-- DBUF's list is in canonical form and inside 1024 bytes (20_memory.md R80). -/
  buffer : s.dbuf.wf = true
  /-- Reserved reason codes are never produced (60_exceptions.md R331). -/
  reason : s.status.reason.toNat ≤ 5
  /-- Reserved error codes are never produced (60_exceptions.md R332). -/
  ecode : s.status.ecode.toNat ≤ 7
  /-- Clearing ERR clears ECODE (10_state.md R49). -/
  errClear : s.status.err = false → s.status.ecode = 0
  /-- REASON is 0 after ok (10_state.md R49). -/
  okReason : s.status.ok = true → s.status.reason = 0
  /-- While rst_n = 0 the block is in the state after reset (70_reset_and_hazards.md R370). -/
  inReset : s.rstN = false → s.cleared = s
  /-- While rst_n = 0 no access waits (entry 8). -/
  noneHeld : s.rstN = false → s.held = []

/-! ### Frames: what a step left as it was -/

/-- The S registers outside `but`, and their valid bits, are as they were. -/
def SameScalars (s t : State) (but : List (Fin 16)) : Prop :=
  ∀ i, i ∉ but → t.sreg[i] = s.sreg[i] ∧ t.sv[i] = s.sv[i]

/-- The G registers outside `but`, and their valid bits, are as they were. -/
def SameGts (s t : State) (but : List (Fin 8)) : Prop :=
  ∀ i, i ∉ but → t.greg[i] = s.greg[i] ∧ t.gv[i] = s.gv[i]

/-- The T registers outside `but`, and their valid bits, are as they were. -/
def SameTori (s t : State) (but : List (Fin 4)) : Prop :=
  ∀ i, i ∉ but → t.treg[i] = s.treg[i] ∧ t.tv[i] = s.tv[i]

/-- Every byte of DBUF reads as it did. -/
def SameBuffer (s t : State) : Prop := ∀ a, Memory.read t.dbuf a = Memory.read s.dbuf a

/-- Every byte of DBUF outside the `n` bytes from offset `off` reads as it did. -/
def SameBufferOutside (s t : State) (off n : Nat) : Prop :=
  ∀ a, a < off ∨ off + n ≤ a → Memory.read t.dbuf a = Memory.read s.dbuf a

/-- CTRL.IE, and the model's own parameters, inputs, held accesses, last response and reset level, are as they were. -/
def SameHostSide (s t : State) : Prop :=
  t.ie = s.ie ∧ t.platform = s.platform ∧ t.inputs = s.inputs ∧ t.held = s.held ∧ t.lastResp = s.lastResp ∧
    t.rstN = s.rstN

/-! ### Outcomes (60_exceptions.md R330, R333): STATUS field by field, and PEND empty -/

/-- The STATUS update of ok: DONE and OK set, REASON 0, nothing else; PEND is empty. -/
def DoneOk (s t : State) : Prop :=
  t.status = { s.status with done := true, ok := true, reason := 0 } ∧ t.pend = none

/-- The STATUS update of `none` with a reason code: DONE set, OK 0, REASON, NONE set, nothing else; PEND is empty. -/
def DoneNone (s t : State) (reason : BitVec 4) : Prop :=
  t.status = { s.status with done := true, ok := false, reason := reason, noneFlag := true } ∧ t.pend = none

/-- The STATUS update of an error code: DONE set, OK 0, REASON 0, ERR set, ECODE, HALTED as given, nothing else; PEND is
empty. -/
def DoneError (s t : State) (ecode : BitVec 8) (halted : Bool) : Prop :=
  t.status = { s.status with done := true, ok := false, reason := 0, err := true, ecode := ecode, halted := halted }
    ∧ t.pend = none

/-- Nothing but STATUS and PEND has changed (60_exceptions.md R341). -/
structure OnlyStatus (s t : State) : Prop where
  scalars : SameScalars s t []
  gts : SameGts s t []
  tori : SameTori s t []
  buffer : SameBuffer s t
  result : t.result = s.result
  draws : t.draws = s.draws
  host : SameHostSide s t

/-- Completed with `none(reason)`, changing nothing but STATUS and PEND. -/
def EndsNone (s t : State) (reason : BitVec 4) : Prop := DoneNone s t reason ∧ OnlyStatus s t

/-- Completed with `error(ecode)`, HALTED kept, changing nothing but STATUS and PEND. -/
def EndsError (s t : State) (ecode : BitVec 8) : Prop := DoneError s t ecode s.status.halted ∧ OnlyStatus s t

/-- Completed with ok, writing `S[d]` with the residue `m` and nothing else, and taking a number of draws. -/
structure OkScalar (s t : State) (d : Fin 16) (m taken : Nat) : Prop where
  value : t.sreg[d].toNat = m
  valid : t.sv[d] = true
  scalars : SameScalars s t [d]
  gts : SameGts s t []
  tori : SameTori s t []
  buffer : SameBuffer s t
  result : t.result = s.result
  draws : t.draws = s.draws + taken
  host : SameHostSide s t
  done : DoneOk s t

/-- Completed with ok, writing `G[d]` with `a` and nothing else, and taking a number of draws. -/
structure OkGt (s t : State) (d : Fin 8) (a : Fp12) (taken : Nat) : Prop where
  value : t.greg[d] = a
  valid : t.gv[d] = true
  scalars : SameScalars s t []
  gts : SameGts s t [d]
  tori : SameTori s t []
  buffer : SameBuffer s t
  result : t.result = s.result
  draws : t.draws = s.draws + taken
  host : SameHostSide s t
  done : DoneOk s t

/-- Completed with ok, writing `T[d]` with `x` and nothing else. -/
structure OkTorus (s t : State) (d : Fin 4) (x : Fp6) : Prop where
  value : t.treg[d] = x
  valid : t.tv[d] = true
  scalars : SameScalars s t []
  gts : SameGts s t []
  tori : SameTori s t [d]
  buffer : SameBuffer s t
  result : t.result = s.result
  draws : t.draws = s.draws
  host : SameHostSide s t
  done : DoneOk s t

/-- Completed with ok, writing RESULT with `v` and nothing else. -/
structure OkResult (s t : State) (v : Word) : Prop where
  value : t.result = v
  scalars : SameScalars s t []
  gts : SameGts s t []
  tori : SameTori s t []
  buffer : SameBuffer s t
  draws : t.draws = s.draws
  host : SameHostSide s t
  done : DoneOk s t

/-- Completed with ok, writing the bytes `bs` to DBUF from offset `off` on and nothing else. -/
structure OkBuffer (s t : State) (off : Nat) (bs : List Byte) : Prop where
  bytes : ∀ k, ∀ h : k < bs.length, Memory.read t.dbuf (off + k) = bs[k]
  outside : SameBufferOutside s t off bs.length
  scalars : SameScalars s t []
  gts : SameGts s t []
  tori : SameTori s t []
  result : t.result = s.result
  draws : t.draws = s.draws
  host : SameHostSide s t
  done : DoneOk s t

/-! ### Canonical values -/

/-- The canonical value of `S[i]` (10_state.md R41). -/
def State.canonical (s : State) (i : Fin 16) : Nat := val s.q s.sreg[i].toNat

/-- `S[i]` is valid and holds a residue (10_state.md R41). -/
structure ReadyS (s : State) (i : Fin 16) : Prop where
  valid : s.sv[i] = true
  residue : s.sreg[i].toNat < s.q

/-! ### Byte sequences as sums (00_scope.md R13) -/

/-- `le(DBUF[off..off+n))`: the sum of the bytes times 256^k. -/
def leSum (m : Memory) (off n : Nat) : Nat := ∑ k ∈ Finset.range n, (Memory.read m (off + k)).toNat * 256 ^ k

/-- `be(DBUF[off..off+n))`: the sum of the bytes times 256^(n-1-k). -/
def beSum (m : Memory) (off n : Nat) : Nat :=
  ∑ k ∈ Finset.range n, (Memory.read m (off + k)).toNat * 256 ^ (n - 1 - k)

/-- `le_n(x)`, byte by byte. -/
def leEncoding (n x : Nat) : List Byte := (List.range n).map fun k => BitVec.ofNat 8 (x / 256 ^ k)

/-- `be_n(x)`, byte by byte. -/
def beEncoding (n x : Nat) : List Byte := (List.range n).map fun k => BitVec.ofNat 8 (x / 256 ^ (n - 1 - k))

/-- The encoding of a vector: byte `j` of component `k` is at `48 * k + j` (44_gt_codec_torus.md R303, R311). -/
def vectorEncoding (order : Nat → Nat → List Byte) (cs : List FpWord) : List Byte :=
  (cs.map fun c => order 48 c.toNat).flatten

end Machine

end Sys2Proof
end

