-- ==== Sys2Proof/WellFormed.lean ====
section
/-! DEFINITION. Which commands are well formed: every used register field lies in its class's range
(spec/30_encoding.md R125). A command that is not well formed is still a command of the block: it completes with the
error BAD_REGISTER (spec/60_exceptions.md R334, check 4). -/

namespace Sys2Proof

/-- A G field in range: 0 to 7 (30_encoding.md R125). -/
def gField (f : RegField) : Bool := f.toNat < 8

/-- A T field in range: 0 to 3 (30_encoding.md R125). -/
def tField (f : RegField) : Bool := f.toNat < 4

/-- Every used register field is in its class's range (30_encoding.md R125). An S field always is. -/
def Instr.wellFormed : Instr → Bool
  | .nop => true
  | .sadd _ _ _ => true
  | .ssub _ _ _ => true
  | .smul _ _ _ => true
  | .sneg _ _ => true
  | .sdbl _ _ => true
  | .ssqr _ _ => true
  | .sinv _ _ => true
  | .sdiv _ _ _ => true
  | .spow _ _ _ => true
  | .ssqrt _ _ => true
  | .sleg _ => true
  | .sshl _ _ _ => true
  | .sshr _ _ _ => true
  | .seq _ _ => true
  | .scmp _ _ => true
  | .sisz _ => true
  | .ssel _ _ _ => true
  | .smov _ _ => true
  | .szero _ => true
  | .sone _ => true
  | .simm _ _ => true
  | .snbits _ => true
  | .srand _ => true
  | .sldle _ _ _ => true
  | .sldbe _ _ _ => true
  | .sstle _ _ _ => true
  | .sstbe _ _ _ => true
  | .sldraw _ _ _ => true
  | .sldwide _ _ _ => true
  | .sldokm _ _ _ => true
  | .gadd d a b => gField d && gField a && gField b
  | .gsub d a b => gField d && gField a && gField b
  | .gneg d a => gField d && gField a
  | .gdbl d a => gField d && gField a
  | .gsmul d a _ => gField d && gField a
  | .ginv d a => gField d && gField a
  | .gone d => gField d
  | .ggen d => gField d
  | .grand d => gField d
  | .gisid a => gField a
  | .geq a b => gField a && gField b
  | .gsubg a => gField a
  | .gmov d a => gField d && gField a
  | .gld r _ _ => gField r
  | .gldu r _ _ => gField r
  | .gst r _ _ => gField r
  | .gcmpr d a => tField d && gField a
  | .guncmpr d a => gField d && tField a
  | .tld r _ _ => tField r
  | .tst r _ _ => tField r

end Sys2Proof
end

