-- ==== Sys2Proof/Certificates/Slice0/Obligations.lean ====
section
/-! DEFINITION. The statements about BLSTRS-CORE. `EndsNone`, `EndsError`, `OkScalar`, `OkGt`, `OkTorus`, `OkResult` and
`OkBuffer` of Safety.lean say what a completed command wrote and that everything else is as it was. -/

section Statements

open Sys2Proof Sys2Proof.Machine

/-! ### Encoding -/

/-- 30_encoding.md R122, R123, R128: decoding the word of a command gives the command, whatever its fields hold. -/
def Obligations.DecodeEncodeRoundTrip : Prop :=
  ∀ i : Instr, decodeWord (encode i) = .ok i

/-- 30_encoding.md R122, R123, R127, R128: a word that decodes is the word of the command it decodes to; no bit of it is
dropped, and no two words decode to one command. -/
def Obligations.EncodeDecodeRoundTrip : Prop :=
  ∀ (w : Word) (i : Instr), decodeWord w = .ok i → encode i = w

/-- 30_encoding.md R129: the unassigned OP values are exactly those listed; such a word completes with ILLEGAL_OPCODE and
does nothing else; the all-zero word is NOP. -/
def Obligations.UnassignedOpcodesAreIllegal : Prop :=
  decodeWord 0x00000000 = .ok .nop ∧
  ∀ w : Word,
    (decodeWord w = .error .illegalOpcode ↔
      (0x01 ≤ w.toNat / 2 ^ 24 ∧ w.toNat / 2 ^ 24 ≤ 0x0F) ∨ (0x1D ≤ w.toNat / 2 ^ 24 ∧ w.toNat / 2 ^ 24 ≤ 0x1F) ∨
      (0x2A ≤ w.toNat / 2 ^ 24 ∧ w.toNat / 2 ^ 24 ≤ 0x2F) ∨ (0x37 ≤ w.toNat / 2 ^ 24 ∧ w.toNat / 2 ^ 24 ≤ 0x3F) ∨
      (0x4D ≤ w.toNat / 2 ^ 24 ∧ w.toNat / 2 ^ 24 ≤ 0x4F) ∨ (0x57 ≤ w.toNat / 2 ^ 24 ∧ w.toNat / 2 ^ 24 ≤ 0xFF)) ∧
    ∀ s : State, s.status.halted = false → decodeWord w = .error .illegalOpcode →
      ∃ t, runWord w s = .next t ∧ EndsError s t 1

/-- 30_encoding.md R127: for every row of the opcode map, a word of that OP is refused exactly where a field that its
format reserves, or a register field that the row leaves unused, is nonzero; it then completes with RESERVED_FIELD and
does nothing else. -/
def Obligations.NonzeroReservedFieldIsRefused : Prop :=
  ∀ row ∈ opRows, ∀ w : Word, w.extractLsb' 24 8 = row.op →
    (decodeWord w = .error .reservedField ↔
      match row.format with
      | .n => w.extractLsb' 0 24 ≠ 0
      | .r => w.extractLsb' 0 12 ≠ 0 ∨ (row.d = .unused ∧ w.extractLsb' 20 4 ≠ 0) ∨
          (row.a = .unused ∧ w.extractLsb' 16 4 ≠ 0) ∨ (row.b = .unused ∧ w.extractLsb' 12 4 ≠ 0)
      | .i12 => w.extractLsb' 12 4 ≠ 0
      | .i16 => w.extractLsb' 16 4 ≠ 0
      | .m => w.extractLsb' 18 2 ≠ 0) ∧
    ∀ s : State, s.status.halted = false → decodeWord w = .error .reservedField →
      ∃ t, runWord w s = .next t ∧ EndsError s t 2

/-- 30_encoding.md R133: the worked encodings. -/
def Obligations.WorkedEncodingsDecode : Prop :=
  decodeWord 0x00000000 = .ok .nop ∧ decodeWord 0x10201000 = .ok (.sadd 2 0 1) ∧
  decodeWord 0x1B100003 = .ok (.sshl 1 0 3) ∧ decodeWord 0x27000005 = .ok (.simm 0 5) ∧
  decodeWord 0x30002020 = .ok (.sldle 0 2 32) ∧ decodeWord 0x50300240 = .ok (.gld 3 0 576) ∧
  decodeWord 0x56124120 = .ok (.tst 1 36 288) ∧ decodeWord 0x44107000 = .ok (.gsmul 1 0 7)

/-- 30_encoding.md R131, R132: what the assembler accepts is a word of the mnemonic's opcode that decodes, with its
register fields in range, and that carries the operands written, in the order D, A, B, then the number or the buffer
range; a length left out is the opcode's fixed one. And every word that decodes to a command with its register fields in
range is what the assembler makes of its row's mnemonic and its own operands. -/
def Obligations.AssembledWordsAreWellFormed : Prop :=
  (∀ (mnemonic : String) (ops : List AsmOperand) (w : Word), assemble mnemonic ops = some w →
    ∃ row ∈ opRows, row.mnemonic = expandMnemonic mnemonic.toUpper ∧ opField w = row.op ∧
      decodeWord w = .ok (row.build (fieldsOf w)) ∧ (row.build (fieldsOf w)).wellFormed = true ∧
      (ops = writtenOperands row w ∨
        (row.format = .m ∧ ops ++ [.num (requiredLength row.op)] = writtenOperands row w))) ∧
  ∀ row ∈ opRows, ∀ (w : Word) (i : Instr), opField w = row.op → decodeWord w = .ok i → i.wellFormed = true →
    assemble row.mnemonic (writtenOperands row w) = some w

/-! ### The engine -/

/-- 20_memory.md R95, 30_encoding.md R130: where the pending word decodes to a command, a step in which the engine has
the turn is that command's execution. The engine has the turn where no input is left and where the next one is an idle
turn, unless the oldest waiting access is one that the command does not hold (log entry 4); an access that must wait is
taken first and then leaves the engine the turn (log entry 21); `withFetchWord` sets the turn up, with whatever waits
presented after it (log entry 5). -/
def Obligations.StepRunsDecodedCommand : Prop :=
  ∀ (s : State) (w : Word) (i : Instr), decodeWord w = .ok i →
    (s.pend = some w → (∀ b waiting, s.held = b :: waiting → s.mustWait b = true) →
      (s.inputs = [] → step s = exec i s) ∧
      (∀ rest, s.inputs = .idle :: rest → step s = exec i { s with inputs := rest }) ∧
      (∀ a, s.inputs = [.access a] → s.holds a = true →
        ∃ t, step s = .next t ∧ t = { s with inputs := [], held := s.held ++ [a] } ∧ step t = exec i t)) ∧
    step (s.withFetchWord 32 w.toNat) =
      exec i { s with pend := some w, held := [], inputs := s.held.map .access ++ s.inputs }

/-- 60_exceptions.md R344: while HALTED is 1, a word written to CMD is accepted, and every word, whatever it is,
completes with HALTED_REJECT and writes nothing else; clearing ERR clears ECODE but not HALTED. -/
def Obligations.HaltedBlockRejectsEveryWord : Prop :=
  ∀ (s : State) (w : Word), s.status.halted = true →
    (∃ t, runWord w s = .next t ∧ DoneError s t 7 true ∧ OnlyStatus s t) ∧
    (∀ addr, s.addressed (.write addr .word w) = true → addr % windowSize = 0x010 →
      (s.perform (.write addr .word w)).pend = some w ∧ (s.perform (.write addr .word w)).status = s.status) ∧
    ∀ data : Word, data.getLsbD 4 = true →
      (s.status.writeOneToClear data).err = false ∧ (s.status.writeOneToClear data).ecode = 0 ∧
        (s.status.writeOneToClear data).halted = true

/-- 60_exceptions.md R336: a command with its register fields in range that reads a register whose valid bit is 0
completes with UNINIT and changes nothing but STATUS. -/
def Obligations.InvalidSourceIsUninit : Prop :=
  ∀ (i : Instr) (s : State), s.status.halted = false → i.wellFormed = true → ¬ s.SourcesValid i →
    ∃ t, exec i s = .next t ∧ EndsError s t 4

/-- 30_encoding.md R125: a used G field of 8 or more, or a used T field of 4 or more, gives BAD_REGISTER, and nothing but
STATUS changes, whatever the registers and DBUF hold. -/
def Obligations.RegisterOutOfRangeIsBad : Prop :=
  ∀ (i : Instr) (s : State), s.status.halted = false → i.wellFormed = false →
    ∃ t, exec i s = .next t ∧ EndsError s t 3

/-- 60_exceptions.md R337, R338: a wrong LEN gives none(WRONG_LENGTH), even where the offset is out of range too. -/
def Obligations.WrongLengthComesBeforeBounds : Prop :=
  ∀ (i : Instr) (s : State) (off : BitVec 6) (len : BitVec 12) (lreq : Nat), i.buffer = some (off, len, lreq) →
    s.status.halted = false → i.wellFormed = true → s.SourcesValid i → len.toNat ≠ lreq →
    ∃ t, exec i s = .next t ∧ EndsNone s t 2

/-- 60_exceptions.md R339: a range that passes the end of DBUF gives the error BOUNDS; it never wraps. -/
def Obligations.RangePastDbufIsBounds : Prop :=
  ∀ (i : Instr) (s : State) (off : BitVec 6) (len : BitVec 12) (lreq : Nat), i.buffer = some (off, len, lreq) →
    s.status.halted = false → i.wellFormed = true → s.SourcesValid i → len.toNat = lreq →
    1024 < off.toNat * 16 + lreq → ∃ t, exec i s = .next t ∧ EndsError s t 5

/-- 60_exceptions.md R341: where the pending word has completed and the outcome is not ok, every register, valid bit, DBUF
byte, RESULT and CTRL is as it was before. -/
def Obligations.FailuresChangeOnlyStatus : Prop :=
  ∀ (w : Word) (s t : State), s.pend = some w → runWord w s = .next t → t.pend = none → t.status.ok = false →
    OnlyStatus s t

/-- 60_exceptions.md R330 to R333: every word but a GRAND that draws only zeros completes, with ok, with none and one of
the reasons 1 to 5, or with an error and one of the codes 1 to 7, and the STATUS update is that outcome's. A GRAND whose
draws are all zero has made one round and stays pending (43_gt_group.md R279, R280); that a step is one round is the
model's reading (log entry 3). -/
def Obligations.EveryWordHasOneOutcome : Prop :=
  ∀ (w : Word) (s : State), ∃ t, runWord w s = .next t ∧
    (DoneOk s t ∨
     (∃ r : Reason, DoneNone s t r.code) ∨
     (∃ e : ErrorCode, DoneError s t e.code (s.status.halted || e == .divByZero)) ∨
     (∃ d, decodeWord w = .ok (.grand d) ∧ s.drawFp12 = Fp12.zero ∧ t = s.drawn))

/-- 10_state.md R48, R50, R55, 20_memory.md R81: no command touches CTRL or anything of the host's side; every register
other than the command's destination keeps its contents and its valid bit; no command invalidates a register; only queries
write RESULT; only the four store commands write DBUF. -/
def Obligations.CommandsKeepWhatIsNotTheirs : Prop :=
  ∀ (i : Instr) (s t : State), exec i s = .next t →
    SameHostSide s t ∧
    (∀ k : Fin 16, i.dest ≠ some (.s (BitVec.ofNat 4 k)) → t.sreg[k] = s.sreg[k] ∧ t.sv[k] = s.sv[k]) ∧
    (∀ k : Fin 8, i.dest ≠ some (.g (BitVec.ofNat 4 k)) → t.greg[k] = s.greg[k] ∧ t.gv[k] = s.gv[k]) ∧
    (∀ k : Fin 4, i.dest ≠ some (.t (BitVec.ofNat 4 k)) → t.treg[k] = s.treg[k] ∧ t.tv[k] = s.tv[k]) ∧
    (∀ k : Fin 16, s.sv[k] = true → t.sv[k] = true) ∧ (∀ k : Fin 8, s.gv[k] = true → t.gv[k] = true) ∧
    (∀ k : Fin 4, s.tv[k] = true → t.tv[k] = true) ∧
    (i.writesResult = false → t.result = s.result) ∧
    ((∀ r off len, i ≠ .sstle r off len ∧ i ≠ .sstbe r off len ∧ i ≠ .gst r off len ∧ i ≠ .tst r off len) →
      SameBuffer s t)

/-! ### The invariant -/

/-- 10_state.md R60 at the model's parameters of reset (log entry 1): the invariant holds after reset. -/
def Obligations.InvHoldsAtReset : Prop := State.reset.Inv

/-- 10_state.md R41, R44, R45, 20_memory.md R80: every step keeps the invariant: valid registers hold residues and
components in range, invalid ones zero, DBUF its canonical form, STATUS only codes that exist; and while rst_n is 0 the
block stays as reset left it (70_reset_and_hazards.md R370) and no access waits (log entries 8 and 21). -/
def Obligations.EveryStepKeepsInv : Prop :=
  ∀ s t : State, s.Inv → step s = .next t → t.Inv

/-- 70_reset_and_hazards.md R370 and log entry 17: a step always answers with a next state, and no step, reset included,
changes the parameters. -/
def Obligations.EveryStepAnswersAndKeepsParameters : Prop :=
  ∀ s : State, ∃ t, step s = .next t ∧ t.platform = s.platform ∧ s.draws ≤ t.draws

/-! ### Scalar arithmetic -/

/-- 40_scalar_arith.md R168, R169: SADD and SSUB complete, write `S[d]` only, and on canonical values they are addition
and subtraction modulo Q; on residues they are ModAdd and ModSub (R166). -/
def Obligations.ScalarAddAndSubtract : Prop :=
  ∀ (s : State) (d a b : RegField), ScalarModulusOk s.q → s.status.halted = false →
    ReadyS s (sIndex a) → ReadyS s (sIndex b) →
    (∃ t, exec (.sadd d a b) s = .next t ∧
      OkScalar s t (sIndex d) (modAdd s.q s.sreg[sIndex a].toNat s.sreg[sIndex b].toNat) 0 ∧
      t.canonical (sIndex d) = (s.canonical (sIndex a) + s.canonical (sIndex b)) % s.q) ∧
    (∃ t, exec (.ssub d a b) s = .next t ∧
      OkScalar s t (sIndex d) (modSub s.q s.sreg[sIndex a].toNat s.sreg[sIndex b].toNat) 0 ∧
      (t.canonical (sIndex d) : Int) = ((s.canonical (sIndex a) : Int) - (s.canonical (sIndex b) : Int)) % (s.q : Int))

/-- 40_scalar_arith.md R171, R172: SNEG and SDBL complete, write `S[d]` only, and negate and double modulo Q. -/
def Obligations.ScalarNegateAndDouble : Prop :=
  ∀ (s : State) (d a : RegField), ScalarModulusOk s.q → s.status.halted = false → ReadyS s (sIndex a) →
    (∃ t, exec (.sneg d a) s = .next t ∧ OkScalar s t (sIndex d) (modNeg s.q s.sreg[sIndex a].toNat) 0 ∧
      (t.canonical (sIndex d) + s.canonical (sIndex a)) % s.q = 0) ∧
    (∃ t, exec (.sdbl d a) s = .next t ∧
      OkScalar s t (sIndex d) (modAdd s.q s.sreg[sIndex a].toNat s.sreg[sIndex a].toNat) 0 ∧
      t.canonical (sIndex d) = 2 * s.canonical (sIndex a) % s.q)

/-- 40_scalar_arith.md R170, R173: SMUL and SSQR complete, write `S[d]` only, with the Montgomery product of the residues,
which is the product of the canonical values modulo Q. -/
def Obligations.ScalarMultiplyAndSquare : Prop :=
  ∀ (s : State) (d a b : RegField), ScalarModulusOk s.q → s.status.halted = false →
    ReadyS s (sIndex a) → ReadyS s (sIndex b) →
    (∃ t, exec (.smul d a b) s = .next t ∧
      OkScalar s t (sIndex d) (montMul s.q s.sreg[sIndex a].toNat s.sreg[sIndex b].toNat) 0 ∧
      t.canonical (sIndex d) = s.canonical (sIndex a) * s.canonical (sIndex b) % s.q) ∧
    (∃ t, exec (.ssqr d a) s = .next t ∧
      OkScalar s t (sIndex d) (montMul s.q s.sreg[sIndex a].toNat s.sreg[sIndex a].toNat) 0 ∧
      t.canonical (sIndex d) = s.canonical (sIndex a) ^ 2 % s.q)

/-- 40_scalar_arith.md R174: SINV of a nonzero scalar writes `S[d]` only, with its inverse modulo Q; SINV of zero
completes with none(NON_INVERTIBLE). -/
def Obligations.ScalarInversion : Prop :=
  ∀ (s : State) (d a : RegField), ScalarModulusOk s.q → s.status.halted = false → ReadyS s (sIndex a) →
    (s.canonical (sIndex a) ≠ 0 → ∃ t m, exec (.sinv d a) s = .next t ∧ OkScalar s t (sIndex d) m 0 ∧ m < s.q ∧
      s.canonical (sIndex a) * t.canonical (sIndex d) % s.q = 1) ∧
    (s.canonical (sIndex a) = 0 → ∃ t, exec (.sinv d a) s = .next t ∧ EndsNone s t 3)

/-- 40_scalar_arith.md R175: SDIV by a nonzero scalar writes `S[d]` only, with the quotient modulo Q. -/
def Obligations.ScalarDivision : Prop :=
  ∀ (s : State) (d a b : RegField), ScalarModulusOk s.q → s.status.halted = false →
    ReadyS s (sIndex a) → ReadyS s (sIndex b) → s.canonical (sIndex b) ≠ 0 →
    ∃ t m, exec (.sdiv d a b) s = .next t ∧ OkScalar s t (sIndex d) m 0 ∧ m < s.q ∧
      t.canonical (sIndex d) * s.canonical (sIndex b) % s.q = s.canonical (sIndex a)

/-- 40_scalar_arith.md R175, 60_exceptions.md R343, R344, 70_reset_and_hazards.md R371: SDIV by zero completes with
DIV_BY_ZERO, changes nothing but STATUS and sets HALTED; every word after it is then turned away, still halted; a soft
reset clears HALTED, and so does a hard one, of which a level 1 of rst_n that is 1 already is none (log entry 15). And
from every halted state every step leads to a halted one, unless the level of rst_n it takes is such a hard reset or the
access it performs is a write to CTRL with SRST. -/
def Obligations.DivisionByZeroHalts : Prop :=
  (∀ (s : State) (d a b : RegField), ScalarModulusOk s.q → s.status.halted = false →
    ReadyS s (sIndex a) → ReadyS s (sIndex b) → s.canonical (sIndex b) = 0 →
    ∃ t, exec (.sdiv d a b) s = .next t ∧ DoneError s t 6 true ∧ OnlyStatus s t ∧
      (∀ w, ∃ u, runWord w t = .next u ∧ DoneError t u 7 true ∧ OnlyStatus t u) ∧
      (∀ data : Word, data.getLsbD 1 = true → (t.writeCtrl data).status.halted = false) ∧
      ∀ level, (level = true → s.rstN = false) → (t.setRstN level).status.halted = false) ∧
  ∀ s : State, s.status.halted = true → ∃ t, step s = .next t ∧
    (t.status.halted = true ∨
     (∃ level rest, s.inputs = .rstN level :: rest ∧ (level = true → s.rstN = false)) ∨
     ∃ addr data, addr % 0x800 = 0x004 ∧ data.getLsbD 1 = true ∧ s.busy = false ∧
       s.addressed (.write addr .word data) = true ∧
       ((∃ rest, s.inputs = .access (.write addr .word data) :: rest) ∨
        ∃ waiting, s.held = .write addr .word data :: waiting))

/-- 40_scalar_arith.md R176: SPOW completes and writes `S[d]` only, with the power modulo Q; `0^0` is 1. -/
def Obligations.ScalarPower : Prop :=
  ∀ (s : State) (d a b : RegField), ScalarModulusOk s.q → s.status.halted = false →
    ReadyS s (sIndex a) → ReadyS s (sIndex b) →
    ∃ t m, exec (.spow d a b) s = .next t ∧ OkScalar s t (sIndex d) m 0 ∧ m < s.q ∧
      t.canonical (sIndex d) = s.canonical (sIndex a) ^ s.canonical (sIndex b) % s.q

/-- 40_scalar_arith.md R177: SLEG completes and writes RESULT only: 0 for zero, 1 for a nonzero square modulo Q, and
0xFFFFFFFF for a non-residue. -/
def Obligations.LegendreSymbol : Prop :=
  ∀ (s : State) (a : RegField), ScalarModulusOk s.q → s.status.halted = false → ReadyS s (sIndex a) →
    (s.canonical (sIndex a) = 0 → ∃ t, exec (.sleg a) s = .next t ∧ OkResult s t 0x00000000) ∧
    (s.canonical (sIndex a) ≠ 0 → (∃ y, y * y % s.q = s.canonical (sIndex a)) →
      ∃ t, exec (.sleg a) s = .next t ∧ OkResult s t 0x00000001) ∧
    ((¬ ∃ y, y * y % s.q = s.canonical (sIndex a)) → ∃ t, exec (.sleg a) s = .next t ∧ OkResult s t 0xFFFFFFFF)

/-- 40_scalar_arith.md R178: SSQRT of zero writes 0; of a nonzero square it writes `S[d]` only, with the smaller root or
the other one as the draw picks, whatever the draw; of a non-residue it completes with none(NON_RESIDUE). -/
def Obligations.SquareRoot : Prop :=
  ∀ (s : State) (d a : RegField), ScalarModulusOk s.q → s.status.halted = false → ReadyS s (sIndex a) →
    (s.canonical (sIndex a) = 0 → ∃ t, exec (.ssqrt d a) s = .next t ∧ OkScalar s t (sIndex d) 0 0) ∧
    (s.canonical (sIndex a) ≠ 0 → (∃ y, y * y % s.q = s.canonical (sIndex a)) →
      ∃ t m r, exec (.ssqrt d a) s = .next t ∧ OkScalar s t (sIndex d) m 1 ∧ m < s.q ∧
        0 < r ∧ r < s.q - r ∧ r * r % s.q = s.canonical (sIndex a) ∧
        t.canonical (sIndex d) = (if s.drawSqrtPick = true then s.q - r else r) ∧
        t.canonical (sIndex d) ^ 2 % s.q = s.canonical (sIndex a)) ∧
    ((¬ ∃ y, y * y % s.q = s.canonical (sIndex a)) → ∃ t, exec (.ssqrt d a) s = .next t ∧ EndsNone s t 5)

/-- 40_scalar_arith.md R179, R180: SSHL and SSHR complete and write `S[d]` only: multiplication by 2^n modulo Q, and the
value that 2^n takes back to the operand. -/
def Obligations.ScalarShifts : Prop :=
  ∀ (s : State) (d a : RegField) (n : BitVec 12), ScalarModulusOk s.q → s.status.halted = false →
    ReadyS s (sIndex a) →
    (∃ t, exec (.sshl d a n) s = .next t ∧
      OkScalar s t (sIndex d) (s.sreg[sIndex a].toNat * 2 ^ n.toNat % s.q) 0 ∧
      t.canonical (sIndex d) = s.canonical (sIndex a) * 2 ^ n.toNat % s.q) ∧
    (∃ t m, exec (.sshr d a n) s = .next t ∧ OkScalar s t (sIndex d) m 0 ∧ m < s.q ∧
      m * 2 ^ n.toNat % s.q = s.sreg[sIndex a].toNat ∧
      t.canonical (sIndex d) * 2 ^ n.toNat % s.q = s.canonical (sIndex a))

/-! ### Scalar comparison, selection, constants and moves -/

/-- 41_scalar_cmp_move.md R200, R202: SEQ and SISZ complete and write RESULT only, with 1 exactly where the canonical
values are equal, and exactly where the canonical value is 0. -/
def Obligations.ScalarEqualityTests : Prop :=
  ∀ (s : State) (a b : RegField), ScalarModulusOk s.q → s.status.halted = false →
    ReadyS s (sIndex a) → ReadyS s (sIndex b) →
    (∃ t, exec (.seq a b) s = .next t ∧
      OkResult s t (if s.canonical (sIndex a) = s.canonical (sIndex b) then 1 else 0)) ∧
    (∃ t, exec (.sisz a) s = .next t ∧ OkResult s t (if s.canonical (sIndex a) = 0 then 1 else 0))

/-- 41_scalar_cmp_move.md R201, R208: SCMP and SNBITS complete and write RESULT only: the order of the canonical values
as integers, and the number of bits of the canonical value, at most 255. -/
def Obligations.ScalarOrderAndBitLength : Prop :=
  ∀ (s : State) (a b : RegField), ScalarModulusOk s.q → s.status.halted = false →
    ReadyS s (sIndex a) → ReadyS s (sIndex b) →
    (∃ t, exec (.scmp a b) s = .next t ∧ OkResult s t
      (if s.canonical (sIndex a) < s.canonical (sIndex b) then 0xFFFFFFFF
       else if s.canonical (sIndex b) < s.canonical (sIndex a) then 1 else 0)) ∧
    (∃ t, exec (.snbits a) s = .next t ∧ OkResult s t (BitVec.ofNat 32 (s.canonical (sIndex a)).size) ∧
      t.result.toNat ≤ 255)

/-- 41_scalar_cmp_move.md R203, R204: SSEL and SMOV complete and write `S[d]` only: SSEL with `S[b]` where bit 0 of RESULT
is 1 and `S[a]` where it is 0, SMOV with `S[a]`. -/
def Obligations.ScalarSelectAndMove : Prop :=
  ∀ (s : State) (d a b : RegField), s.status.halted = false → s.sv[sIndex a] = true → s.sv[sIndex b] = true →
    (∃ t, exec (.ssel d a b) s = .next t ∧ OkScalar s t (sIndex d)
      (if s.result.toNat % 2 = 1 then s.sreg[sIndex b].toNat else s.sreg[sIndex a].toNat) 0) ∧
    (∃ t, exec (.smov d a) s = .next t ∧ OkScalar s t (sIndex d) s.sreg[sIndex a].toNat 0)

/-- 41_scalar_cmp_move.md R205 to R207: SZERO, SONE and SIMM complete, whatever the registers hold, and write `S[d]` only,
with the canonical values 0, 1 and the immediate. -/
def Obligations.ScalarConstants : Prop :=
  ∀ (s : State) (d : RegField) (n : BitVec 16), ScalarModulusOk s.q → s.status.halted = false →
    (∃ t, exec (.szero d) s = .next t ∧ OkScalar s t (sIndex d) 0 0 ∧ t.canonical (sIndex d) = 0) ∧
    (∃ t, exec (.sone d) s = .next t ∧ OkScalar s t (sIndex d) (2 ^ 256 % s.q) 0 ∧ t.canonical (sIndex d) = 1) ∧
    (∃ t, exec (.simm d n) s = .next t ∧ OkScalar s t (sIndex d) (n.toNat * 2 ^ 256 % s.q) 0 ∧
      t.canonical (sIndex d) = n.toNat)

/-- 41_scalar_cmp_move.md R210, R212: NOP completes with ok and changes nothing but STATUS; SRAND takes one draw of 64
bytes, whatever they are, and writes `S[d]` only, with their little-endian integer modulo Q. -/
def Obligations.NopAndRandomScalar : Prop :=
  ∀ (s : State) (d : RegField), ScalarModulusOk s.q → s.status.halted = false →
    (∃ t, exec .nop s = .next t ∧ DoneOk s t ∧ OnlyStatus s t) ∧
    (∃ t m, exec (.srand d) s = .next t ∧ OkScalar s t (sIndex d) m 1 ∧ m < s.q ∧
      t.canonical (sIndex d) =
        (∑ k ∈ Finset.range 64, (Config.drawByte s.draws k).toNat * 256 ^ k) % s.q)

/-! ### Scalar codec -/

/-- 42_scalar_codec.md R230, R231: SLDLE and SLDBE of an integer below Q write `S[r]` only, with that canonical value; of
an integer of Q or more they complete with none(NOT_CANONICAL). -/
def Obligations.CanonicalScalarLoads : Prop :=
  ∀ (s : State) (r : RegField) (off : BitVec 6) (len : BitVec 12) (o : Nat), ScalarModulusOk s.q →
    s.status.halted = false → bufferRange off len 32 = .ok o →
    (leSum s.dbuf o 32 < s.q → ∃ t m, exec (.sldle r off len) s = .next t ∧ OkScalar s t (sIndex r) m 0 ∧ m < s.q ∧
      t.canonical (sIndex r) = leSum s.dbuf o 32) ∧
    (s.q ≤ leSum s.dbuf o 32 → ∃ t, exec (.sldle r off len) s = .next t ∧ EndsNone s t 1) ∧
    (beSum s.dbuf o 32 < s.q → ∃ t m, exec (.sldbe r off len) s = .next t ∧ OkScalar s t (sIndex r) m 0 ∧ m < s.q ∧
      t.canonical (sIndex r) = beSum s.dbuf o 32) ∧
    (s.q ≤ beSum s.dbuf o 32 → ∃ t, exec (.sldbe r off len) s = .next t ∧ EndsNone s t 1)

/-- 42_scalar_codec.md R240, R242, R244: the reducing loads always succeed on a range inside DBUF and write `S[r]` only,
with the integer modulo Q: 32 and 64 bytes little-endian, 48 bytes big-endian. -/
def Obligations.ReducingScalarLoads : Prop :=
  ∀ (s : State) (r : RegField) (off : BitVec 6) (len : BitVec 12) (o : Nat), ScalarModulusOk s.q →
    s.status.halted = false →
    (bufferRange off len 32 = .ok o → ∃ t m, exec (.sldraw r off len) s = .next t ∧
      OkScalar s t (sIndex r) m 0 ∧ m < s.q ∧ t.canonical (sIndex r) = leSum s.dbuf o 32 % s.q) ∧
    (bufferRange off len 64 = .ok o → ∃ t m, exec (.sldwide r off len) s = .next t ∧
      OkScalar s t (sIndex r) m 0 ∧ m < s.q ∧ t.canonical (sIndex r) = leSum s.dbuf o 64 % s.q) ∧
    (bufferRange off len 48 = .ok o → ∃ t m, exec (.sldokm r off len) s = .next t ∧
      OkScalar s t (sIndex r) m 0 ∧ m < s.q ∧ t.canonical (sIndex r) = beSum s.dbuf o 48 % s.q)

/-- 42_scalar_codec.md R232, R233: SSTLE and SSTBE complete and write the 32 bytes at the offset that `bufferRange` gives,
and nothing else: the canonical value, little-endian and big-endian. -/
def Obligations.ScalarStores : Prop :=
  ∀ (s : State) (r : RegField) (off : BitVec 6) (len : BitVec 12) (o : Nat), s.dbuf.wf = true →
    s.status.halted = false → s.sv[sIndex r] = true → bufferRange off len 32 = .ok o →
    (∃ t, exec (.sstle r off len) s = .next t ∧ OkBuffer s t o (leEncoding 32 (s.canonical (sIndex r)))) ∧
    (∃ t, exec (.sstbe r off len) s = .next t ∧ OkBuffer s t o (beEncoding 32 (s.canonical (sIndex r))))

/-- 42_scalar_codec.md R245: the five round-trip laws of the scalar codec. -/
def Obligations.ScalarCodecRoundTrips : Prop :=
  ∀ (s : State) (r : RegField) (off : BitVec 6) (len : BitVec 12) (o : Nat), ScalarModulusOk s.q → s.dbuf.wf = true →
    s.status.halted = false → bufferRange off len 32 = .ok o →
    (leSum s.dbuf o 32 < s.q → ∃ t u, exec (.sldle r off len) s = .next t ∧ exec (.sstle r off len) t = .next u ∧
      DoneOk t u ∧ SameBuffer s u) ∧
    (beSum s.dbuf o 32 < s.q → ∃ t u, exec (.sldbe r off len) s = .next t ∧ exec (.sstbe r off len) t = .next u ∧
      DoneOk t u ∧ SameBuffer s u) ∧
    (ReadyS s (sIndex r) → ∃ t u, exec (.sstle r off len) s = .next t ∧ exec (.sldle r off len) t = .next u ∧
      DoneOk t u ∧ SameScalars s u []) ∧
    (leSum s.dbuf o 32 < s.q → ∃ t u, exec (.sldle r off len) s = .next t ∧ exec (.sldraw r off len) s = .next u ∧
      t = u) ∧
    (∀ wide : BitVec 12, bufferRange off wide 64 = .ok o →
      (∀ k, 32 ≤ k → k < 64 → Memory.read s.dbuf (o + k) = 0) →
      ∃ t u, exec (.sldwide r off wide) s = .next t ∧ exec (.sldraw r off len) s = .next u ∧ t = u)

/-! ### The target group -/

/-- 43_gt_group.md R266 to R269: GADD, GSUB, GNEG and GDBL complete on any valid sources, members or not, and write
`G[d]` only, with the tower's answers. -/
def Obligations.GtRingCommands : Prop :=
  ∀ (s : State) (d a b : RegField) (hd : d.toNat < 8) (ha : a.toNat < 8) (hb : b.toNat < 8),
    s.status.halted = false → s.gv[a.toNat] = true → s.gv[b.toNat] = true →
    (∃ t, exec (.gadd d a b) s = .next t ∧
      OkGt s t ⟨d.toNat, hd⟩ (s.tower.mul12 s.greg[a.toNat] s.greg[b.toNat]) 0) ∧
    (∃ t, exec (.gsub d a b) s = .next t ∧
      OkGt s t ⟨d.toNat, hd⟩ (s.tower.mul12 s.greg[a.toNat] (s.tower.conj12 s.greg[b.toNat])) 0) ∧
    (∃ t, exec (.gneg d a) s = .next t ∧ OkGt s t ⟨d.toNat, hd⟩ (s.tower.conj12 s.greg[a.toNat]) 0) ∧
    (∃ t, exec (.gdbl d a) s = .next t ∧ OkGt s t ⟨d.toNat, hd⟩ (s.tower.sqr12 s.greg[a.toNat]) 0)

/-- 43_gt_group.md R270: GSMUL completes and writes `G[d]` only; under the laws of the tower it is the power of `G[a]` to
the canonical value of `S[b]`. -/
def Obligations.GtScalarMultiplyIsPower : Prop :=
  ∀ (s : State) (d a b : RegField) (hd : d.toNat < 8) (ha : a.toNat < 8), ScalarModulusOk s.q →
    BaseModulusOk s.p → s.tower.Lawful s.q s.p → s.status.halted = false → s.gv[a.toNat] = true →
    s.greg[a.toNat].inRange s.p = true → ReadyS s (sIndex b) →
    ∃ t, exec (.gsmul d a b) s = .next t ∧
      OkGt s t ⟨d.toNat, hd⟩ (s.tower.pow s.greg[a.toNat] (s.canonical (sIndex b))) 0

/-- 43_gt_group.md R271: the laws of scalar multiplication, under the laws of the tower. -/
def Obligations.GsmulLaws : Prop :=
  ∀ (q p : Nat) (tw : Tower) (g : Fp12), ScalarModulusOk q → BaseModulusOk p → tw.Lawful q p → g.inRange p = true →
    (∀ x < q, gsmul tw g x = tw.pow g x) ∧
    (tw.subg g = true → ∀ x y, x < q → y < q → gsmul tw (gsmul tw g x) y = gsmul tw g (x * y % q)) ∧
    (tw.subg g = true → gsmul tw g (q - 1) = tw.conj12 g) ∧
    ∀ x, gsmul tw Fp12.one x = Fp12.one

/-- 70_reset_and_hazards.md R388: GSMUL makes 255 TW_SQR12 calls, and one TW_MUL12 call per 1 bit among bits 254 to 0 of
the scalar: over a tower that counts its calls, the counts are these. -/
def Obligations.GsmulTowerCalls : Prop :=
  ∀ (g : Fp12) (x : Nat), (gsmul countingTower g x).hi.c0.c0.toNat = 255 ∧
    (gsmul countingTower g x).hi.c0.c1.toNat = ((List.range 255).filter x.testBit).length

/-- 43_gt_group.md R272: GINV writes `G[d]` only, with the tower's inverse, and completes with none(NON_INVERTIBLE) where
the tower gives none; under the laws of the tower that is exactly ZERO12, and otherwise it is the inverse. -/
def Obligations.GtInversion : Prop :=
  ∀ (s : State) (d a : RegField) (hd : d.toNat < 8) (ha : a.toNat < 8), s.status.halted = false →
    s.gv[a.toNat] = true →
    (∀ b, s.tower.inv12 s.greg[a.toNat] = some b →
      ∃ t, exec (.ginv d a) s = .next t ∧ OkGt s t ⟨d.toNat, hd⟩ b 0) ∧
    (s.tower.inv12 s.greg[a.toNat] = none → ∃ t, exec (.ginv d a) s = .next t ∧ EndsNone s t 3) ∧
    (s.tower.Lawful s.q s.p → s.greg[a.toNat].inRange s.p = true →
      (s.greg[a.toNat] = Fp12.zero → ∃ t, exec (.ginv d a) s = .next t ∧ EndsNone s t 3) ∧
      (s.greg[a.toNat] ≠ Fp12.zero → ∃ t, exec (.ginv d a) s = .next t ∧ t.status.ok = true ∧
        s.tower.mul12 s.greg[a.toNat] t.greg[d.toNat] = Fp12.one))

/-- 43_gt_group.md R273, R274, R277: GONE, GGEN and GMOV complete and write `G[d]` only, with ONE12, GT_GEN and `G[a]`. -/
def Obligations.GtConstantsAndMove : Prop :=
  ∀ (s : State) (d : RegField) (hd : d.toNat < 8), s.status.halted = false →
    (∃ t, exec (.gone d) s = .next t ∧ OkGt s t ⟨d.toNat, hd⟩ Fp12.one 0) ∧
    (∃ t, exec (.ggen d) s = .next t ∧ OkGt s t ⟨d.toNat, hd⟩ s.platform.gtGen 0) ∧
    ∀ (a : RegField) (_ : a.toNat < 8), s.gv[a.toNat] = true →
      ∃ t, exec (.gmov d a) s = .next t ∧ OkGt s t ⟨d.toNat, hd⟩ s.greg[a.toNat] 0

/-- 43_gt_group.md R275, R276, R282: GISID, GEQ and GSUBG complete and write RESULT only: equality with ONE12 and of two
registers, component by component, and the tower's membership test. -/
def Obligations.GtQueries : Prop :=
  ∀ (s : State) (a b : RegField) (_ : a.toNat < 8) (_ : b.toNat < 8), s.status.halted = false →
    s.gv[a.toNat] = true → s.gv[b.toNat] = true →
    (∃ t, exec (.gisid a) s = .next t ∧
      OkResult s t (if s.greg[a.toNat].comps = 1 :: List.replicate 11 0 then 1 else 0)) ∧
    (∃ t, exec (.geq a b) s = .next t ∧
      OkResult s t (if s.greg[a.toNat].comps = s.greg[b.toNat].comps then 1 else 0)) ∧
    (∃ t, exec (.gsubg a) s = .next t ∧
      OkResult s t (if s.tower.subg s.greg[a.toNat] = true then 1 else 0))

/-- 43_gt_group.md R279, R280: GRAND answers for every draw. Where the 12 draws, each in [0, P), are not all zero it
completes and writes `G[d]` only, with TW_FEXP of the drawn element, a member under the laws of the tower. Where they are
all zero it goes on to another round: that one step is one round, which takes its draws, leaves the command pending and
changes nothing else, is the model's reading (log entry 3). -/
def Obligations.GtRandomElement : Prop :=
  ∀ (s : State) (d : RegField) (hd : d.toNat < 8), BaseModulusOk s.p → s.status.halted = false →
    s.drawFp12.inRange s.p = true ∧
    ∃ t, exec (.grand d) s = .next t ∧
      if s.drawFp12 = Fp12.zero then t = { s with draws := s.draws + 1 }
      else OkGt s t ⟨d.toNat, hd⟩ (s.tower.fexp s.drawFp12) 1 ∧
        (s.tower.Lawful s.q s.p → t.tower.subg t.greg[d.toNat] = true)

/-- 43_gt_group.md R278, R272: under the laws of the tower, on members, GADD, GSUB, GNEG, GDBL, GSMUL, GINV and GMOV
complete and write `G[d]` with a member; so do GONE, and GGEN where the generator is one; GNEG and GINV end in the same
state. -/
def Obligations.SubgroupIsClosed : Prop :=
  ∀ (s : State) (d a b c : RegField) (_ : d.toNat < 8) (_ : a.toNat < 8) (_ : b.toNat < 8),
    ScalarModulusOk s.q → BaseModulusOk s.p → s.tower.Lawful s.q s.p → s.status.halted = false →
    s.gv[a.toNat] = true → s.greg[a.toNat].inRange s.p = true → s.tower.subg s.greg[a.toNat] = true →
    s.gv[b.toNat] = true → s.greg[b.toNat].inRange s.p = true → s.tower.subg s.greg[b.toNat] = true →
    s.sv[sIndex c] = true →
    (∀ i ∈ [Instr.gadd d a b, .gsub d a b, .gneg d a, .gdbl d a, .gsmul d a c, .ginv d a, .gmov d a, .gone d],
      ∃ t, exec i s = .next t ∧ DoneOk s t ∧ t.gv[d.toNat] = true ∧ t.greg[d.toNat].inRange s.p = true ∧
        s.tower.subg t.greg[d.toNat] = true) ∧
    (s.platform.gtGen.inRange s.p = true → s.tower.subg s.platform.gtGen = true →
      ∃ t, exec (.ggen d) s = .next t ∧ DoneOk s t ∧ t.gv[d.toNat] = true ∧
        t.greg[d.toNat].inRange s.p = true ∧ s.tower.subg t.greg[d.toNat] = true) ∧
    exec (.gneg d a) s = exec (.ginv d a) s ∧
    s.tower.inv12 s.greg[a.toNat] = some (s.tower.conj12 s.greg[a.toNat]) ∧
    s.tower.subg (s.tower.mul12 s.greg[a.toNat] s.greg[b.toNat]) = true ∧
    s.tower.subg (s.tower.mul12 s.greg[a.toNat] (s.tower.conj12 s.greg[b.toNat])) = true ∧
    s.tower.subg (s.tower.conj12 s.greg[a.toNat]) = true ∧ s.tower.subg (s.tower.sqr12 s.greg[a.toNat]) = true ∧
    (∀ x, s.tower.subg (gsmul s.tower s.greg[a.toNat] x) = true) ∧ s.tower.subg Fp12.one = true

/-! ### Gt codec and torus -/

/-- 44_gt_codec_torus.md R300 to R302: a range with a component of P or more gives none(NOT_CANONICAL), in GLD before
membership is looked at; GLDU writes `G[r]` only, with the 12 big-endian components; GLD does so where they are a
member's, and otherwise gives none(NOT_IN_SUBGROUP). -/
def Obligations.GtLoads : Prop :=
  ∀ (s : State) (r : RegField) (hr : r.toNat < 8) (off : BitVec 6) (len : BitVec 12) (o : Nat),
    s.status.halted = false → bufferRange off len 576 = .ok o →
    ((∃ k < 12, s.p ≤ beSum s.dbuf (o + 48 * k) 48) →
      (∃ t, exec (.gld r off len) s = .next t ∧ EndsNone s t 1) ∧
      (∃ t, exec (.gldu r off len) s = .next t ∧ EndsNone s t 1)) ∧
    ((∀ k < 12, beSum s.dbuf (o + 48 * k) 48 < s.p) →
      ∃ g : Fp12, g.comps.map BitVec.toNat = (List.range 12).map (fun k => beSum s.dbuf (o + 48 * k) 48) ∧
        (∃ t, exec (.gldu r off len) s = .next t ∧ OkGt s t ⟨r.toNat, hr⟩ g 0) ∧
        (s.tower.subg g = true → ∃ t, exec (.gld r off len) s = .next t ∧ OkGt s t ⟨r.toNat, hr⟩ g 0) ∧
        (s.tower.subg g = false → ∃ t, exec (.gld r off len) s = .next t ∧ EndsNone s t 4))

/-- 44_gt_codec_torus.md R303, R304: GST completes and writes the 576 bytes at the offset that `bufferRange` gives, and
nothing else: 12 big-endian components; the encoding of ONE12 is 1 at byte 47 and 0 elsewhere. -/
def Obligations.GtStore : Prop :=
  ∀ (s : State) (r : RegField) (_ : r.toNat < 8) (off : BitVec 6) (len : BitVec 12) (o : Nat), s.dbuf.wf = true →
    s.status.halted = false → s.gv[r.toNat] = true → bufferRange off len 576 = .ok o →
    ∃ t, exec (.gst r off len) s = .next t ∧ OkBuffer s t o (vectorEncoding beEncoding s.greg[r.toNat].comps) ∧
      (vectorEncoding beEncoding s.greg[r.toNat].comps).length = 576 ∧
      (s.greg[r.toNat] = Fp12.one →
        ∀ k < 576, Memory.read t.dbuf (o + k) = if k = 47 then 1 else 0)

/-- 44_gt_codec_torus.md R303: the bytes that GST writes decode with GLDU to the same vector, and with GLD exactly where
it is a member. -/
def Obligations.GtStoreLoadRoundTrip : Prop :=
  ∀ (s : State) (r r' : RegField) (_ : r.toNat < 8) (hr' : r'.toNat < 8) (off : BitVec 6) (len : BitVec 12) (o : Nat),
    s.dbuf.wf = true → s.status.halted = false → s.gv[r.toNat] = true → s.greg[r.toNat].inRange s.p = true →
    bufferRange off len 576 = .ok o →
    ∃ t, exec (.gst r off len) s = .next t ∧
      (∃ u, exec (.gldu r' off len) t = .next u ∧ OkGt t u ⟨r'.toNat, hr'⟩ s.greg[r.toNat] 0) ∧
      (s.tower.subg s.greg[r.toNat] = true →
        ∃ u, exec (.gld r' off len) t = .next u ∧ OkGt t u ⟨r'.toNat, hr'⟩ s.greg[r.toNat] 0) ∧
      (s.tower.subg s.greg[r.toNat] = false → ∃ u, exec (.gld r' off len) t = .next u ∧ EndsNone t u 4)

/-- 44_gt_codec_torus.md R305, R309: GCMPR writes `T[d]` only, with inverse(c1) · addone(c0), and completes with
none(NON_INVERTIBLE) where c1 has no inverse; under the laws of the tower that is exactly where c1 is ZERO6. -/
def Obligations.TorusCompression : Prop :=
  ∀ (s : State) (d a : RegField) (hd : d.toNat < 4) (ha : a.toNat < 8), s.status.halted = false →
    s.gv[a.toNat] = true →
    (∀ i, s.tower.inv6 s.greg[a.toNat].hi = some i →
      ∃ t, exec (.gcmpr d a) s = .next t ∧
        OkTorus s t ⟨d.toNat, hd⟩ (s.tower.mul6 i (addone s.p s.greg[a.toNat].lo))) ∧
    (s.tower.inv6 s.greg[a.toNat].hi = none → ∃ t, exec (.gcmpr d a) s = .next t ∧ EndsNone s t 3) ∧
    (s.tower.Lawful s.q s.p → s.greg[a.toNat].inRange s.p = true →
      (s.tower.inv6 s.greg[a.toNat].hi = none ↔ s.greg[a.toNat].hi = Fp6.zero))

/-- 44_gt_codec_torus.md R307: GUNCMPR writes `G[d]` only, with (t, 1) · inverse((t, -1)), where that is a member, and
otherwise completes with none(NOT_IN_SUBGROUP); none(NON_INVERTIBLE) is left to a tower outside the laws. -/
def Obligations.TorusUncompression : Prop :=
  ∀ (s : State) (d a : RegField) (hd : d.toNat < 8) (ha : a.toNat < 4), s.status.halted = false →
    s.tv[a.toNat] = true →
    (∀ y, s.tower.inv12 ⟨s.treg[a.toNat], minusOne6 s.p⟩ = some y →
      (s.tower.subg (s.tower.mul12 ⟨s.treg[a.toNat], Fp6.one⟩ y) = true →
        ∃ t, exec (.guncmpr d a) s = .next t ∧
          OkGt s t ⟨d.toNat, hd⟩ (s.tower.mul12 ⟨s.treg[a.toNat], Fp6.one⟩ y) 0) ∧
      (s.tower.subg (s.tower.mul12 ⟨s.treg[a.toNat], Fp6.one⟩ y) = false →
        ∃ t, exec (.guncmpr d a) s = .next t ∧ EndsNone s t 4)) ∧
    (s.tower.inv12 ⟨s.treg[a.toNat], minusOne6 s.p⟩ = none →
      ∃ t, exec (.guncmpr d a) s = .next t ∧ EndsNone s t 3) ∧
    (s.tower.Lawful s.q s.p → BaseModulusOk s.p → s.treg[a.toNat].inRange s.p = true →
      ∃ y, s.tower.inv12 ⟨s.treg[a.toNat], minusOne6 s.p⟩ = some y)

/-- 44_gt_codec_torus.md R310, R311: TLD writes `T[r]` only, with the 6 little-endian components, or gives
none(NOT_CANONICAL) where one of them is P or more; TST writes the 288 bytes at the offset that `bufferRange` gives and
nothing else: 6 little-endian components. -/
def Obligations.TorusLoadAndStore : Prop :=
  ∀ (s : State) (r : RegField) (hr : r.toNat < 4) (off : BitVec 6) (len : BitVec 12) (o : Nat),
    s.status.halted = false → bufferRange off len 288 = .ok o →
    ((∃ k < 6, s.p ≤ leSum s.dbuf (o + 48 * k) 48) → ∃ t, exec (.tld r off len) s = .next t ∧ EndsNone s t 1) ∧
    ((∀ k < 6, leSum s.dbuf (o + 48 * k) 48 < s.p) →
      ∃ x : Fp6, x.comps.map BitVec.toNat = (List.range 6).map (fun k => leSum s.dbuf (o + 48 * k) 48) ∧
        ∃ t, exec (.tld r off len) s = .next t ∧ OkTorus s t ⟨r.toNat, hr⟩ x) ∧
    (s.dbuf.wf = true → s.tv[r.toNat] = true →
      ∃ t, exec (.tst r off len) s = .next t ∧ OkBuffer s t o (vectorEncoding leEncoding s.treg[r.toNat].comps))

/-- 44_gt_codec_torus.md R308, R309: at the recommended parameters, compressing a member whose upper half is not ZERO6 and
uncompressing the result gives the member back; uncompressing a nonzero torus value, where it succeeds, and compressing
the result gives the value back; and the identity is the only member that cannot be compressed. For every tower that
meets all the laws of 43_gt_group.md R263, GCMPR of a member whose upper half is not ZERO6 and then GUNCMPR complete and
write the member to `G[e]`. -/
def Obligations.TorusRoundTrip : Prop :=
  (let tw := recommendedTower Config.recommendedQ Config.recommendedP
   let p := Config.recommendedP
   (∀ g : Fp12, g.inRange p = true → tw.subg g = true → g.hi ≠ Fp6.zero →
     ∃ t, compress tw p g = some t ∧ uncompress tw p t = .ok g) ∧
   (∀ (x : Fp6) (g : Fp12), x.inRange p = true → x ≠ Fp6.zero → uncompress tw p x = .ok g →
     compress tw p g = some x) ∧
   (∀ g : Fp12, g.inRange p = true → tw.subg g = true → (compress tw p g = none ↔ g = Fp12.one))) ∧
  ∀ (s : State) (d a e : RegField) (hd : d.toNat < 4) (_ : a.toNat < 8) (he : e.toNat < 8),
    s.tower.AllLaws s.q s.p → s.status.halted = false → s.gv[a.toNat] = true → s.greg[a.toNat].inRange s.p = true →
    s.tower.subg s.greg[a.toNat] = true → s.greg[a.toNat].hi ≠ Fp6.zero →
    ∃ t u x, exec (.gcmpr d a) s = .next t ∧ OkTorus s t ⟨d.toNat, hd⟩ x ∧
      exec (.guncmpr e d) t = .next u ∧ OkGt t u ⟨e.toNat, he⟩ s.greg[a.toNat] 0

/-! ### The host bus -/

/-- 20_memory.md R90, R93 to R95: what a command holds is every access that reaches the block while it is pending, other
than a 4-byte read of ID or STATUS (that a read of these offsets of another width is held is log entry 7). An access that
comes while none waits is performed at once where no command is pending; while one is, a held one must wait (and the step
that takes it changes nothing but the inputs and the held accesses: log entry 21), and a read of ID or STATUS is answered
at once and changes nothing else. An access behind a waiting one waits too. The oldest waiting access is performed,
unless rst_n takes a level first, once no command holds it: none is pending, or it is a read of ID or STATUS, which is
then answered at once though one is pending. While a command is pending that holds the oldest waiting access, if there is one, and no
access comes, the step is the engine's (log entry 4). A 4-byte write to CMD is accepted where no command is pending: PEND
holds the word, BUSY is 1, and nothing else changes. -/
def Obligations.HoldRuleAndAcceptance : Prop :=
  (∀ (s : State) (a : Access), s.mustWait a = true ↔
    s.busy = true ∧ s.rstN = true ∧ baseOf s.platform ≤ a.addr ∧ a.addr < baseOf s.platform + 0x800 ∧
      ¬ ∃ addr, a = .read addr .word ∧ (addr % 0x800 = 0x000 ∨ addr % 0x800 = 0x008)) ∧
  (∀ (s : State) (a : Access) (rest : List Input), s.inputs = .access a :: rest → s.held = [] →
    (s.busy = false → step s = .next (State.perform { s with inputs := rest } a)) ∧
    (s.busy = true → s.rstN = true → baseOf s.platform ≤ a.addr → a.addr < baseOf s.platform + 0x800 →
      (¬ (∃ addr, a = .read addr .word ∧ (addr % 0x800 = 0x000 ∨ addr % 0x800 = 0x008)) →
        step s = .next { s with inputs := rest, held := [a] }) ∧
      (∀ addr, a = .read addr .word → addr % 0x800 = 0x000 →
        step s = .next { s with inputs := rest, lastResp := some ⟨.okay, some 0x424C5301⟩ }) ∧
      (∀ addr, a = .read addr .word → addr % 0x800 = 0x008 →
        step s = .next { s with inputs := rest, lastResp := some ⟨.okay, some s.statusWord⟩ })) ∧
    (s.busy = false → s.rstN = true → baseOf s.platform ≤ a.addr → a.addr < baseOf s.platform + 0x800 →
      ∀ addr w, a = .write addr .word w → addr % 0x800 = 0x010 →
        step s = .next { s with inputs := rest, pend := some w, lastResp := some ⟨.okay, none⟩ })) ∧
  (∀ (s : State) (a b : Access) (waiting : List Access) (rest : List Input), s.held = b :: waiting →
    s.mustWait b = true → s.inputs = .access a :: rest →
    step s = .next { s with inputs := rest, held := b :: waiting ++ [a] }) ∧
  (∀ (s : State) (a : Access) (waiting : List Access), s.held = a :: waiting →
    (∀ level rest, s.inputs ≠ .rstN level :: rest) →
    (s.mustWait a = false → step s = .next (State.perform { s with held := waiting } a)) ∧
    (s.rstN = true → baseOf s.platform ≤ a.addr → a.addr < baseOf s.platform + 0x800 →
      (∀ addr, a = .read addr .word → addr % 0x800 = 0x000 →
        step s = .next { s with held := waiting, lastResp := some ⟨.okay, some 0x424C5301⟩ }) ∧
      (∀ addr, a = .read addr .word → addr % 0x800 = 0x008 →
        step s = .next { s with held := waiting, lastResp := some ⟨.okay, some s.statusWord⟩ }))) ∧
  ∀ s : State, s.busy = true → (∀ b waiting, s.held = b :: waiting → s.mustWait b = true) →
    (s.inputs = [] → step s = engineTurn s) ∧
    ∀ rest, s.inputs = .idle :: rest → step s = engineTurn { s with inputs := rest }

/-- 10_state.md R47 to R51, R54, 20_memory.md R90: the bits of STATUS and CTRL as the host reads them; a host read of ID,
CTRL, STATUS, RESULT or CMD answers with the register, and with 0 for CMD, and changes nothing; what a write to STATUS
clears; a write to ID or RESULT is ignored, with OKAY; and IRQ. -/
def Obligations.StatusRegister : Prop :=
  ∀ (s : State) (data : Word),
    (s.statusWord.getLsbD 0 = s.pend.isSome ∧ s.statusWord.getLsbD 1 = s.status.done ∧
      s.statusWord.getLsbD 2 = s.status.ok ∧ s.statusWord.getLsbD 3 = s.status.noneFlag ∧
      s.statusWord.getLsbD 4 = s.status.err ∧ s.statusWord.getLsbD 5 = s.status.halted ∧
      s.statusWord.extractLsb' 6 2 = 0 ∧ s.statusWord.extractLsb' 8 4 = s.status.reason ∧
      s.statusWord.extractLsb' 12 4 = 0 ∧ s.statusWord.extractLsb' 16 8 = s.status.ecode ∧
      s.statusWord.extractLsb' 24 8 = 0) ∧
    (s.ctrlWord.getLsbD 0 = s.ie ∧ s.ctrlWord.extractLsb' 1 31 = 0) ∧
    (∀ addr, s.addressed (.read addr .word) = true →
      (addr % 0x800 = 0x000 → s.perform (.read addr .word) = { s with lastResp := some ⟨.okay, some 0x424C5301⟩ }) ∧
      (addr % 0x800 = 0x004 → s.perform (.read addr .word) = { s with lastResp := some ⟨.okay, some s.ctrlWord⟩ }) ∧
      (addr % 0x800 = 0x008 → s.perform (.read addr .word) = { s with lastResp := some ⟨.okay, some s.statusWord⟩ }) ∧
      (addr % 0x800 = 0x00C → s.perform (.read addr .word) = { s with lastResp := some ⟨.okay, some s.result⟩ }) ∧
      (addr % 0x800 = 0x010 → s.perform (.read addr .word) = { s with lastResp := some ⟨.okay, some 0⟩ })) ∧
    (∀ addr, s.addressed (.write addr .word data) = true → addr % 0x800 = 0x000 ∨ addr % 0x800 = 0x00C →
      s.perform (.write addr .word data) = { s with lastResp := some ⟨.okay, none⟩ }) ∧
    (∀ addr, s.addressed (.write addr .word data) = true → addr % 0x800 = 0x008 →
      s.perform (.write addr .word data) =
        { s with
          lastResp := some ⟨.okay, none⟩
          status := { s.status with
            done := if data.getLsbD 1 then false else s.status.done
            noneFlag := if data.getLsbD 3 then false else s.status.noneFlag
            err := if data.getLsbD 4 then false else s.status.err
            ecode := if data.getLsbD 4 then 0 else s.status.ecode } }) ∧
    (s.irq = true ↔ s.ctrlWord.getLsbD 0 = true ∧ s.statusWord.getLsbD 1 = true)

/-- 10_state.md R48, R60, 60_exceptions.md R349, 70_reset_and_hazards.md R370, R371, R389: a write to CTRL sets IE from
bit 0 and, where bit 1 is 1, resets the block, IE included. A level 0 of rst_n, and a level 1 where it was 0, leave the
block in the state of R60 in the very next step, whatever command is pending and whatever accesses wait; a level 1 where
it is 1 already is no event (log entry 15). What the resets keep of the model's own fields is log entry 16, and that the
soft reset keeps the accesses that wait and the hard one drops them is log entry 21. While rst_n is 0 an access gets no
response and does nothing, and it is dropped (log entry 8). -/
def Obligations.ControlAndReset : Prop :=
  ∀ (s : State) (data : Word),
    (∀ addr, s.addressed (.write addr .word data) = true → addr % 0x800 = 0x004 →
      (data.getLsbD 1 = false →
        s.perform (.write addr .word data) =
          { s with ie := data.getLsbD 0, lastResp := some ⟨.okay, none⟩ }) ∧
      (data.getLsbD 1 = true →
        s.perform (.write addr .word data) =
          { State.reset with platform := s.platform, draws := s.draws, inputs := s.inputs, held := s.held,
                             rstN := s.rstN, lastResp := some ⟨.okay, none⟩ })) ∧
    (∀ level rest, s.inputs = .rstN level :: rest → (level = true → s.rstN = false) → step s =
      .next { State.reset with platform := s.platform, draws := s.draws, inputs := rest, lastResp := s.lastResp,
                               rstN := level }) ∧
    (∀ rest, s.inputs = .rstN true :: rest → s.rstN = true → step s = .next { s with inputs := rest }) ∧
    (s.rstN = false → ∀ a, s.perform a = { s with lastResp := none })

/-- 20_memory.md R88, R89, 60_exceptions.md R346: an access that reaches the block and is misaligned, of a wrong width for
a register, or at a reserved offset, gets the ERROR response and changes nothing; a read returns 0 as its data. -/
def Obligations.BusErrorsChangeNothing : Prop :=
  ∀ (s : State) (a : Access), s.addressed a = true →
    (a.addr % 0x800 < 0x014 ∧ (a.width ≠ .word ∨ a.addr % 4 ≠ 0)) ∨
      (0x014 ≤ a.addr % 0x800 ∧ a.addr % 0x800 < 0x400) ∨
      (0x400 ≤ a.addr % 0x800 ∧ a.addr % a.width.bytes ≠ 0) →
    (∀ addr width, a = .read addr width → s.perform a = { s with lastResp := some ⟨.error, some 0⟩ }) ∧
    ∀ addr width data, a = .write addr width data → s.perform a = { s with lastResp := some ⟨.error, none⟩ }

/-- 20_memory.md R80, R86, R90: an aligned write to DBUF puts byte j of the data at offset k + j, and nothing elsewhere; an
aligned read returns the bytes in the same order and changes nothing. That the bits of the read data above a narrow
access's bytes are 0 is the model's reading (log entry 22). -/
def Obligations.HostBufferAccesses : Prop :=
  ∀ (s : State) (addr : Nat) (width : Width) (data : Word), s.dbuf.wf = true →
    0x400 ≤ addr % 0x800 → addr % width.bytes = 0 →
    (s.addressed (.write addr width data) = true →
      (∀ j < width.bytes, Memory.read (s.perform (.write addr width data)).dbuf (addr % 0x800 - 0x400 + j) =
        data.extractLsb' (8 * j) 8) ∧
      SameBufferOutside s (s.perform (.write addr width data)) (addr % 0x800 - 0x400) width.bytes ∧
      (s.perform (.write addr width data)).dbuf.wf = true ∧
      { s.perform (.write addr width data) with dbuf := s.dbuf } = { s with lastResp := some ⟨.okay, none⟩ }) ∧
    (s.addressed (.read addr width) = true →
      ∃ v : Word, s.perform (.read addr width) = { s with lastResp := some ⟨.okay, some v⟩ } ∧
        v.toNat = leSum s.dbuf (addr % 0x800 - 0x400) width.bytes)

/-! ### The Montgomery engine -/

/-- 40_scalar_arith.md R162, R164: the limb algorithms compute MontMul and MontRed, for every operand in their ranges. -/
def Obligations.LimbAlgorithmsComputeMontgomery : Prop :=
  ∀ q, ScalarModulusOk q →
    (∀ a b, a < 2 ^ 256 → b < q → cios q a b = montMul q a b) ∧
    (∀ x, x < q * 2 ^ 256 → redc q x = montRed q x)

/-- 40_scalar_arith.md R160, R165, R166, 42_scalar_codec.md R241, R243: conversion in and out of residue form by the
multiplier and the reducer, the product of residues, and the wide reduction from two halves. -/
def Obligations.ConversionsAndWideReduction : Prop :=
  ∀ q, ScalarModulusOk q →
    (∀ x, convertIn q x = res q (x % q)) ∧
    (∀ m, m < q → montRed q m = val q m) ∧
    (∀ x y, montMul q (res q x) (res q y) = res q (x * y % q)) ∧
    (∀ x y, x < q → y < q → modAdd q (res q x) (res q y) = res q ((x + y) % q)) ∧
    (∀ v, wideReduce q v = res q (v % q))

end Statements
end

