-- ==== Sys2Proof/Laws/State.lean ====
section
/-! SUPPORT. One lemma per field per update of State, so that no proof unfolds a record update. -/

namespace Sys2Proof.Machine

/-! ### setS -/

@[simp] theorem State.setS_sreg (s : State) (i : Fin 16) (m : Nat) : (s.setS i m).sreg = s.sreg.set i (BitVec.ofNat 256 m) := rfl
@[simp] theorem State.setS_sv (s : State) (i : Fin 16) (m : Nat) : (s.setS i m).sv = s.sv.set i true := rfl
@[simp] theorem State.setS_greg (s : State) (i : Fin 16) (m : Nat) : (s.setS i m).greg = s.greg := rfl
@[simp] theorem State.setS_gv (s : State) (i : Fin 16) (m : Nat) : (s.setS i m).gv = s.gv := rfl
@[simp] theorem State.setS_treg (s : State) (i : Fin 16) (m : Nat) : (s.setS i m).treg = s.treg := rfl
@[simp] theorem State.setS_tv (s : State) (i : Fin 16) (m : Nat) : (s.setS i m).tv = s.tv := rfl
@[simp] theorem State.setS_dbuf (s : State) (i : Fin 16) (m : Nat) : (s.setS i m).dbuf = s.dbuf := rfl
@[simp] theorem State.setS_ie (s : State) (i : Fin 16) (m : Nat) : (s.setS i m).ie = s.ie := rfl
@[simp] theorem State.setS_status (s : State) (i : Fin 16) (m : Nat) : (s.setS i m).status = s.status := rfl
@[simp] theorem State.setS_result (s : State) (i : Fin 16) (m : Nat) : (s.setS i m).result = s.result := rfl
@[simp] theorem State.setS_pend (s : State) (i : Fin 16) (m : Nat) : (s.setS i m).pend = s.pend := rfl
@[simp] theorem State.setS_platform (s : State) (i : Fin 16) (m : Nat) : (s.setS i m).platform = s.platform := rfl
@[simp] theorem State.setS_draws (s : State) (i : Fin 16) (m : Nat) : (s.setS i m).draws = s.draws := rfl
@[simp] theorem State.setS_inputs (s : State) (i : Fin 16) (m : Nat) : (s.setS i m).inputs = s.inputs := rfl
@[simp] theorem State.setS_held (s : State) (i : Fin 16) (m : Nat) : (s.setS i m).held = s.held := rfl
@[simp] theorem State.setS_lastResp (s : State) (i : Fin 16) (m : Nat) : (s.setS i m).lastResp = s.lastResp := rfl
@[simp] theorem State.setS_rstN (s : State) (i : Fin 16) (m : Nat) : (s.setS i m).rstN = s.rstN := rfl
@[simp] theorem State.setS_q (s : State) (i : Fin 16) (m : Nat) : (s.setS i m).q = s.q := rfl
@[simp] theorem State.setS_p (s : State) (i : Fin 16) (m : Nat) : (s.setS i m).p = s.p := rfl
@[simp] theorem State.setS_tower (s : State) (i : Fin 16) (m : Nat) : (s.setS i m).tower = s.tower := rfl

/-! ### writeScalar -/

@[simp] theorem State.writeScalar_sreg (s : State) (i : Fin 16) (x : Nat) : (s.writeScalar i x).sreg = s.sreg.set i (BitVec.ofNat 256 (res s.q x)) := rfl
@[simp] theorem State.writeScalar_sv (s : State) (i : Fin 16) (x : Nat) : (s.writeScalar i x).sv = s.sv.set i true := rfl
@[simp] theorem State.writeScalar_greg (s : State) (i : Fin 16) (x : Nat) : (s.writeScalar i x).greg = s.greg := rfl
@[simp] theorem State.writeScalar_gv (s : State) (i : Fin 16) (x : Nat) : (s.writeScalar i x).gv = s.gv := rfl
@[simp] theorem State.writeScalar_treg (s : State) (i : Fin 16) (x : Nat) : (s.writeScalar i x).treg = s.treg := rfl
@[simp] theorem State.writeScalar_tv (s : State) (i : Fin 16) (x : Nat) : (s.writeScalar i x).tv = s.tv := rfl
@[simp] theorem State.writeScalar_dbuf (s : State) (i : Fin 16) (x : Nat) : (s.writeScalar i x).dbuf = s.dbuf := rfl
@[simp] theorem State.writeScalar_ie (s : State) (i : Fin 16) (x : Nat) : (s.writeScalar i x).ie = s.ie := rfl
@[simp] theorem State.writeScalar_status (s : State) (i : Fin 16) (x : Nat) : (s.writeScalar i x).status = s.status := rfl
@[simp] theorem State.writeScalar_result (s : State) (i : Fin 16) (x : Nat) : (s.writeScalar i x).result = s.result := rfl
@[simp] theorem State.writeScalar_pend (s : State) (i : Fin 16) (x : Nat) : (s.writeScalar i x).pend = s.pend := rfl
@[simp] theorem State.writeScalar_platform (s : State) (i : Fin 16) (x : Nat) : (s.writeScalar i x).platform = s.platform := rfl
@[simp] theorem State.writeScalar_draws (s : State) (i : Fin 16) (x : Nat) : (s.writeScalar i x).draws = s.draws := rfl
@[simp] theorem State.writeScalar_inputs (s : State) (i : Fin 16) (x : Nat) : (s.writeScalar i x).inputs = s.inputs := rfl
@[simp] theorem State.writeScalar_held (s : State) (i : Fin 16) (x : Nat) : (s.writeScalar i x).held = s.held := rfl
@[simp] theorem State.writeScalar_lastResp (s : State) (i : Fin 16) (x : Nat) : (s.writeScalar i x).lastResp = s.lastResp := rfl
@[simp] theorem State.writeScalar_rstN (s : State) (i : Fin 16) (x : Nat) : (s.writeScalar i x).rstN = s.rstN := rfl
@[simp] theorem State.writeScalar_q (s : State) (i : Fin 16) (x : Nat) : (s.writeScalar i x).q = s.q := rfl
@[simp] theorem State.writeScalar_p (s : State) (i : Fin 16) (x : Nat) : (s.writeScalar i x).p = s.p := rfl
@[simp] theorem State.writeScalar_tower (s : State) (i : Fin 16) (x : Nat) : (s.writeScalar i x).tower = s.tower := rfl

/-! ### setG -/

@[simp] theorem State.setG_sreg (s : State) (i : Fin 8) (a : Fp12) : (s.setG i a).sreg = s.sreg := rfl
@[simp] theorem State.setG_sv (s : State) (i : Fin 8) (a : Fp12) : (s.setG i a).sv = s.sv := rfl
@[simp] theorem State.setG_greg (s : State) (i : Fin 8) (a : Fp12) : (s.setG i a).greg = s.greg.set i a := rfl
@[simp] theorem State.setG_gv (s : State) (i : Fin 8) (a : Fp12) : (s.setG i a).gv = s.gv.set i true := rfl
@[simp] theorem State.setG_treg (s : State) (i : Fin 8) (a : Fp12) : (s.setG i a).treg = s.treg := rfl
@[simp] theorem State.setG_tv (s : State) (i : Fin 8) (a : Fp12) : (s.setG i a).tv = s.tv := rfl
@[simp] theorem State.setG_dbuf (s : State) (i : Fin 8) (a : Fp12) : (s.setG i a).dbuf = s.dbuf := rfl
@[simp] theorem State.setG_ie (s : State) (i : Fin 8) (a : Fp12) : (s.setG i a).ie = s.ie := rfl
@[simp] theorem State.setG_status (s : State) (i : Fin 8) (a : Fp12) : (s.setG i a).status = s.status := rfl
@[simp] theorem State.setG_result (s : State) (i : Fin 8) (a : Fp12) : (s.setG i a).result = s.result := rfl
@[simp] theorem State.setG_pend (s : State) (i : Fin 8) (a : Fp12) : (s.setG i a).pend = s.pend := rfl
@[simp] theorem State.setG_platform (s : State) (i : Fin 8) (a : Fp12) : (s.setG i a).platform = s.platform := rfl
@[simp] theorem State.setG_draws (s : State) (i : Fin 8) (a : Fp12) : (s.setG i a).draws = s.draws := rfl
@[simp] theorem State.setG_inputs (s : State) (i : Fin 8) (a : Fp12) : (s.setG i a).inputs = s.inputs := rfl
@[simp] theorem State.setG_held (s : State) (i : Fin 8) (a : Fp12) : (s.setG i a).held = s.held := rfl
@[simp] theorem State.setG_lastResp (s : State) (i : Fin 8) (a : Fp12) : (s.setG i a).lastResp = s.lastResp := rfl
@[simp] theorem State.setG_rstN (s : State) (i : Fin 8) (a : Fp12) : (s.setG i a).rstN = s.rstN := rfl
@[simp] theorem State.setG_q (s : State) (i : Fin 8) (a : Fp12) : (s.setG i a).q = s.q := rfl
@[simp] theorem State.setG_p (s : State) (i : Fin 8) (a : Fp12) : (s.setG i a).p = s.p := rfl
@[simp] theorem State.setG_tower (s : State) (i : Fin 8) (a : Fp12) : (s.setG i a).tower = s.tower := rfl

/-! ### setT -/

@[simp] theorem State.setT_sreg (s : State) (i : Fin 4) (t : Fp6) : (s.setT i t).sreg = s.sreg := rfl
@[simp] theorem State.setT_sv (s : State) (i : Fin 4) (t : Fp6) : (s.setT i t).sv = s.sv := rfl
@[simp] theorem State.setT_greg (s : State) (i : Fin 4) (t : Fp6) : (s.setT i t).greg = s.greg := rfl
@[simp] theorem State.setT_gv (s : State) (i : Fin 4) (t : Fp6) : (s.setT i t).gv = s.gv := rfl
@[simp] theorem State.setT_treg (s : State) (i : Fin 4) (t : Fp6) : (s.setT i t).treg = s.treg.set i t := rfl
@[simp] theorem State.setT_tv (s : State) (i : Fin 4) (t : Fp6) : (s.setT i t).tv = s.tv.set i true := rfl
@[simp] theorem State.setT_dbuf (s : State) (i : Fin 4) (t : Fp6) : (s.setT i t).dbuf = s.dbuf := rfl
@[simp] theorem State.setT_ie (s : State) (i : Fin 4) (t : Fp6) : (s.setT i t).ie = s.ie := rfl
@[simp] theorem State.setT_status (s : State) (i : Fin 4) (t : Fp6) : (s.setT i t).status = s.status := rfl
@[simp] theorem State.setT_result (s : State) (i : Fin 4) (t : Fp6) : (s.setT i t).result = s.result := rfl
@[simp] theorem State.setT_pend (s : State) (i : Fin 4) (t : Fp6) : (s.setT i t).pend = s.pend := rfl
@[simp] theorem State.setT_platform (s : State) (i : Fin 4) (t : Fp6) : (s.setT i t).platform = s.platform := rfl
@[simp] theorem State.setT_draws (s : State) (i : Fin 4) (t : Fp6) : (s.setT i t).draws = s.draws := rfl
@[simp] theorem State.setT_inputs (s : State) (i : Fin 4) (t : Fp6) : (s.setT i t).inputs = s.inputs := rfl
@[simp] theorem State.setT_held (s : State) (i : Fin 4) (t : Fp6) : (s.setT i t).held = s.held := rfl
@[simp] theorem State.setT_lastResp (s : State) (i : Fin 4) (t : Fp6) : (s.setT i t).lastResp = s.lastResp := rfl
@[simp] theorem State.setT_rstN (s : State) (i : Fin 4) (t : Fp6) : (s.setT i t).rstN = s.rstN := rfl
@[simp] theorem State.setT_q (s : State) (i : Fin 4) (t : Fp6) : (s.setT i t).q = s.q := rfl
@[simp] theorem State.setT_p (s : State) (i : Fin 4) (t : Fp6) : (s.setT i t).p = s.p := rfl
@[simp] theorem State.setT_tower (s : State) (i : Fin 4) (t : Fp6) : (s.setT i t).tower = s.tower := rfl

/-! ### setResult -/

@[simp] theorem State.setResult_sreg (s : State) (v : Word) : (s.setResult v).sreg = s.sreg := rfl
@[simp] theorem State.setResult_sv (s : State) (v : Word) : (s.setResult v).sv = s.sv := rfl
@[simp] theorem State.setResult_greg (s : State) (v : Word) : (s.setResult v).greg = s.greg := rfl
@[simp] theorem State.setResult_gv (s : State) (v : Word) : (s.setResult v).gv = s.gv := rfl
@[simp] theorem State.setResult_treg (s : State) (v : Word) : (s.setResult v).treg = s.treg := rfl
@[simp] theorem State.setResult_tv (s : State) (v : Word) : (s.setResult v).tv = s.tv := rfl
@[simp] theorem State.setResult_dbuf (s : State) (v : Word) : (s.setResult v).dbuf = s.dbuf := rfl
@[simp] theorem State.setResult_ie (s : State) (v : Word) : (s.setResult v).ie = s.ie := rfl
@[simp] theorem State.setResult_status (s : State) (v : Word) : (s.setResult v).status = s.status := rfl
@[simp] theorem State.setResult_result (s : State) (v : Word) : (s.setResult v).result = v := rfl
@[simp] theorem State.setResult_pend (s : State) (v : Word) : (s.setResult v).pend = s.pend := rfl
@[simp] theorem State.setResult_platform (s : State) (v : Word) : (s.setResult v).platform = s.platform := rfl
@[simp] theorem State.setResult_draws (s : State) (v : Word) : (s.setResult v).draws = s.draws := rfl
@[simp] theorem State.setResult_inputs (s : State) (v : Word) : (s.setResult v).inputs = s.inputs := rfl
@[simp] theorem State.setResult_held (s : State) (v : Word) : (s.setResult v).held = s.held := rfl
@[simp] theorem State.setResult_lastResp (s : State) (v : Word) : (s.setResult v).lastResp = s.lastResp := rfl
@[simp] theorem State.setResult_rstN (s : State) (v : Word) : (s.setResult v).rstN = s.rstN := rfl
@[simp] theorem State.setResult_q (s : State) (v : Word) : (s.setResult v).q = s.q := rfl
@[simp] theorem State.setResult_p (s : State) (v : Word) : (s.setResult v).p = s.p := rfl
@[simp] theorem State.setResult_tower (s : State) (v : Word) : (s.setResult v).tower = s.tower := rfl

/-! ### store -/

@[simp] theorem State.store_sreg (s : State) (off : Nat) (bs : List Byte) : (s.store off bs).sreg = s.sreg := rfl
@[simp] theorem State.store_sv (s : State) (off : Nat) (bs : List Byte) : (s.store off bs).sv = s.sv := rfl
@[simp] theorem State.store_greg (s : State) (off : Nat) (bs : List Byte) : (s.store off bs).greg = s.greg := rfl
@[simp] theorem State.store_gv (s : State) (off : Nat) (bs : List Byte) : (s.store off bs).gv = s.gv := rfl
@[simp] theorem State.store_treg (s : State) (off : Nat) (bs : List Byte) : (s.store off bs).treg = s.treg := rfl
@[simp] theorem State.store_tv (s : State) (off : Nat) (bs : List Byte) : (s.store off bs).tv = s.tv := rfl
@[simp] theorem State.store_dbuf (s : State) (off : Nat) (bs : List Byte) : (s.store off bs).dbuf = Memory.writeBytes s.dbuf off bs := rfl
@[simp] theorem State.store_ie (s : State) (off : Nat) (bs : List Byte) : (s.store off bs).ie = s.ie := rfl
@[simp] theorem State.store_status (s : State) (off : Nat) (bs : List Byte) : (s.store off bs).status = s.status := rfl
@[simp] theorem State.store_result (s : State) (off : Nat) (bs : List Byte) : (s.store off bs).result = s.result := rfl
@[simp] theorem State.store_pend (s : State) (off : Nat) (bs : List Byte) : (s.store off bs).pend = s.pend := rfl
@[simp] theorem State.store_platform (s : State) (off : Nat) (bs : List Byte) : (s.store off bs).platform = s.platform := rfl
@[simp] theorem State.store_draws (s : State) (off : Nat) (bs : List Byte) : (s.store off bs).draws = s.draws := rfl
@[simp] theorem State.store_inputs (s : State) (off : Nat) (bs : List Byte) : (s.store off bs).inputs = s.inputs := rfl
@[simp] theorem State.store_held (s : State) (off : Nat) (bs : List Byte) : (s.store off bs).held = s.held := rfl
@[simp] theorem State.store_lastResp (s : State) (off : Nat) (bs : List Byte) : (s.store off bs).lastResp = s.lastResp := rfl
@[simp] theorem State.store_rstN (s : State) (off : Nat) (bs : List Byte) : (s.store off bs).rstN = s.rstN := rfl
@[simp] theorem State.store_q (s : State) (off : Nat) (bs : List Byte) : (s.store off bs).q = s.q := rfl
@[simp] theorem State.store_p (s : State) (off : Nat) (bs : List Byte) : (s.store off bs).p = s.p := rfl
@[simp] theorem State.store_tower (s : State) (off : Nat) (bs : List Byte) : (s.store off bs).tower = s.tower := rfl

/-! ### drawn -/

@[simp] theorem State.drawn_sreg (s : State) : s.drawn.sreg = s.sreg := rfl
@[simp] theorem State.drawn_sv (s : State) : s.drawn.sv = s.sv := rfl
@[simp] theorem State.drawn_greg (s : State) : s.drawn.greg = s.greg := rfl
@[simp] theorem State.drawn_gv (s : State) : s.drawn.gv = s.gv := rfl
@[simp] theorem State.drawn_treg (s : State) : s.drawn.treg = s.treg := rfl
@[simp] theorem State.drawn_tv (s : State) : s.drawn.tv = s.tv := rfl
@[simp] theorem State.drawn_dbuf (s : State) : s.drawn.dbuf = s.dbuf := rfl
@[simp] theorem State.drawn_ie (s : State) : s.drawn.ie = s.ie := rfl
@[simp] theorem State.drawn_status (s : State) : s.drawn.status = s.status := rfl
@[simp] theorem State.drawn_result (s : State) : s.drawn.result = s.result := rfl
@[simp] theorem State.drawn_pend (s : State) : s.drawn.pend = s.pend := rfl
@[simp] theorem State.drawn_platform (s : State) : s.drawn.platform = s.platform := rfl
@[simp] theorem State.drawn_draws (s : State) : s.drawn.draws = s.draws + 1 := rfl
@[simp] theorem State.drawn_inputs (s : State) : s.drawn.inputs = s.inputs := rfl
@[simp] theorem State.drawn_held (s : State) : s.drawn.held = s.held := rfl
@[simp] theorem State.drawn_lastResp (s : State) : s.drawn.lastResp = s.lastResp := rfl
@[simp] theorem State.drawn_rstN (s : State) : s.drawn.rstN = s.rstN := rfl
@[simp] theorem State.drawn_q (s : State) : s.drawn.q = s.q := rfl
@[simp] theorem State.drawn_p (s : State) : s.drawn.p = s.p := rfl
@[simp] theorem State.drawn_tower (s : State) : s.drawn.tower = s.tower := rfl

/-! ### complete -/

@[simp] theorem State.complete_sreg (s : State) (o : Option Stop) : (s.complete o).sreg = s.sreg := rfl
@[simp] theorem State.complete_sv (s : State) (o : Option Stop) : (s.complete o).sv = s.sv := rfl
@[simp] theorem State.complete_greg (s : State) (o : Option Stop) : (s.complete o).greg = s.greg := rfl
@[simp] theorem State.complete_gv (s : State) (o : Option Stop) : (s.complete o).gv = s.gv := rfl
@[simp] theorem State.complete_treg (s : State) (o : Option Stop) : (s.complete o).treg = s.treg := rfl
@[simp] theorem State.complete_tv (s : State) (o : Option Stop) : (s.complete o).tv = s.tv := rfl
@[simp] theorem State.complete_dbuf (s : State) (o : Option Stop) : (s.complete o).dbuf = s.dbuf := rfl
@[simp] theorem State.complete_ie (s : State) (o : Option Stop) : (s.complete o).ie = s.ie := rfl
@[simp] theorem State.complete_status (s : State) (o : Option Stop) : (s.complete o).status = s.status.update o := rfl
@[simp] theorem State.complete_result (s : State) (o : Option Stop) : (s.complete o).result = s.result := rfl
@[simp] theorem State.complete_pend (s : State) (o : Option Stop) : (s.complete o).pend = none := rfl
@[simp] theorem State.complete_platform (s : State) (o : Option Stop) : (s.complete o).platform = s.platform := rfl
@[simp] theorem State.complete_draws (s : State) (o : Option Stop) : (s.complete o).draws = s.draws := rfl
@[simp] theorem State.complete_inputs (s : State) (o : Option Stop) : (s.complete o).inputs = s.inputs := rfl
@[simp] theorem State.complete_held (s : State) (o : Option Stop) : (s.complete o).held = s.held := rfl
@[simp] theorem State.complete_lastResp (s : State) (o : Option Stop) : (s.complete o).lastResp = s.lastResp := rfl
@[simp] theorem State.complete_rstN (s : State) (o : Option Stop) : (s.complete o).rstN = s.rstN := rfl
@[simp] theorem State.complete_q (s : State) (o : Option Stop) : (s.complete o).q = s.q := rfl
@[simp] theorem State.complete_p (s : State) (o : Option Stop) : (s.complete o).p = s.p := rfl
@[simp] theorem State.complete_tower (s : State) (o : Option Stop) : (s.complete o).tower = s.tower := rfl

/-! ### respond -/

@[simp] theorem State.respond_sreg (s : State) (r : BusResponse) : (s.respond r).sreg = s.sreg := rfl
@[simp] theorem State.respond_sv (s : State) (r : BusResponse) : (s.respond r).sv = s.sv := rfl
@[simp] theorem State.respond_greg (s : State) (r : BusResponse) : (s.respond r).greg = s.greg := rfl
@[simp] theorem State.respond_gv (s : State) (r : BusResponse) : (s.respond r).gv = s.gv := rfl
@[simp] theorem State.respond_treg (s : State) (r : BusResponse) : (s.respond r).treg = s.treg := rfl
@[simp] theorem State.respond_tv (s : State) (r : BusResponse) : (s.respond r).tv = s.tv := rfl
@[simp] theorem State.respond_dbuf (s : State) (r : BusResponse) : (s.respond r).dbuf = s.dbuf := rfl
@[simp] theorem State.respond_ie (s : State) (r : BusResponse) : (s.respond r).ie = s.ie := rfl
@[simp] theorem State.respond_status (s : State) (r : BusResponse) : (s.respond r).status = s.status := rfl
@[simp] theorem State.respond_result (s : State) (r : BusResponse) : (s.respond r).result = s.result := rfl
@[simp] theorem State.respond_pend (s : State) (r : BusResponse) : (s.respond r).pend = s.pend := rfl
@[simp] theorem State.respond_platform (s : State) (r : BusResponse) : (s.respond r).platform = s.platform := rfl
@[simp] theorem State.respond_draws (s : State) (r : BusResponse) : (s.respond r).draws = s.draws := rfl
@[simp] theorem State.respond_inputs (s : State) (r : BusResponse) : (s.respond r).inputs = s.inputs := rfl
@[simp] theorem State.respond_held (s : State) (r : BusResponse) : (s.respond r).held = s.held := rfl
@[simp] theorem State.respond_lastResp (s : State) (r : BusResponse) : (s.respond r).lastResp = some r := rfl
@[simp] theorem State.respond_rstN (s : State) (r : BusResponse) : (s.respond r).rstN = s.rstN := rfl
@[simp] theorem State.respond_q (s : State) (r : BusResponse) : (s.respond r).q = s.q := rfl
@[simp] theorem State.respond_p (s : State) (r : BusResponse) : (s.respond r).p = s.p := rfl
@[simp] theorem State.respond_tower (s : State) (r : BusResponse) : (s.respond r).tower = s.tower := rfl

/-! ### cleared -/

@[simp] theorem State.cleared_sreg (s : State) : s.cleared.sreg = State.reset.sreg := rfl
@[simp] theorem State.cleared_sv (s : State) : s.cleared.sv = State.reset.sv := rfl
@[simp] theorem State.cleared_greg (s : State) : s.cleared.greg = State.reset.greg := rfl
@[simp] theorem State.cleared_gv (s : State) : s.cleared.gv = State.reset.gv := rfl
@[simp] theorem State.cleared_treg (s : State) : s.cleared.treg = State.reset.treg := rfl
@[simp] theorem State.cleared_tv (s : State) : s.cleared.tv = State.reset.tv := rfl
@[simp] theorem State.cleared_dbuf (s : State) : s.cleared.dbuf = State.reset.dbuf := rfl
@[simp] theorem State.cleared_ie (s : State) : s.cleared.ie = State.reset.ie := rfl
@[simp] theorem State.cleared_status (s : State) : s.cleared.status = State.reset.status := rfl
@[simp] theorem State.cleared_result (s : State) : s.cleared.result = State.reset.result := rfl
@[simp] theorem State.cleared_pend (s : State) : s.cleared.pend = State.reset.pend := rfl
@[simp] theorem State.cleared_platform (s : State) : s.cleared.platform = s.platform := rfl
@[simp] theorem State.cleared_draws (s : State) : s.cleared.draws = s.draws := rfl
@[simp] theorem State.cleared_inputs (s : State) : s.cleared.inputs = s.inputs := rfl
@[simp] theorem State.cleared_held (s : State) : s.cleared.held = s.held := rfl
@[simp] theorem State.cleared_lastResp (s : State) : s.cleared.lastResp = s.lastResp := rfl
@[simp] theorem State.cleared_rstN (s : State) : s.cleared.rstN = s.rstN := rfl
@[simp] theorem State.cleared_cleared (s : State) : s.cleared.cleared = s.cleared := rfl

end Sys2Proof.Machine
end

