-- ==== Sys2Proof/Laws/Ops.lean ====
section
/-! SUPPORT. What each shared operation does, said once: DBUF, the reads of registers, the buffer range, completion. -/

namespace Sys2Proof.Machine

/-! ### DBUF: reads, writes and the canonical form -/

theorem Memory.wfFrom_mono {lo lo' : Nat} (h : lo' ≤ lo) : ∀ {m : Memory}, Memory.wfFrom lo m = true → Memory.wfFrom lo' m = true
  | [], _ => rfl
  | (b, v) :: m, hm => by
    simp only [Memory.wfFrom, Bool.and_eq_true, decide_eq_true_eq] at hm ⊢
    exact ⟨⟨⟨by omega, hm.1.1.2⟩, hm.1.2⟩, hm.2⟩

/-- A byte below the first listed offset reads 0x00. -/
theorem Memory.read_below : ∀ {m : Memory} {lo a : Nat}, Memory.wfFrom lo m = true → a < lo → Memory.read m a = 0
  | [], _, _, _, _ => rfl
  | (b, v) :: m, lo, a, hm, ha => by
    simp only [Memory.wfFrom, Bool.and_eq_true, decide_eq_true_eq] at hm
    rw [Memory.read, if_neg (by omega)]
    exact Memory.read_below hm.2 (by omega)

/-- A write reads back, whatever else the list holds. -/
theorem Memory.read_write_self : ∀ {m : Memory} {lo : Nat} (a : Nat) (v : Byte), Memory.wfFrom lo m = true →
    Memory.read (Memory.write m a v) a = v
  | [], _, a, v, _ => by
    simp only [Memory.write]
    split <;> simp_all [Memory.read]
  | (b, w) :: m, lo, a, v, hm => by
    simp only [Memory.wfFrom, Bool.and_eq_true, decide_eq_true_eq] at hm
    rw [Memory.write]
    split
    · split
      · rename_i hlt hv
        rw [Memory.read, if_neg (by omega), Memory.read_below hm.2 (by omega), hv]
      · simp [Memory.read]
    · split
      · rename_i hlt hab
        subst hab
        split
        · rename_i hv
          rw [Memory.read_below hm.2 (by omega), hv]
        · simp [Memory.read]
      · rw [Memory.read, if_neg (by omega)]
        exact Memory.read_write_self a v hm.2

/-- A write leaves every other byte as it was. -/
theorem Memory.read_write_other : ∀ (m : Memory) (a : Nat) (v : Byte) {c : Nat}, c ≠ a →
    Memory.read (Memory.write m a v) c = Memory.read m c
  | [], a, v, c, h => by
    simp only [Memory.write]
    split
    · rfl
    · simp [Memory.read, h.symm]
  | (b, w) :: m, a, v, c, h => by
    rw [Memory.write]
    split
    · split
      · rfl
      · rw [Memory.read, if_neg h.symm]
    · split
      · rename_i hlt hab
        subst hab
        split
        · rw [Memory.read, if_neg h.symm]
        · rw [Memory.read, Memory.read, if_neg h.symm, if_neg h.symm]
      · simp only [Memory.read]
        split
        · rfl
        · exact Memory.read_write_other m a v h

/-- A write keeps the canonical form. -/
theorem Memory.wfFrom_write : ∀ {m : Memory} {lo : Nat} (a : Nat) (v : Byte), lo ≤ a → a < dbufSize →
    Memory.wfFrom lo m = true → Memory.wfFrom lo (Memory.write m a v) = true
  | [], lo, a, v, hlo, ha, _ => by
    simp only [Memory.write]
    split
    · rfl
    · rename_i hv
      simpa [Memory.wfFrom, hlo, ha] using hv
  | (b, w) :: m, lo, a, v, hlo, ha, hm => by
    have hm' := hm
    simp only [Memory.wfFrom, Bool.and_eq_true, decide_eq_true_eq] at hm'
    rw [Memory.write]
    split
    · rename_i hab
      split
      · exact hm
      · rename_i hv
        simp only [Memory.wfFrom, Bool.and_eq_true, decide_eq_true_eq]
        exact ⟨⟨⟨hlo, ha⟩, hv⟩, ⟨⟨⟨by omega, hm'.1.1.2⟩, hm'.1.2⟩, hm'.2⟩⟩
    · split
      · rename_i hlt hab
        subst hab
        split
        · exact Memory.wfFrom_mono (by omega) hm'.2
        · rename_i hv
          simp only [Memory.wfFrom, Bool.and_eq_true, decide_eq_true_eq]
          exact ⟨⟨⟨hlo, ha⟩, hv⟩, hm'.2⟩
      · simp only [Memory.wfFrom, Bool.and_eq_true, decide_eq_true_eq]
        exact ⟨hm'.1, Memory.wfFrom_write a v (by omega) ha hm'.2⟩

theorem Memory.wf_write {m : Memory} (a : Nat) (v : Byte) (ha : a < dbufSize) (hm : m.wf = true) :
    (Memory.write m a v).wf = true := Memory.wfFrom_write a v (Nat.zero_le _) ha hm

theorem Memory.wf_writeBytes : ∀ (bs : List Byte) {m : Memory} (off : Nat), off + bs.length ≤ dbufSize → m.wf = true →
    (Memory.writeBytes m off bs).wf = true
  | [], _, _, _, hm => hm
  | v :: bs, m, off, h, hm => by
    rw [List.length_cons] at h
    exact Memory.wf_writeBytes bs (off + 1) (by omega) (Memory.wf_write off v (by omega) hm)

/-- A store leaves every byte outside its range as it was. -/
theorem Memory.read_writeBytes_outside : ∀ (bs : List Byte) (m : Memory) (off : Nat) {a : Nat},
    a < off ∨ off + bs.length ≤ a → Memory.read (Memory.writeBytes m off bs) a = Memory.read m a
  | [], _, _, _, _ => rfl
  | v :: bs, m, off, a, h => by
    rw [List.length_cons] at h
    rw [Memory.writeBytes, Memory.read_writeBytes_outside bs _ _ (by omega), Memory.read_write_other _ _ _ (by omega)]

/-- A store's bytes read back. -/
theorem Memory.read_writeBytes_inside : ∀ (bs : List Byte) {m : Memory} (off : Nat) (k : Nat) (h : k < bs.length),
    off + bs.length ≤ dbufSize → m.wf = true → Memory.read (Memory.writeBytes m off bs) (off + k) = bs[k]
  | v :: bs, m, off, 0, _, hb, hm => by
    rw [List.length_cons] at hb
    rw [Memory.writeBytes, Memory.read_writeBytes_outside _ _ _ (by omega), Nat.add_zero,
      Memory.read_write_self off v hm, List.getElem_cons_zero]
  | v :: bs, m, off, k + 1, h, hb, hm => by
    rw [List.length_cons] at h hb
    rw [Memory.writeBytes, show off + (k + 1) = off + 1 + k by omega,
      Memory.read_writeBytes_inside bs (off + 1) k (by omega) (by omega) (Memory.wf_write off v (by omega) hm),
      List.getElem_cons_succ]

theorem Memory.length_readBytes (m : Memory) (off n : Nat) : (Memory.readBytes m off n).length = n := by
  induction n generalizing off with
  | zero => rfl
  | succ n ih => rw [Memory.readBytes, List.length_cons, ih]

theorem Memory.getElem_readBytes (m : Memory) : ∀ (n off k : Nat) (h : k < (Memory.readBytes m off n).length),
    (Memory.readBytes m off n)[k] = Memory.read m (off + k)
  | n + 1, off, 0, _ => rfl
  | n + 1, off, k + 1, h => by
    have := Memory.getElem_readBytes m n (off + 1) k (by
      rw [Memory.readBytes, List.length_cons] at h; omega)
    rw [show off + (k + 1) = off + 1 + k by omega, ← this]; rfl

/-- A range that holds the bytes `bs` reads as `bs`. -/
theorem Memory.readBytes_eq {m : Memory} {off : Nat} {bs : List Byte}
    (h : ∀ k, ∀ hk : k < bs.length, Memory.read m (off + k) = bs[k]) : Memory.readBytes m off bs.length = bs := by
  refine List.ext_getElem (Memory.length_readBytes _ _ _) fun k h1 h2 => ?_
  rw [Memory.getElem_readBytes, h k h2]

/-- The reset contents are in canonical form (10_state.md R60). -/
theorem Memory.wf_reset : State.reset.dbuf.wf = true := rfl

/-! ### Operands -/

theorem State.residue_ok {s : State} {i : Fin 16} (h : s.sv[i] = true) : s.residue i = .ok s.sreg[i].toNat := by
  rw [State.residue, if_pos h]

theorem State.residue_uninit {s : State} {i : Fin 16} (h : s.sv[i] = false) :
    s.residue i = .error (.error .uninit) := by
  rw [State.residue, if_neg (by simp [h])]

theorem State.scalar_ok {s : State} {i : Fin 16} (h : s.sv[i] = true) : s.scalar i = .ok (s.canonical i) := by
  rw [State.scalar, State.residue_ok h]; rfl

theorem State.scalar_uninit {s : State} {i : Fin 16} (h : s.sv[i] = false) : s.scalar i = .error (.error .uninit) := by
  rw [State.scalar, State.residue_uninit h]

theorem State.gt_ok {s : State} {i : Fin 8} (h : s.gv[i] = true) : s.gt i = .ok s.greg[i] := by
  rw [State.gt, if_pos h]

theorem State.gt_uninit {s : State} {i : Fin 8} (h : s.gv[i] = false) : s.gt i = .error (.error .uninit) := by
  rw [State.gt, if_neg (by simp [h])]

theorem State.torus_ok {s : State} {i : Fin 4} (h : s.tv[i] = true) : s.torus i = .ok s.treg[i] := by
  rw [State.torus, if_pos h]

theorem State.torus_uninit {s : State} {i : Fin 4} (h : s.tv[i] = false) : s.torus i = .error (.error .uninit) := by
  rw [State.torus, if_neg (by simp [h])]

theorem gIndex_ok {f : RegField} (h : f.toNat < 8) : gIndex f = .ok ⟨f.toNat, h⟩ := by rw [gIndex, dif_pos h]

theorem gIndex_bad {f : RegField} (h : 8 ≤ f.toNat) : gIndex f = .error (.error .badRegister) := by
  rw [gIndex, dif_neg (by omega)]

theorem tIndex_ok {f : RegField} (h : f.toNat < 4) : tIndex f = .ok ⟨f.toNat, h⟩ := by rw [tIndex, dif_pos h]

theorem tIndex_bad {f : RegField} (h : 4 ≤ f.toNat) : tIndex f = .error (.error .badRegister) := by
  rw [tIndex, dif_neg (by omega)]

/-- The three answers of the length and bounds checks (60_exceptions.md R337 to R339). -/
theorem bufferRange_cases (off : BitVec 6) (len : BitVec 12) (lreq : Nat) :
    (len.toNat ≠ lreq ∧ bufferRange off len lreq = .error (.none .wrongLength)) ∨
    (len.toNat = lreq ∧ dbufSize < off.toNat * 16 + lreq ∧ bufferRange off len lreq = .error (.error .bounds)) ∨
    (len.toNat = lreq ∧ off.toNat * 16 + lreq ≤ dbufSize ∧ bufferRange off len lreq = .ok (off.toNat * 16)) := by
  rw [bufferRange]
  split
  · exact .inl ⟨‹_›, rfl⟩
  · split
    · exact .inr (.inl ⟨by omega, ‹_›, rfl⟩)
    · exact .inr (.inr ⟨by omega, by omega, rfl⟩)

theorem bufferRange_ok {off : BitVec 6} {len : BitVec 12} {lreq o : Nat} :
    bufferRange off len lreq = .ok o ↔ len.toNat = lreq ∧ o = off.toNat * 16 ∧ o + lreq ≤ dbufSize := by
  obtain ⟨h, e⟩ | ⟨h, h', e⟩ | ⟨h, h', e⟩ := bufferRange_cases off len lreq <;> rw [e]
  · simp [h]
  · simp only [reduceCtorEq, false_iff, not_and]; omega
  · simp only [Except.ok.injEq]; omega

/-! ### Completion -/

/-- A command of a block that is not halted ends as its rule says (60_exceptions.md R330). -/
theorem runCommand_of_ok {rule : State → Except Stop State} {s t : State} (h : s.status.halted = false)
    (hr : rule s = .ok t) : runCommand rule s = .next (t.complete none) := by
  rw [runCommand, h, if_neg (by simp), hr]; rfl

theorem runCommand_of_error {rule : State → Except Stop State} {s : State} {e : Stop} (h : s.status.halted = false)
    (hr : rule s = .error e) : runCommand rule s = .next (s.complete (some e)) := by
  rw [runCommand, h, if_neg (by simp), hr]; rfl

/-- A command of a halted block is turned away (60_exceptions.md R344). -/
theorem runCommand_of_halted {s : State} (rule : State → Except Stop State) (h : s.status.halted = true) :
    runCommand rule s = .next (s.complete (some (.error .haltedReject))) := by
  rw [runCommand, h, if_pos rfl]; rfl

/-- Everything a command can do. -/
theorem runCommand_cases {rule : State → Except Stop State} {s t : State} (h : runCommand rule s = .next t) :
    (s.status.halted = true ∧ t = s.complete (some (.error .haltedReject))) ∨
    (s.status.halted = false ∧ ∃ e, rule s = .error e ∧ t = s.complete (some e)) ∨
    (s.status.halted = false ∧ ∃ u, rule s = .ok u ∧ t = u.complete none) := by
  cases hh : s.status.halted with
  | true =>
    rw [runCommand_of_halted rule hh, Host.Outcome.next.injEq] at h
    exact .inl ⟨rfl, h.symm⟩
  | false =>
    cases hr : rule s with
    | error e =>
      rw [runCommand_of_error hh hr, Host.Outcome.next.injEq] at h
      exact .inr (.inl ⟨rfl, e, rfl, h.symm⟩)
    | ok u =>
      rw [runCommand_of_ok hh hr, Host.Outcome.next.injEq] at h
      exact .inr (.inr ⟨rfl, u, rfl, h.symm⟩)

theorem Status.update_ok (st : Status) : st.update none = { st with done := true, ok := true, reason := 0 } := rfl

theorem Status.update_none (st : Status) (r : Reason) :
    st.update (some (.none r)) = { st with done := true, ok := false, reason := r.code, noneFlag := true } := rfl

theorem Status.update_error (st : Status) (e : ErrorCode) :
    st.update (some (.error e)) =
      { st with
        done := true, ok := false, reason := 0, err := true, ecode := e.code
        halted := st.halted || e == .divByZero } := rfl

/-- Completion alone changes nothing but STATUS and PEND (60_exceptions.md R341). -/
theorem State.complete_onlyStatus (s : State) (o : Option Stop) : OnlyStatus s (s.complete o) where
  scalars _ _ := ⟨rfl, rfl⟩
  gts _ _ := ⟨rfl, rfl⟩
  tori _ _ := ⟨rfl, rfl⟩
  buffer _ := rfl
  result := rfl
  draws := rfl
  host := ⟨rfl, rfl, rfl, rfl, rfl, rfl⟩

end Sys2Proof.Machine
end

