-- ==== Sys2Proof/Laws/Bytes.lean ====
section
/-! SUPPORT. The byte orders of spec/00_scope.md R13: the model's recursive definitions are the sums and the byte lists
of Safety.lean. -/

namespace Sys2Proof.Machine

theorem leNat_lt : ∀ bs : List Byte, leNat bs < 256 ^ bs.length
  | [] => by simp [leNat]
  | b :: bs => by
    have h := leNat_lt bs
    have hb : b.toNat < 256 := b.isLt
    rw [leNat, List.length_cons, pow_succ]
    omega

theorem leNat_append (xs ys : List Byte) : leNat (xs ++ ys) = leNat xs + 256 ^ xs.length * leNat ys := by
  induction xs with
  | nil => simp [leNat]
  | cons x xs ih => rw [List.cons_append, leNat, leNat, ih, List.length_cons, pow_succ]; ring

theorem length_leBytes (n x : Nat) : (leBytes n x).length = n := by
  induction n generalizing x with
  | zero => rfl
  | succ n ih => rw [leBytes, List.length_cons, ih]

theorem length_beBytes (n x : Nat) : (beBytes n x).length = n := by
  rw [beBytes, List.length_reverse, length_leBytes]

/-- Decoding an encoding gives the integer back, cut to n bytes. -/
theorem leNat_leBytes (n x : Nat) : leNat (leBytes n x) = x % 256 ^ n := by
  induction n generalizing x with
  | zero => simp [leBytes, leNat, Nat.mod_one]
  | succ n ih =>
    rw [leBytes, leNat, ih, BitVec.toNat_ofNat, show (256 : Nat) ^ (n + 1) = 256 * 256 ^ n from pow_succ' 256 n]
    exact Nat.mod_mul.symm

/-- Encoding a decoding gives the bytes back. -/
theorem leBytes_leNat : ∀ bs : List Byte, leBytes bs.length (leNat bs) = bs
  | [] => rfl
  | b :: bs => by
    have hb : b.toNat < 256 := b.isLt
    rw [List.length_cons, leBytes, leNat]
    have h1 : BitVec.ofNat 8 (b.toNat + 256 * leNat bs) = b := by
      apply BitVec.eq_of_toNat_eq
      rw [BitVec.toNat_ofNat]; omega
    have h2 : (b.toNat + 256 * leNat bs) / 256 = leNat bs := by omega
    rw [h1, h2, leBytes_leNat bs]

theorem beNat_beBytes (n x : Nat) : beNat (beBytes n x) = x % 256 ^ n := by
  rw [beNat, beBytes, List.reverse_reverse, leNat_leBytes]

theorem beBytes_beNat (bs : List Byte) : beBytes bs.length (beNat bs) = bs := by
  have := leBytes_leNat bs.reverse
  rw [List.length_reverse] at this
  rw [beBytes, beNat, this, List.reverse_reverse]

/-- `le` of a range is the sum of its bytes. -/
theorem leNat_readBytes (m : Memory) (off n : Nat) : leNat (Memory.readBytes m off n) = leSum m off n := by
  induction n generalizing off with
  | zero => rfl
  | succ n ih =>
    rw [Memory.readBytes, leNat, ih, leSum, leSum, Finset.sum_range_succ', Finset.mul_sum, add_comm]
    congr 1
    · refine Finset.sum_congr rfl fun k _ => ?_
      rw [show off + (k + 1) = off + 1 + k by omega, pow_succ]; ring
    · simp

theorem readBytes_succ_last (m : Memory) (off n : Nat) :
    Memory.readBytes m off (n + 1) = Memory.readBytes m off n ++ [Memory.read m (off + n)] := by
  induction n generalizing off with
  | zero => rfl
  | succ n ih =>
    rw [Memory.readBytes, ih, show off + 1 + n = off + (n + 1) by omega]; rfl

/-- `be` of a range is the sum of its bytes. -/
theorem beNat_readBytes (m : Memory) (off n : Nat) : beNat (Memory.readBytes m off n) = beSum m off n := by
  induction n generalizing off with
  | zero => rfl
  | succ n ih =>
    have h := ih off
    rw [beNat] at h
    rw [beNat, readBytes_succ_last, List.reverse_append, List.reverse_singleton, List.singleton_append, leNat, h, beSum,
      beSum, Finset.sum_range_succ, Finset.mul_sum, add_comm]
    congr 1
    · refine Finset.sum_congr rfl fun k hk => ?_
      have hk' := Finset.mem_range.1 hk
      rw [show n + 1 - 1 - k = (n - 1 - k) + 1 by omega, pow_succ]; ring
    · simp

theorem leBytes_eq (n x : Nat) : leBytes n x = leEncoding n x := by
  induction n generalizing x with
  | zero => rfl
  | succ n ih =>
    rw [leBytes, ih, leEncoding, leEncoding, List.range_succ_eq_map, List.map_cons, List.map_map]
    congr 1
    · simp
    · refine List.map_congr_left fun k _ => ?_
      simp only [Function.comp]
      rw [pow_succ', Nat.div_div_eq_div_mul]

theorem beBytes_eq (n x : Nat) : beBytes n x = beEncoding n x := by
  rw [beBytes, leBytes_eq]
  refine List.ext_getElem (by simp [leEncoding, beEncoding]) fun k h1 h2 => ?_
  simp [leEncoding, beEncoding]

/-- A vector's encoding is the components' encodings one after another. -/
theorem encodeVec_eq (order : Nat → Nat → List Byte) (cs : List FpWord) :
    encodeVec order cs = vectorEncoding order cs := by
  rw [encodeVec, vectorEncoding, List.flatMap_def]

end Sys2Proof.Machine
end

