-- ==== Sys2Proof/Laws/Frames.lean ====
section
/-! SUPPORT. What a completed write to each kind of destination leaves: one lemma per shared write, in the terms that the
statements use. -/

namespace Sys2Proof.Machine

theorem sameScalars_set (s : State) (d : Fin 16) (m : Nat) : SameScalars s (s.setS d m) [d] := by
  intro i hi
  have hne : (d : Nat) ≠ i := fun h => hi (by simp [Fin.ext h])
  exact ⟨Vector.getElem_set_ne d.isLt i.isLt hne, Vector.getElem_set_ne d.isLt i.isLt hne⟩

theorem sameGts_set (s : State) (d : Fin 8) (a : Fp12) : SameGts s (s.setG d a) [d] := by
  intro i hi
  have hne : (d : Nat) ≠ i := fun h => hi (by simp [Fin.ext h])
  exact ⟨Vector.getElem_set_ne d.isLt i.isLt hne, Vector.getElem_set_ne d.isLt i.isLt hne⟩

theorem sameTori_set (s : State) (d : Fin 4) (t : Fp6) : SameTori s (s.setT d t) [d] := by
  intro i hi
  have hne : (d : Nat) ≠ i := fun h => hi (by simp [Fin.ext h])
  exact ⟨Vector.getElem_set_ne d.isLt i.isLt hne, Vector.getElem_set_ne d.isLt i.isLt hne⟩

/-- A completed write of a residue. -/
theorem okScalar_setS (s : State) (d : Fin 16) {m : Nat} (hm : m < 2 ^ 256) :
    OkScalar s ((s.setS d m).complete none) d m 0 where
  value := by
    show ((s.sreg.set d (BitVec.ofNat 256 m))[(d : Nat)]).toNat = m
    rw [Vector.getElem_set_self, BitVec.toNat_ofNat, Nat.mod_eq_of_lt hm]
  valid := Vector.getElem_set_self _
  scalars := sameScalars_set s d m
  gts _ _ := ⟨rfl, rfl⟩
  tori _ _ := ⟨rfl, rfl⟩
  buffer _ := rfl
  result := rfl
  draws := rfl
  host := ⟨rfl, rfl, rfl, rfl, rfl, rfl⟩
  done := ⟨rfl, rfl⟩

/-- A completed write of a residue by a command that took a draw. -/
theorem okScalar_drawn_setS (s : State) (d : Fin 16) {m : Nat} (hm : m < 2 ^ 256) :
    OkScalar s ((s.drawn.setS d m).complete none) d m 1 :=
  { okScalar_setS s.drawn d hm with draws := rfl }

/-- A completed write of a Gt element. -/
theorem okGt_setG (s : State) (d : Fin 8) (a : Fp12) : OkGt s ((s.setG d a).complete none) d a 0 where
  value := Vector.getElem_set_self _
  valid := Vector.getElem_set_self _
  scalars _ _ := ⟨rfl, rfl⟩
  gts := sameGts_set s d a
  tori _ _ := ⟨rfl, rfl⟩
  buffer _ := rfl
  result := rfl
  draws := rfl
  host := ⟨rfl, rfl, rfl, rfl, rfl, rfl⟩
  done := ⟨rfl, rfl⟩

/-- A completed write of a Gt element by a command that took a draw. -/
theorem okGt_drawn_setG (s : State) (d : Fin 8) (a : Fp12) : OkGt s ((s.drawn.setG d a).complete none) d a 1 :=
  { okGt_setG s.drawn d a with draws := rfl }

/-- A completed write of a torus value. -/
theorem okTorus_setT (s : State) (d : Fin 4) (x : Fp6) : OkTorus s ((s.setT d x).complete none) d x where
  value := Vector.getElem_set_self _
  valid := Vector.getElem_set_self _
  scalars _ _ := ⟨rfl, rfl⟩
  gts _ _ := ⟨rfl, rfl⟩
  tori := sameTori_set s d x
  buffer _ := rfl
  result := rfl
  draws := rfl
  host := ⟨rfl, rfl, rfl, rfl, rfl, rfl⟩
  done := ⟨rfl, rfl⟩

/-- A completed write of RESULT. -/
theorem okResult_setResult (s : State) (v : Word) : OkResult s ((s.setResult v).complete none) v where
  value := rfl
  scalars _ _ := ⟨rfl, rfl⟩
  gts _ _ := ⟨rfl, rfl⟩
  tori _ _ := ⟨rfl, rfl⟩
  buffer _ := rfl
  draws := rfl
  host := ⟨rfl, rfl, rfl, rfl, rfl, rfl⟩
  done := ⟨rfl, rfl⟩

/-- A completed store inside DBUF. -/
theorem okBuffer_store (s : State) (off : Nat) (bs : List Byte) (hm : s.dbuf.wf = true)
    (hb : off + bs.length ≤ dbufSize) : OkBuffer s ((s.store off bs).complete none) off bs where
  bytes k hk := Memory.read_writeBytes_inside bs off k hk hb hm
  outside _ ha := Memory.read_writeBytes_outside bs s.dbuf off ha
  scalars _ _ := ⟨rfl, rfl⟩
  gts _ _ := ⟨rfl, rfl⟩
  tori _ _ := ⟨rfl, rfl⟩
  result := rfl
  draws := rfl
  host := ⟨rfl, rfl, rfl, rfl, rfl, rfl⟩
  done := ⟨rfl, rfl⟩

/-- A none outcome. -/
theorem endsNone_complete (s : State) (r : Reason) : EndsNone s (s.complete (some (.none r))) r.code :=
  ⟨⟨rfl, rfl⟩, s.complete_onlyStatus _⟩

/-- An error outcome other than DIV_BY_ZERO. -/
theorem endsError_complete (s : State) {e : ErrorCode} (he : e ≠ .divByZero) :
    EndsError s (s.complete (some (.error e))) e.code := by
  refine ⟨⟨?_, rfl⟩, s.complete_onlyStatus _⟩
  show s.status.update (some (.error e)) = _
  rw [Status.update_error, beq_eq_false_iff_ne.2 he, Bool.or_false]

end Sys2Proof.Machine
end

