-- ==== Sys2Proof/Laws/Residue.lean ====
section
/-! SUPPORT. The scalar engine in the field ZMod q: what `powMod`, `invMod`, `res`, `val` and `montMul` are there. -/

namespace Sys2Proof

theorem ScalarModulusOk.pos {q : Nat} (h : ScalarModulusOk q) : 0 < q := h.prime.pos

theorem ScalarModulusOk.lt_container {q : Nat} (h : ScalarModulusOk q) : q < 2 ^ 256 :=
  lt_trans h.high (by norm_num)

theorem ScalarModulusOk.two_lt {q : Nat} (h : ScalarModulusOk q) : 2 < q :=
  lt_trans (by norm_num) h.low

theorem ScalarModulusOk.odd {q : Nat} (h : ScalarModulusOk q) : q % 2 = 1 :=
  h.prime.eq_two_or_odd.resolve_left (by have := h.two_lt; omega)

namespace Machine

/-- Two numbers below `q` are equal where they are equal in ZMod q. -/
theorem eq_of_cast_eq {q a b : Nat} (ha : a < q) (hb : b < q) (h : (a : ZMod q) = b) : a = b := by
  have := (ZMod.natCast_eq_natCast_iff a b q).1 h
  rwa [Nat.ModEq, Nat.mod_eq_of_lt ha, Nat.mod_eq_of_lt hb] at this

theorem cast_mod (q a : Nat) : ((a % q : Nat) : ZMod q) = a := by simp

/-! ### Powers -/

/-- What the loop of `powMod` computes: `acc^(2^n) · x^(the low n bits of e)`. -/
theorem powLoop_cast (q x e n acc : Nat) :
    (powLoop q x e n acc : ZMod q) = (acc : ZMod q) ^ 2 ^ n * (x : ZMod q) ^ (e % 2 ^ n) := by
  induction n generalizing acc with
  | zero => simp [powLoop, Nat.mod_one]
  | succ n ih =>
    have hbit : e % 2 ^ (n + 1) = e % 2 ^ n + (if e.testBit n then 2 ^ n else 0) := by
      rw [Nat.mod_pow_succ, Nat.testBit_eq_decide_div_mod_eq]
      obtain h | h := Nat.mod_two_eq_zero_or_one (e / 2 ^ n) <;> simp [h]
    simp only [powLoop, ih, hbit]
    split <;> (simp [pow_succ, pow_mul, mul_pow, pow_add]; try ring)

theorem powLoop_lt {q : Nat} (hq : 0 < q) (x e n acc : Nat) (hacc : acc < q) : powLoop q x e n acc < q := by
  induction n generalizing acc with
  | zero => simpa [powLoop]
  | succ n ih =>
    simp only [powLoop]
    exact ih _ (by split <;> exact Nat.mod_lt _ hq)

/-- `powMod` is the power, for every exponent below 2^256 (40_scalar_arith.md R176). -/
theorem powMod_cast {q e : Nat} (x : Nat) (he : e < 2 ^ 256) : (powMod q x e : ZMod q) = (x : ZMod q) ^ e := by
  rw [powMod, powLoop_cast, Nat.mod_eq_of_lt he]; simp

theorem powMod_lt {q : Nat} (hq : 1 < q) (x e : Nat) : powMod q x e < q := powLoop_lt (by omega) _ _ _ _ hq

theorem powMod_eq {q e : Nat} (hq : 1 < q) (x : Nat) (he : e < 2 ^ 256) : powMod q x e = x ^ e % q :=
  eq_of_cast_eq (powMod_lt hq x e) (Nat.mod_lt _ (by omega)) (by rw [powMod_cast x he]; simp)

/-! ### Inverses and residues -/

section Modulus

variable {q : Nat} (h : ScalarModulusOk q)
include h

/-- `invMod` is the inverse of ZMod q; zero is sent to zero (00_scope.md R12). -/
theorem invMod_cast (a : Nat) : (invMod q a : ZMod q) = (a : ZMod q)⁻¹ := by
  have : Fact q.Prime := ⟨h.prime⟩
  have h2 := h.two_lt
  rw [invMod, powMod_cast a (lt_of_le_of_lt (Nat.sub_le _ _) h.lt_container)]
  rcases eq_or_ne (a : ZMod q) 0 with h0 | h0
  · rw [h0, inv_zero, zero_pow (by omega)]
  · refine eq_inv_of_mul_eq_one_left ?_
    rw [← pow_succ, show q - 2 + 1 = q - 1 by omega, ZMod.pow_card_sub_one_eq_one h0]

theorem invMod_lt (a : Nat) : invMod q a < q := powMod_lt (by have := h.two_lt; omega) _ _

theorem cast_radix_ne_zero : ((Config.R : Nat) : ZMod q) ≠ 0 := by
  have : Fact q.Prime := ⟨h.prime⟩
  have : ((2 : Nat) : ZMod q) ≠ 0 := by
    rw [Ne, ZMod.natCast_eq_zero_iff]
    intro hd
    have := Nat.le_of_dvd (by norm_num) hd
    have := h.two_lt
    omega
  rw [Config.R, Nat.cast_pow]
  exact pow_ne_zero _ this

omit h in
theorem res_cast (x : Nat) : (res q x : ZMod q) = x * (Config.R : Nat) := by
  rw [res, cast_mod, Nat.cast_mul]

theorem val_cast (m : Nat) : (val q m : ZMod q) = m * ((Config.R : Nat) : ZMod q)⁻¹ := by
  rw [val, cast_mod, Nat.cast_mul, invMod_cast h, cast_mod]

theorem montMul_cast (a b : Nat) : (montMul q a b : ZMod q) = a * b * ((Config.R : Nat) : ZMod q)⁻¹ := by
  rw [montMul, cast_mod, Nat.cast_mul, Nat.cast_mul, invMod_cast h, cast_mod]

theorem montRed_cast (t : Nat) : (montRed q t : ZMod q) = t * ((Config.R : Nat) : ZMod q)⁻¹ := by
  rw [montRed, cast_mod, Nat.cast_mul, invMod_cast h, cast_mod]

theorem res_lt (x : Nat) : res q x < q := Nat.mod_lt _ h.pos

theorem val_lt (m : Nat) : val q m < q := Nat.mod_lt _ h.pos

theorem montMul_lt (a b : Nat) : montMul q a b < q := Nat.mod_lt _ h.pos

theorem montRed_lt (t : Nat) : montRed q t < q := Nat.mod_lt _ h.pos

/-- `val` undoes `res` (00_scope.md R15). -/
theorem val_res (x : Nat) : val q (res q x) = x % q := by
  have : Fact q.Prime := ⟨h.prime⟩
  refine eq_of_cast_eq (val_lt h _) (Nat.mod_lt _ h.pos) ?_
  rw [val_cast h, res_cast, cast_mod, mul_assoc, mul_inv_cancel₀ (cast_radix_ne_zero h), mul_one]

/-- `res` undoes `val` (00_scope.md R15). -/
theorem res_val {m : Nat} (hm : m < q) : res q (val q m) = m := by
  have : Fact q.Prime := ⟨h.prime⟩
  refine eq_of_cast_eq (res_lt h _) hm ?_
  rw [res_cast, val_cast h, mul_assoc, inv_mul_cancel₀ (cast_radix_ne_zero h), mul_one]

theorem val_eq_zero_iff {m : Nat} (hm : m < q) : val q m = 0 ↔ m = 0 := by
  constructor
  · intro h0
    rw [← res_val h hm, h0]; simp [res]
  · rintro rfl; simp [val]

/-- The canonical value of a Montgomery product is the product of the canonical values (40_scalar_arith.md R160). -/
theorem val_montMul (a b : Nat) : val q (montMul q a b) = val q a * val q b % q := by
  have : Fact q.Prime := ⟨h.prime⟩
  refine eq_of_cast_eq (val_lt h _) (Nat.mod_lt _ h.pos) ?_
  rw [val_cast h, montMul_cast h, cast_mod, Nat.cast_mul, val_cast h, val_cast h]; ring

/-- Convert-in by the multiplier is `res` (42_scalar_codec.md R241). -/
theorem convertIn_eq_res (x : Nat) : convertIn q x = res q (x % q) := by
  have : Fact q.Prime := ⟨h.prime⟩
  refine eq_of_cast_eq (montMul_lt h _ _) (res_lt h _) ?_
  rw [convertIn, montMul_cast h, res_cast, cast_mod, r2, cast_mod, Nat.cast_pow, sq]
  field_simp [cast_radix_ne_zero h]

theorem toNat_ofNat_lt {m : Nat} (hm : m < q) : (BitVec.ofNat 256 m).toNat = m := by
  rw [BitVec.toNat_ofNat, Nat.mod_eq_of_lt (lt_trans hm h.lt_container)]

end Modulus

end Machine

end Sys2Proof
end

