-- ==== Sys2Proof/Laws/TowerClosed.lean ====
section
/-! SUPPORT. The recommended tower (spec/43_gt_group.md R264) keeps every component in [0, P) (R261), over any P that fits
a 384-bit container. -/

namespace Sys2Proof

/-- Both coefficients are in [0, P). -/
def Fp2.Ok (p : Nat) (x : Fp2) : Prop := x.c0.toNat < p ∧ x.c1.toNat < p

theorem Fp6.inRange_iff {p : Nat} {x : Fp6} : x.inRange p = true ↔ x.c0.Ok p ∧ x.c1.Ok p ∧ x.c2.Ok p := by
  simp [Fp6.inRange, Fp6.comps, Fp2.Ok, and_assoc]

theorem Fp12.inRange_iff {p : Nat} {a : Fp12} : a.inRange p = true ↔ a.lo.inRange p = true ∧ a.hi.inRange p = true := by
  simp [Fp12.inRange]

theorem Fp6.zero_inRange {p : Nat} (hp : 0 < p) : Fp6.zero.inRange p = true := by
  simp [Fp6.inRange_iff, Fp6.zero, Fp6.ofFn, Fp2.Ok, hp]

theorem Fp6.one_inRange {p : Nat} (hp : 1 < p) : Fp6.one.inRange p = true := by
  simp [Fp6.inRange_iff, Fp6.one, Fp6.ofFn, Fp2.Ok, hp, show 0 < p by omega]

theorem Fp12.zero_inRange {p : Nat} (hp : 0 < p) : Fp12.zero.inRange p = true :=
  Fp12.inRange_iff.2 ⟨Fp6.zero_inRange hp, Fp6.zero_inRange hp⟩

theorem Fp12.one_inRange {p : Nat} (hp : 1 < p) : Fp12.one.inRange p = true :=
  Fp12.inRange_iff.2 ⟨Fp6.one_inRange hp, Fp6.zero_inRange (by omega)⟩

namespace Machine

variable {p : Nat}

/-- The word of a residue is that residue. -/
theorem toNat_ofNat_mod (hp : 0 < p) (hlt : p < 2 ^ 384) (n : Nat) : (BitVec.ofNat 384 (n % p)).toNat = n % p := by
  rw [BitVec.toNat_ofNat, Nat.mod_eq_of_lt (lt_trans (Nat.mod_lt _ hp) hlt)]

section

variable (hp : 0 < p) (hlt : p < 2 ^ 384)
include hp hlt

theorem fpAdd_lt (x y : FpWord) : (fpAdd p x y).toNat < p := by
  rw [fpAdd, toNat_ofNat_mod hp hlt]; exact Nat.mod_lt _ hp

theorem fpNeg_lt (x : FpWord) : (fpNeg p x).toNat < p := by
  rw [fpNeg, toNat_ofNat_mod hp hlt]; exact Nat.mod_lt _ hp

theorem fpMul_lt (x y : FpWord) : (fpMul p x y).toNat < p := by
  rw [fpMul, toNat_ofNat_mod hp hlt]; exact Nat.mod_lt _ hp

theorem fp2Add_ok (x y : Fp2) : (fp2Add p x y).Ok p := ⟨fpAdd_lt hp hlt _ _, fpAdd_lt hp hlt _ _⟩

theorem fp2Neg_ok (x : Fp2) : (fp2Neg p x).Ok p := ⟨fpNeg_lt hp hlt _, fpNeg_lt hp hlt _⟩

theorem fp2Mul_ok (x y : Fp2) : (fp2Mul p x y).Ok p := ⟨fpAdd_lt hp hlt _ _, fpAdd_lt hp hlt _ _⟩

theorem fp2MulXi_ok (x : Fp2) : (fp2MulXi p x).Ok p := ⟨fpAdd_lt hp hlt _ _, fpAdd_lt hp hlt _ _⟩

theorem fp6Add_inRange (x y : Fp6) : (fp6Add p x y).inRange p = true :=
  Fp6.inRange_iff.2 ⟨fp2Add_ok hp hlt _ _, fp2Add_ok hp hlt _ _, fp2Add_ok hp hlt _ _⟩

theorem fp6Neg_inRange (x : Fp6) : (fp6Neg p x).inRange p = true :=
  Fp6.inRange_iff.2 ⟨fp2Neg_ok hp hlt _, fp2Neg_ok hp hlt _, fp2Neg_ok hp hlt _⟩

theorem fp6Mul_inRange (x y : Fp6) : (fp6Mul p x y).inRange p = true :=
  Fp6.inRange_iff.2 ⟨fp2Add_ok hp hlt _ _, fp2Add_ok hp hlt _ _, fp2Add_ok hp hlt _ _⟩

theorem fp6Inv_inRange (x : Fp6) : (fp6Inv p x).inRange p = true :=
  Fp6.inRange_iff.2 ⟨fp2Mul_ok hp hlt _ _, fp2Mul_ok hp hlt _ _, fp2Mul_ok hp hlt _ _⟩

theorem fp12Mul_inRange (a b : Fp12) : (fp12Mul p a b).inRange p = true :=
  Fp12.inRange_iff.2 ⟨fp6Add_inRange hp hlt _ _, fp6Add_inRange hp hlt _ _⟩

theorem fp12Conj_inRange {a : Fp12} (ha : a.inRange p = true) : (fp12Conj p a).inRange p = true :=
  Fp12.inRange_iff.2 ⟨(Fp12.inRange_iff.1 ha).1, fp6Neg_inRange hp hlt _⟩

theorem fp12Inv_inRange (a : Fp12) : (fp12Inv p a).inRange p = true :=
  Fp12.inRange_iff.2 ⟨fp6Mul_inRange hp hlt _ _, fp6Mul_inRange hp hlt _ _⟩

theorem fp12PowLoop_inRange (x : Fp12) (e n : Nat) {acc : Fp12} (h : acc.inRange p = true) :
    (fp12PowLoop p x e n acc).inRange p = true := by
  induction n generalizing acc with
  | zero => exact h
  | succ n ih =>
    simp only [fp12PowLoop]
    exact ih (by split <;> exact fp12Mul_inRange hp hlt _ _)

end

theorem recommendedTower_inv12 (q p : Nat) (a : Fp12) :
    (recommendedTower q p).inv12 a = if a = Fp12.zero then none else some (fp12Inv p a) := rfl

theorem recommendedTower_inv6 (q p : Nat) (s : Fp6) :
    (recommendedTower q p).inv6 s = if s = Fp6.zero then none else some (fp6Inv p s) := rfl

/-- The recommended tower is closed over any P above 1 that fits (43_gt_group.md R261). -/
theorem recommendedTower_closed (q : Nat) (hp : 1 < p) (hlt : p < 2 ^ 384) : (recommendedTower q p).Closed p where
  mul12 _ _ _ _ := fp12Mul_inRange (by omega) hlt _ _
  sqr12 _ _ := fp12Mul_inRange (by omega) hlt _ _
  inv12 a b _ h := by
    by_cases hz : a = Fp12.zero
    · rw [recommendedTower_inv12, if_pos hz] at h; exact absurd h (Option.some_ne_none _).symm
    · rw [recommendedTower_inv12, if_neg hz, Option.some_inj] at h; exact h ▸ fp12Inv_inRange (by omega) hlt _
  conj12 _ ha := fp12Conj_inRange (by omega) hlt ha
  fexp _ _ := fp12PowLoop_inRange (by omega) hlt _ _ _ (Fp12.one_inRange hp)
  mul6 _ _ _ _ := fp6Mul_inRange (by omega) hlt _ _
  inv6 s t _ h := by
    by_cases hz : s = Fp6.zero
    · rw [recommendedTower_inv6, if_pos hz] at h; exact absurd h (Option.some_ne_none _).symm
    · rw [recommendedTower_inv6, if_neg hz, Option.some_inj] at h; exact h ▸ fp6Inv_inRange (by omega) hlt _

end Machine

end Sys2Proof
end

