-- ==== Sys2Proof/Laws/Exec.lean ====
section
/-! SUPPORT. Everything a command can do: the successor states of `exec`, as one list of shapes, for a state that meets the
invariant. -/

namespace Sys2Proof.Machine

/-! ### Taking a rule apart -/

/-- A sequence gives a result where its first part does and the rest does. -/
theorem bind_eq_ok {α β : Type} {x : Except Stop α} {f : α → Except Stop β} {b : β} :
    (x >>= f) = .ok b ↔ ∃ a, x = .ok a ∧ f a = .ok b := by
  cases x with
  | error e =>
    constructor
    · intro h; cases h
    · rintro ⟨a, h, -⟩; cases h
  | ok a =>
    constructor
    · intro h; exact ⟨a, rfl, h⟩
    · rintro ⟨a, h, h'⟩; cases h; exact h'

theorem pure_eq_ok {α : Type} {a b : α} : (pure a : Except Stop α) = .ok b ↔ a = b := by
  show Except.ok a = Except.ok b ↔ a = b
  rw [Except.ok.injEq]

theorem throw_ne_ok {α : Type} {e : Stop} {b : α} : ¬ (throw e : Except Stop α) = .ok b := fun h => by cases h

theorem residue_eq_ok {s : State} {i : Fin 16} {m : Nat} :
    s.residue i = .ok m ↔ s.sv[i] = true ∧ s.sreg[i].toNat = m := by
  cases h : s.sv[i]
  · rw [State.residue_uninit h]; simp
  · rw [State.residue_ok h]; simp

theorem scalar_eq_ok {s : State} {i : Fin 16} {x : Nat} :
    s.scalar i = .ok x ↔ s.sv[i] = true ∧ s.canonical i = x := by
  cases h : s.sv[i]
  · rw [State.scalar_uninit h]; simp
  · rw [State.scalar_ok h]; simp

theorem gt_eq_ok {s : State} {i : Fin 8} {a : Fp12} : s.gt i = .ok a ↔ s.gv[i] = true ∧ s.greg[i] = a := by
  cases h : s.gv[i]
  · rw [State.gt_uninit h]; simp
  · rw [State.gt_ok h]; simp

theorem torus_eq_ok {s : State} {i : Fin 4} {t : Fp6} : s.torus i = .ok t ↔ s.tv[i] = true ∧ s.treg[i] = t := by
  cases h : s.tv[i]
  · rw [State.torus_uninit h]; simp
  · rw [State.torus_ok h]; simp

theorem gIndex_eq_ok {f : RegField} {i : Fin 8} : gIndex f = .ok i ↔ f.toNat = i := by
  by_cases h : f.toNat < 8
  · rw [gIndex_ok h, Except.ok.injEq, Fin.ext_iff]
  · rw [gIndex_bad (by omega)]; simp; omega

theorem tIndex_eq_ok {f : RegField} {i : Fin 4} : tIndex f = .ok i ↔ f.toNat = i := by
  by_cases h : f.toNat < 4
  · rw [tIndex_ok h, Except.ok.injEq, Fin.ext_iff]
  · rw [tIndex_bad (by omega)]; simp; omega

/-! ### Values in range -/

theorem halve_lt {q m : Nat} (hm : m < q) : halve q m < q := by
  rw [halve]; split <;> omega

theorem halveTimes_lt {q : Nat} (n : Nat) {m : Nat} (hm : m < q) : halveTimes q n m < q := by
  induction n generalizing m with
  | zero => exact hm
  | succ n ih => exact ih (halve_lt hm)

theorem gsmulLoop_inRange {p : Nat} {tw : Tower} (hc : tw.Closed p) {g : Fp12} (hg : g.inRange p = true) (x n : Nat) :
    ∀ {acc : Fp12}, acc.inRange p = true → (gsmulLoop tw g x n acc).inRange p = true := by
  induction n with
  | zero => exact id
  | succ n ih =>
    intro acc h
    refine ih ?_
    split
    · exact hc.mul12 _ _ (hc.sqr12 _ h) hg
    · exact hc.sqr12 _ h

theorem addone_inRange {p : Nat} (hp : BaseModulusOk p) {c : Fp6} (hc : c.inRange p = true) :
    (addone p c).inRange p = true := by
  obtain ⟨h0, h1, h2⟩ := Fp6.inRange_iff.1 hc
  refine Fp6.inRange_iff.2 ⟨⟨?_, h0.2⟩, h1, h2⟩
  show (BitVec.ofNat 384 ((c.c0.c0.toNat + 1) % p)).toNat < p
  rw [toNat_ofNat_mod hp.prime.pos hp.fits]
  exact Nat.mod_lt _ hp.prime.pos

theorem minusOne6_inRange {p : Nat} (hp : BaseModulusOk p) : (minusOne6 p).inRange p = true := by
  have h1 := hp.prime.one_lt
  have h0 : (BitVec.ofNat 384 (p - 1)).toNat = p - 1 := by
    rw [BitVec.toNat_ofNat, Nat.mod_eq_of_lt (lt_of_le_of_lt (Nat.sub_le _ _) hp.fits)]
  refine Fp6.inRange_iff.2 ⟨⟨?_, ?_⟩, ⟨?_, ?_⟩, ⟨?_, ?_⟩⟩
  · show (BitVec.ofNat 384 (p - 1)).toNat < p
    omega
  all_goals show (0 : FpWord).toNat < p; simp; omega

theorem compress_inRange {p : Nat} {tw : Tower} (hp : BaseModulusOk p) (hc : tw.Closed p) {g : Fp12} {t : Fp6}
    (hg : g.inRange p = true) (h : compress tw p g = some t) : t.inRange p = true := by
  obtain ⟨hlo, hhi⟩ := Fp12.inRange_iff.1 hg
  rw [compress] at h
  split at h
  · cases h
  · rename_i i hi
    cases h
    exact hc.mul6 _ _ (hc.inv6 _ _ hhi hi) (addone_inRange hp hlo)

theorem uncompress_inRange {p : Nat} {tw : Tower} (hp : BaseModulusOk p) (hc : tw.Closed p) {t : Fp6} {g : Fp12}
    (ht : t.inRange p = true) (h : uncompress tw p t = .ok g) : g.inRange p = true := by
  rw [uncompress] at h
  split at h
  · cases h
  · rename_i y hy
    simp only at h
    split at h
    · cases h
      exact hc.mul12 _ _ (Fp12.inRange_iff.2 ⟨ht, Fp6.one_inRange hp.prime.one_lt⟩)
        (hc.inv12 _ _ (Fp12.inRange_iff.2 ⟨ht, minusOne6_inRange hp⟩) hy)
    · cases h

theorem drawFp12_inRange {s : State} (hp : BaseModulusOk s.p) : s.drawFp12.inRange s.p = true := by
  have h : ∀ n, (BitVec.ofNat 384 (n % s.p)).toNat < s.p := fun n => by
    rw [toNat_ofNat_mod hp.prime.pos hp.fits]; exact Nat.mod_lt _ hp.prime.pos
  exact Fp12.inRange_iff.2 ⟨Fp6.inRange_iff.2 ⟨⟨h _, h _⟩, ⟨h _, h _⟩, ⟨h _, h _⟩⟩,
    Fp6.inRange_iff.2 ⟨⟨h _, h _⟩, ⟨h _, h _⟩, ⟨h _, h _⟩⟩⟩

/-- What decoding a vector gives: each component is the word of its bytes, and below P. -/
theorem decodeVec_eq_some {p : Nat} {order : List Byte → Nat} {m : Memory} {off n : Nat} {f : Nat → FpWord}
    (h : decodeVec p order m off n = some f) :
    (∀ k < n, component order m off k < p) ∧ f = fun k => BitVec.ofNat 384 (component order m off k) := by
  rw [decodeVec] at h
  split at h
  · rename_i hall
    cases h
    refine ⟨fun k hk => ?_, rfl⟩
    simpa using List.all_eq_true.1 hall k (List.mem_range.2 hk)
  · cases h

theorem ofFn_inRange12 {p : Nat} (hp : BaseModulusOk p) {f g : Nat → Nat} (hf : ∀ k, f k = g k) (hg : ∀ k < 12, g k < p) :
    (Fp12.ofFn fun k => BitVec.ofNat 384 (f k)).inRange p = true := by
  have h : ∀ k < 12, (BitVec.ofNat 384 (f k)).toNat < p := fun k hk => by
    rw [hf, BitVec.toNat_ofNat, Nat.mod_eq_of_lt (lt_trans (hg k hk) hp.fits)]; exact hg k hk
  refine Fp12.inRange_iff.2 ⟨Fp6.inRange_iff.2 ⟨⟨h 0 ?_, h 1 ?_⟩, ⟨h 2 ?_, h 3 ?_⟩, ⟨h 4 ?_, h 5 ?_⟩⟩,
    Fp6.inRange_iff.2 ⟨⟨h (0 + 6) ?_, h (1 + 6) ?_⟩, ⟨h (2 + 6) ?_, h (3 + 6) ?_⟩, ⟨h (4 + 6) ?_, h (5 + 6) ?_⟩⟩⟩ <;>
    norm_num

theorem ofFn_inRange6 {p : Nat} (hp : BaseModulusOk p) {f : Nat → Nat} (hf : ∀ k < 6, f k < p) :
    (Fp6.ofFn fun k => BitVec.ofNat 384 (f k)).inRange p = true := by
  have h : ∀ k < 6, (BitVec.ofNat 384 (f k)).toNat < p := fun k hk => by
    rw [BitVec.toNat_ofNat, Nat.mod_eq_of_lt (lt_trans (hf k hk) hp.fits)]; exact hf k hk
  refine Fp6.inRange_iff.2 ⟨⟨h 0 ?_, h 1 ?_⟩, ⟨h 2 ?_, h 3 ?_⟩, ⟨h 4 ?_, h 5 ?_⟩⟩ <;> norm_num

theorem length_encodeVec {order : Nat → Nat → List Byte} (ho : ∀ n x, (order n x).length = n) (cs : List FpWord) :
    (encodeVec order cs).length = 48 * cs.length := by
  induction cs with
  | nil => rfl
  | cons c cs ih =>
    rw [encodeVec, List.flatMap_cons, List.length_append, ho, List.length_cons]
    rw [encodeVec] at ih
    omega

/-! ### The shapes of a command's successor -/

/-- What a command can leave: a completion that wrote nothing, or one write of one kind, completed with ok, or the draws
of a GRAND that goes on. -/
inductive ExecShape (s : State) : State → Prop
  /-- A completion alone. -/
  | completed (o : Option Stop) : ExecShape s (s.complete o)
  /-- A residue. -/
  | scalar (d : Fin 16) (m : Nat) (hm : m < s.q) : ExecShape s ((s.setS d m).complete none)
  /-- A residue, after a draw. -/
  | drawnScalar (d : Fin 16) (m : Nat) (hm : m < s.q) : ExecShape s ((s.drawn.setS d m).complete none)
  /-- A Gt element. -/
  | gt (d : Fin 8) (a : Fp12) (ha : a.inRange s.p = true) : ExecShape s ((s.setG d a).complete none)
  /-- A Gt element, after draws. -/
  | drawnGt (d : Fin 8) (a : Fp12) (ha : a.inRange s.p = true) : ExecShape s ((s.drawn.setG d a).complete none)
  /-- A torus value. -/
  | torus (d : Fin 4) (x : Fp6) (hx : x.inRange s.p = true) : ExecShape s ((s.setT d x).complete none)
  /-- RESULT. -/
  | result (v : Word) : ExecShape s ((s.setResult v).complete none)
  /-- Bytes of DBUF. -/
  | stored (off : Nat) (bs : List Byte) (hb : off + bs.length ≤ dbufSize) :
    ExecShape s ((s.store off bs).complete none)
  /-- A GRAND whose draws were all zero. -/
  | drawn : ExecShape s s.drawn

/-- The shape of a command's successor is that of its rule's result. -/
theorem shape_of_rule {rule : State → Except Stop State} {s t : State} (h : runCommand rule s = .next t)
    (hr : ∀ u, rule s = .ok u → ExecShape s (u.complete none)) : ExecShape s t := by
  obtain ⟨-, rfl⟩ | ⟨-, e, -, rfl⟩ | ⟨-, u, hu, rfl⟩ := runCommand_cases h
  · exact .completed _
  · exact .completed _
  · exact hr u hu

theorem writeScalar_eq (s : State) (d : Fin 16) (x : Nat) : s.writeScalar d x = s.setS d (res s.q x) := rfl

theorem bufferRange_bound {off : BitVec 6} {len : BitVec 12} {lreq o : Nat} (h : bufferRange off len lreq = .ok o) :
    o + lreq ≤ dbufSize := (bufferRange_ok.1 h).2.2

section

variable {s t : State} (hI : s.Inv)
include hI

theorem shape_writeScalar (d : Fin 16) (x : Nat) : ExecShape s ((s.writeScalar d x).complete none) :=
  .scalar d _ (res_lt hI.usable.scalar x)

theorem scalars_of_valid {i : Fin 16} {m : Nat} (h : s.sv[i] = true ∧ s.sreg[i].toNat = m) : m < s.q :=
  h.2 ▸ hI.scalars i h.1

theorem gts_of_valid {i : Fin 8} {a : Fp12} (h : s.gv[i] = true ∧ s.greg[i] = a) : a.inRange s.p = true :=
  h.2 ▸ hI.gts i h.1

theorem tori_of_valid {i : Fin 4} {x : Fp6} (h : s.tv[i] = true ∧ s.treg[i] = x) : x.inRange s.p = true :=
  h.2 ▸ hI.tori i h.1

/-- Everything a command can do, in a state that meets the invariant. -/
theorem exec_shape (i : Instr) (h : exec i s = .next t) : ExecShape s t := by
  have hq := hI.usable.scalar
  have hp := hI.usable.base
  have hc : s.tower.Closed s.p := hI.usable.closed
  cases i with
  | nop =>
    change execNop s = .next t at h
    rw [execNop] at h
    exact shape_of_rule h fun u hu => by cases hu; exact .completed none
  | sadd d a b =>
    change execSadd d a b s = .next t at h
    rw [execSadd] at h
    refine shape_of_rule h fun u hu => ?_
    obtain ⟨x, -, hu⟩ := bind_eq_ok.1 hu
    obtain ⟨y, -, hu⟩ := bind_eq_ok.1 hu
    cases hu; exact shape_writeScalar hI _ _
  | ssub d a b =>
    change execSsub d a b s = .next t at h
    rw [execSsub] at h
    refine shape_of_rule h fun u hu => ?_
    obtain ⟨x, -, hu⟩ := bind_eq_ok.1 hu
    obtain ⟨y, -, hu⟩ := bind_eq_ok.1 hu
    cases hu; exact shape_writeScalar hI _ _
  | smul d a b =>
    change execSmul d a b s = .next t at h
    rw [execSmul] at h
    refine shape_of_rule h fun u hu => ?_
    obtain ⟨x, -, hu⟩ := bind_eq_ok.1 hu
    obtain ⟨y, -, hu⟩ := bind_eq_ok.1 hu
    cases hu; exact .scalar _ _ (montMul_lt hq _ _)
  | sneg d a =>
    change execSneg d a s = .next t at h
    rw [execSneg] at h
    refine shape_of_rule h fun u hu => ?_
    obtain ⟨x, -, hu⟩ := bind_eq_ok.1 hu
    cases hu; exact shape_writeScalar hI _ _
  | sdbl d a =>
    change execSdbl d a s = .next t at h
    rw [execSdbl] at h
    refine shape_of_rule h fun u hu => ?_
    obtain ⟨x, -, hu⟩ := bind_eq_ok.1 hu
    cases hu; exact shape_writeScalar hI _ _
  | ssqr d a =>
    change execSsqr d a s = .next t at h
    rw [execSsqr] at h
    refine shape_of_rule h fun u hu => ?_
    obtain ⟨x, -, hu⟩ := bind_eq_ok.1 hu
    cases hu; exact .scalar _ _ (montMul_lt hq _ _)
  | sinv d a =>
    change execSinv d a s = .next t at h
    rw [execSinv] at h
    refine shape_of_rule h fun u hu => ?_
    obtain ⟨x, -, hu⟩ := bind_eq_ok.1 hu
    by_cases hx : x = 0
    · rw [if_pos hx] at hu; cases hu
    · rw [if_neg hx] at hu; cases hu; exact shape_writeScalar hI _ _
  | sdiv d a b =>
    change execSdiv d a b s = .next t at h
    rw [execSdiv] at h
    refine shape_of_rule h fun u hu => ?_
    obtain ⟨x, -, hu⟩ := bind_eq_ok.1 hu
    obtain ⟨y, -, hu⟩ := bind_eq_ok.1 hu
    by_cases hy : y = 0
    · rw [if_pos hy] at hu; cases hu
    · rw [if_neg hy] at hu; cases hu; exact shape_writeScalar hI _ _
  | spow d a b =>
    change execSpow d a b s = .next t at h
    rw [execSpow] at h
    refine shape_of_rule h fun u hu => ?_
    obtain ⟨x, -, hu⟩ := bind_eq_ok.1 hu
    obtain ⟨y, -, hu⟩ := bind_eq_ok.1 hu
    cases hu; exact shape_writeScalar hI _ _
  | ssqrt d a =>
    change execSsqrt d a s = .next t at h
    rw [execSsqrt] at h
    refine shape_of_rule h fun u hu => ?_
    obtain ⟨x, -, hu⟩ := bind_eq_ok.1 hu
    by_cases hx : x = 0
    · rw [if_pos hx] at hu; cases hu; exact shape_writeScalar hI _ _
    · rw [if_neg hx] at hu
      by_cases he : eulerPower s.q x ≠ 1
      · rw [if_pos he] at hu; cases hu
      · rw [if_neg he] at hu; cases hu; exact .drawnScalar _ _ (res_lt hq _)
  | sleg a =>
    change execSleg a s = .next t at h
    rw [execSleg] at h
    refine shape_of_rule h fun u hu => ?_
    obtain ⟨x, -, hu⟩ := bind_eq_ok.1 hu
    cases hu; exact .result _
  | sshl d a imm =>
    change execSshl d a imm s = .next t at h
    rw [execSshl] at h
    refine shape_of_rule h fun u hu => ?_
    obtain ⟨x, -, hu⟩ := bind_eq_ok.1 hu
    cases hu; exact .scalar _ _ (Nat.mod_lt _ hq.pos)
  | sshr d a imm =>
    change execSshr d a imm s = .next t at h
    rw [execSshr] at h
    refine shape_of_rule h fun u hu => ?_
    obtain ⟨x, hx, hu⟩ := bind_eq_ok.1 hu
    cases hu; exact .scalar _ _ (halveTimes_lt _ (scalars_of_valid hI (residue_eq_ok.1 hx)))
  | seq a b =>
    change execSeq a b s = .next t at h
    rw [execSeq] at h
    refine shape_of_rule h fun u hu => ?_
    obtain ⟨x, -, hu⟩ := bind_eq_ok.1 hu
    obtain ⟨y, -, hu⟩ := bind_eq_ok.1 hu
    cases hu; exact .result _
  | scmp a b =>
    change execScmp a b s = .next t at h
    rw [execScmp] at h
    refine shape_of_rule h fun u hu => ?_
    obtain ⟨x, -, hu⟩ := bind_eq_ok.1 hu
    obtain ⟨y, -, hu⟩ := bind_eq_ok.1 hu
    cases hu; exact .result _
  | sisz a =>
    change execSisz a s = .next t at h
    rw [execSisz] at h
    refine shape_of_rule h fun u hu => ?_
    obtain ⟨x, -, hu⟩ := bind_eq_ok.1 hu
    cases hu; exact .result _
  | ssel d a b =>
    change execSsel d a b s = .next t at h
    rw [execSsel] at h
    refine shape_of_rule h fun u hu => ?_
    obtain ⟨m, hm, hu⟩ := bind_eq_ok.1 hu
    obtain ⟨n, hn, hu⟩ := bind_eq_ok.1 hu
    cases hu
    refine .scalar _ _ ?_
    split
    · exact scalars_of_valid hI (residue_eq_ok.1 hn)
    · exact scalars_of_valid hI (residue_eq_ok.1 hm)
  | smov d a =>
    change execSmov d a s = .next t at h
    rw [execSmov] at h
    refine shape_of_rule h fun u hu => ?_
    obtain ⟨m, hm, hu⟩ := bind_eq_ok.1 hu
    cases hu; exact .scalar _ _ (scalars_of_valid hI (residue_eq_ok.1 hm))
  | szero d =>
    change execSzero d s = .next t at h
    rw [execSzero] at h
    exact shape_of_rule h fun u hu => by cases hu; exact shape_writeScalar hI _ _
  | sone d =>
    change execSone d s = .next t at h
    rw [execSone] at h
    exact shape_of_rule h fun u hu => by cases hu; exact shape_writeScalar hI _ _
  | simm d imm =>
    change execSimm d imm s = .next t at h
    rw [execSimm] at h
    exact shape_of_rule h fun u hu => by cases hu; exact shape_writeScalar hI _ _
  | snbits a =>
    change execSnbits a s = .next t at h
    rw [execSnbits] at h
    refine shape_of_rule h fun u hu => ?_
    obtain ⟨x, -, hu⟩ := bind_eq_ok.1 hu
    cases hu; exact .result _
  | srand d =>
    change execSrand d s = .next t at h
    rw [execSrand] at h
    exact shape_of_rule h fun u hu => by cases hu; exact .drawnScalar _ _ (res_lt hq _)
  | sldle r off len =>
    change execSldle r off len s = .next t at h
    rw [execSldle] at h
    refine shape_of_rule h fun u hu => ?_
    obtain ⟨o, -, hu⟩ := bind_eq_ok.1 hu
    by_cases hx : s.q ≤ leNat (Memory.readBytes s.dbuf o 32)
    · rw [if_pos hx] at hu; cases hu
    · rw [if_neg hx] at hu; cases hu; exact shape_writeScalar hI _ _
  | sldbe r off len =>
    change execSldbe r off len s = .next t at h
    rw [execSldbe] at h
    refine shape_of_rule h fun u hu => ?_
    obtain ⟨o, -, hu⟩ := bind_eq_ok.1 hu
    by_cases hx : s.q ≤ beNat (Memory.readBytes s.dbuf o 32)
    · rw [if_pos hx] at hu; cases hu
    · rw [if_neg hx] at hu; cases hu; exact shape_writeScalar hI _ _
  | sstle r off len =>
    change execSstle r off len s = .next t at h
    rw [execSstle] at h
    refine shape_of_rule h fun u hu => ?_
    obtain ⟨x, -, hu⟩ := bind_eq_ok.1 hu
    obtain ⟨o, ho, hu⟩ := bind_eq_ok.1 hu
    cases hu; exact .stored _ _ (by rw [length_leBytes]; exact bufferRange_bound ho)
  | sstbe r off len =>
    change execSstbe r off len s = .next t at h
    rw [execSstbe] at h
    refine shape_of_rule h fun u hu => ?_
    obtain ⟨x, -, hu⟩ := bind_eq_ok.1 hu
    obtain ⟨o, ho, hu⟩ := bind_eq_ok.1 hu
    cases hu; exact .stored _ _ (by rw [length_beBytes]; exact bufferRange_bound ho)
  | sldraw r off len =>
    change execSldraw r off len s = .next t at h
    rw [execSldraw] at h
    refine shape_of_rule h fun u hu => ?_
    obtain ⟨o, -, hu⟩ := bind_eq_ok.1 hu
    cases hu; exact .scalar _ _ (montMul_lt hq _ _)
  | sldwide r off len =>
    change execSldwide r off len s = .next t at h
    rw [execSldwide] at h
    refine shape_of_rule h fun u hu => ?_
    obtain ⟨o, -, hu⟩ := bind_eq_ok.1 hu
    cases hu; exact shape_writeScalar hI _ _
  | sldokm r off len =>
    change execSldokm r off len s = .next t at h
    rw [execSldokm] at h
    refine shape_of_rule h fun u hu => ?_
    obtain ⟨o, -, hu⟩ := bind_eq_ok.1 hu
    cases hu; exact shape_writeScalar hI _ _
  | gadd d a b =>
    change execGadd d a b s = .next t at h
    rw [execGadd] at h
    refine shape_of_rule h fun u hu => ?_
    obtain ⟨d, -, hu⟩ := bind_eq_ok.1 hu
    obtain ⟨a, -, hu⟩ := bind_eq_ok.1 hu
    obtain ⟨b, -, hu⟩ := bind_eq_ok.1 hu
    obtain ⟨x, hx, hu⟩ := bind_eq_ok.1 hu
    obtain ⟨y, hy, hu⟩ := bind_eq_ok.1 hu
    cases hu
    exact .gt _ _ (hc.mul12 _ _ (gts_of_valid hI (gt_eq_ok.1 hx)) (gts_of_valid hI (gt_eq_ok.1 hy)))
  | gsub d a b =>
    change execGsub d a b s = .next t at h
    rw [execGsub] at h
    refine shape_of_rule h fun u hu => ?_
    obtain ⟨d, -, hu⟩ := bind_eq_ok.1 hu
    obtain ⟨a, -, hu⟩ := bind_eq_ok.1 hu
    obtain ⟨b, -, hu⟩ := bind_eq_ok.1 hu
    obtain ⟨x, hx, hu⟩ := bind_eq_ok.1 hu
    obtain ⟨y, hy, hu⟩ := bind_eq_ok.1 hu
    cases hu
    exact .gt _ _ (hc.mul12 _ _ (gts_of_valid hI (gt_eq_ok.1 hx)) (hc.conj12 _ (gts_of_valid hI (gt_eq_ok.1 hy))))
  | gneg d a =>
    change execGneg d a s = .next t at h
    rw [execGneg] at h
    refine shape_of_rule h fun u hu => ?_
    obtain ⟨d, -, hu⟩ := bind_eq_ok.1 hu
    obtain ⟨a, -, hu⟩ := bind_eq_ok.1 hu
    obtain ⟨x, hx, hu⟩ := bind_eq_ok.1 hu
    cases hu; exact .gt _ _ (hc.conj12 _ (gts_of_valid hI (gt_eq_ok.1 hx)))
  | gdbl d a =>
    change execGdbl d a s = .next t at h
    rw [execGdbl] at h
    refine shape_of_rule h fun u hu => ?_
    obtain ⟨d, -, hu⟩ := bind_eq_ok.1 hu
    obtain ⟨a, -, hu⟩ := bind_eq_ok.1 hu
    obtain ⟨x, hx, hu⟩ := bind_eq_ok.1 hu
    cases hu; exact .gt _ _ (hc.sqr12 _ (gts_of_valid hI (gt_eq_ok.1 hx)))
  | gsmul d a b =>
    change execGsmul d a b s = .next t at h
    rw [execGsmul] at h
    refine shape_of_rule h fun u hu => ?_
    obtain ⟨d, -, hu⟩ := bind_eq_ok.1 hu
    obtain ⟨a, -, hu⟩ := bind_eq_ok.1 hu
    obtain ⟨x, hx, hu⟩ := bind_eq_ok.1 hu
    obtain ⟨y, -, hu⟩ := bind_eq_ok.1 hu
    cases hu
    exact .gt _ _ (gsmulLoop_inRange hc (gts_of_valid hI (gt_eq_ok.1 hx)) _ _
      (Fp12.one_inRange hp.prime.one_lt))
  | ginv d a =>
    change execGinv d a s = .next t at h
    rw [execGinv] at h
    refine shape_of_rule h fun u hu => ?_
    obtain ⟨d, -, hu⟩ := bind_eq_ok.1 hu
    obtain ⟨a, -, hu⟩ := bind_eq_ok.1 hu
    obtain ⟨x, hx, hu⟩ := bind_eq_ok.1 hu
    split at hu
    · cases hu
    · rename_i y hy
      cases hu; exact .gt _ _ (hc.inv12 _ _ (gts_of_valid hI (gt_eq_ok.1 hx)) hy)
  | gone d =>
    change execGone d s = .next t at h
    rw [execGone] at h
    refine shape_of_rule h fun u hu => ?_
    obtain ⟨d, -, hu⟩ := bind_eq_ok.1 hu
    cases hu; exact .gt _ _ (Fp12.one_inRange hp.prime.one_lt)
  | ggen d =>
    change execGgen d s = .next t at h
    rw [execGgen] at h
    refine shape_of_rule h fun u hu => ?_
    obtain ⟨d, -, hu⟩ := bind_eq_ok.1 hu
    cases hu; exact .gt _ _ hI.usable.generator
  | grand d =>
    change execGrand d s = .next t at h
    rw [execGrand] at h
    split at h
    · cases h; exact .completed _
    · split at h
      · cases h; exact .completed _
      · cases h
        rw [grandRound]
        split
        · exact .drawn
        · exact .drawnGt _ _ (hc.fexp _ (drawFp12_inRange hp))
  | gisid a =>
    change execGisid a s = .next t at h
    rw [execGisid] at h
    refine shape_of_rule h fun u hu => ?_
    obtain ⟨a, -, hu⟩ := bind_eq_ok.1 hu
    obtain ⟨x, -, hu⟩ := bind_eq_ok.1 hu
    cases hu; exact .result _
  | geq a b =>
    change execGeq a b s = .next t at h
    rw [execGeq] at h
    refine shape_of_rule h fun u hu => ?_
    obtain ⟨a, -, hu⟩ := bind_eq_ok.1 hu
    obtain ⟨b, -, hu⟩ := bind_eq_ok.1 hu
    obtain ⟨x, -, hu⟩ := bind_eq_ok.1 hu
    obtain ⟨y, -, hu⟩ := bind_eq_ok.1 hu
    cases hu; exact .result _
  | gsubg a =>
    change execGsubg a s = .next t at h
    rw [execGsubg] at h
    refine shape_of_rule h fun u hu => ?_
    obtain ⟨a, -, hu⟩ := bind_eq_ok.1 hu
    obtain ⟨x, -, hu⟩ := bind_eq_ok.1 hu
    cases hu; exact .result _
  | gmov d a =>
    change execGmov d a s = .next t at h
    rw [execGmov] at h
    refine shape_of_rule h fun u hu => ?_
    obtain ⟨d, -, hu⟩ := bind_eq_ok.1 hu
    obtain ⟨a, -, hu⟩ := bind_eq_ok.1 hu
    obtain ⟨x, hx, hu⟩ := bind_eq_ok.1 hu
    cases hu; exact .gt _ _ (gts_of_valid hI (gt_eq_ok.1 hx))
  | gld r off len =>
    change execGld r off len s = .next t at h
    rw [execGld] at h
    refine shape_of_rule h fun u hu => ?_
    obtain ⟨r, -, hu⟩ := bind_eq_ok.1 hu
    obtain ⟨o, -, hu⟩ := bind_eq_ok.1 hu
    split at hu
    · cases hu
    · rename_i f hf
      obtain ⟨hk, rfl⟩ := decodeVec_eq_some hf
      split at hu
      · cases hu; exact .gt _ _ (ofFn_inRange12 hp (fun _ => rfl) hk)
      · cases hu
  | gldu r off len =>
    change execGldu r off len s = .next t at h
    rw [execGldu] at h
    refine shape_of_rule h fun u hu => ?_
    obtain ⟨r, -, hu⟩ := bind_eq_ok.1 hu
    obtain ⟨o, -, hu⟩ := bind_eq_ok.1 hu
    split at hu
    · cases hu
    · rename_i f hf
      obtain ⟨hk, rfl⟩ := decodeVec_eq_some hf
      cases hu; exact .gt _ _ (ofFn_inRange12 hp (fun _ => rfl) hk)
  | gst r off len =>
    change execGst r off len s = .next t at h
    rw [execGst] at h
    refine shape_of_rule h fun u hu => ?_
    obtain ⟨r, -, hu⟩ := bind_eq_ok.1 hu
    obtain ⟨x, -, hu⟩ := bind_eq_ok.1 hu
    obtain ⟨o, ho, hu⟩ := bind_eq_ok.1 hu
    cases hu
    refine .stored _ _ ?_
    rw [length_encodeVec length_beBytes]
    exact bufferRange_bound ho
  | gcmpr d a =>
    change execGcmpr d a s = .next t at h
    rw [execGcmpr] at h
    refine shape_of_rule h fun u hu => ?_
    obtain ⟨d, -, hu⟩ := bind_eq_ok.1 hu
    obtain ⟨a, -, hu⟩ := bind_eq_ok.1 hu
    obtain ⟨x, hx, hu⟩ := bind_eq_ok.1 hu
    split at hu
    · cases hu
    · rename_i y hy
      cases hu; exact .torus _ _ (compress_inRange hp hc (gts_of_valid hI (gt_eq_ok.1 hx)) hy)
  | guncmpr d a =>
    change execGuncmpr d a s = .next t at h
    rw [execGuncmpr] at h
    refine shape_of_rule h fun u hu => ?_
    obtain ⟨d, -, hu⟩ := bind_eq_ok.1 hu
    obtain ⟨a, -, hu⟩ := bind_eq_ok.1 hu
    obtain ⟨x, hx, hu⟩ := bind_eq_ok.1 hu
    obtain ⟨g, hg, hu⟩ := bind_eq_ok.1 hu
    cases hu; exact .gt _ _ (uncompress_inRange hp hc (tori_of_valid hI (torus_eq_ok.1 hx)) hg)
  | tld r off len =>
    change execTld r off len s = .next t at h
    rw [execTld] at h
    refine shape_of_rule h fun u hu => ?_
    obtain ⟨r, -, hu⟩ := bind_eq_ok.1 hu
    obtain ⟨o, -, hu⟩ := bind_eq_ok.1 hu
    split at hu
    · cases hu
    · rename_i f hf
      obtain ⟨hk, rfl⟩ := decodeVec_eq_some hf
      cases hu; exact .torus _ _ (ofFn_inRange6 hp hk)
  | tst r off len =>
    change execTst r off len s = .next t at h
    rw [execTst] at h
    refine shape_of_rule h fun u hu => ?_
    obtain ⟨r, -, hu⟩ := bind_eq_ok.1 hu
    obtain ⟨x, -, hu⟩ := bind_eq_ok.1 hu
    obtain ⟨o, ho, hu⟩ := bind_eq_ok.1 hu
    cases hu
    refine .stored _ _ ?_
    rw [length_encodeVec length_leBytes]
    exact bufferRange_bound ho

end

end Sys2Proof.Machine
end

