-- ==== Sys2Proof/Laws/HostBus.lean ====
section
/-! SUPPORT. Which accesses reach which target of the window (spec/20_memory.md R85, R88, R89). -/

namespace Sys2Proof.Machine

/-- Below 0x014 only the five registers answer, and only to 4 bytes. -/
theorem targetAt_low {o : Nat} {w : Width} (h : o < 0x014) :
    targetAt o w =
      if w = .word then
        if o = 0x000 then .id else if o = 0x004 then .ctrl else if o = 0x008 then .status
        else if o = 0x00C then .result else if o = 0x010 then .cmd else .error
      else .error := by
  rw [targetAt, if_pos h]

/-- From 0x014 to 0x3FF nothing answers. -/
theorem targetAt_reserved {o : Nat} {w : Width} (h : 0x014 ≤ o) (h' : o < 0x400) : targetAt o w = .error := by
  rw [targetAt, if_neg (by omega), if_pos h']

/-- From 0x400 on an aligned access reaches DBUF. -/
theorem targetAt_high {o : Nat} {w : Width} (h : 0x400 ≤ o) :
    targetAt o w = if o % w.bytes = 0 then .dbuf (o - 0x400) else .error := by
  rw [targetAt, if_neg (by omega), if_neg (by omega)]

/-- An access that reaches DBUF is aligned. -/
theorem targetAt_eq_dbuf {o k : Nat} {w : Width} (h : targetAt o w = .dbuf k) :
    0x400 ≤ o ∧ o % w.bytes = 0 ∧ k = o - 0x400 := by
  rcases Nat.lt_or_ge o 0x014 with h1 | h1
  · rw [targetAt_low h1] at h
    by_cases hw : w = .word
    · rw [if_pos hw] at h
      by_cases h0 : o = 0x000
      · rw [if_pos h0] at h; cases h
      · rw [if_neg h0] at h
        by_cases h4 : o = 0x004
        · rw [if_pos h4] at h; cases h
        · rw [if_neg h4] at h
          by_cases h8 : o = 0x008
          · rw [if_pos h8] at h; cases h
          · rw [if_neg h8] at h
            by_cases hc : o = 0x00C
            · rw [if_pos hc] at h; cases h
            · rw [if_neg hc] at h
              by_cases hd : o = 0x010
              · rw [if_pos hd] at h; cases h
              · rw [if_neg hd] at h; cases h
    · rw [if_neg hw] at h; cases h
  · rcases Nat.lt_or_ge o 0x400 with h2 | h2
    · rw [targetAt_reserved h1 h2] at h; cases h
    · rw [targetAt_high h2] at h
      by_cases ha : o % w.bytes = 0
      · rw [if_pos ha] at h; exact ⟨h2, ha, (Target.dbuf.inj h).symm⟩
      · rw [if_neg ha] at h; cases h

/-- A range that an access reaches in DBUF lies inside it (20_memory.md R80, R88). -/
theorem target_in_dbuf {addr k : Nat} {w : Width} (h : targetAt (addr % windowSize) w = .dbuf k) :
    k + w.bytes ≤ dbufSize := by
  obtain ⟨h1, h2, h3⟩ := targetAt_eq_dbuf h
  have h8 : addr % windowSize < 0x800 := Nat.mod_lt _ (by decide)
  rw [dbufSize]
  cases w <;> simp only [Width.bytes] at * <;> omega

/-- An access that is answered is performed with rst_n released. -/
theorem addressed_rstN {s : State} {a : Access} (h : s.addressed a = true) : s.rstN = true := by
  rw [State.addressed, Bool.and_eq_true] at h; exact h.1

/-! ### What an access can do -/

/-- Only a 4-byte access reaches ID, at offset 0x000, and STATUS, at 0x008 (20_memory.md R85, R88). -/
theorem targetAt_id_or_status {o : Nat} {w : Width} :
    (targetAt o w = .id ∨ targetAt o w = .status) ↔ w = .word ∧ (o = 0x000 ∨ o = 0x008) := by
  rcases Nat.lt_or_ge o 0x014 with h1 | h1
  · interval_cases o <;> cases w <;> decide
  · have hn : targetAt o w ≠ .id ∧ targetAt o w ≠ .status := by
      rcases Nat.lt_or_ge o 0x400 with h2 | h2
      · rw [targetAt_reserved h1 h2]; decide
      · rw [targetAt_high h2]; split <;> exact ⟨nofun, nofun⟩
    refine ⟨fun h => ?_, fun h => by omega⟩
    rcases h with h | h
    · exact absurd h hn.1
    · exact absurd h hn.2

/-- Only a 4-byte read of ID or STATUS is never held (20_memory.md R93, entry 7). -/
theorem Access.neverHeld_iff (a : Access) :
    a.neverHeld = true ↔ ∃ addr, a = .read addr .word ∧ (addr % windowSize = 0x000 ∨ addr % windowSize = 0x008) := by
  cases a with
  | write addr width data =>
    constructor
    · intro h; cases h
    · rintro ⟨_, h, _⟩; cases h
  | read addr width =>
    have e : (Access.read addr width).neverHeld = true ↔
        (targetAt (addr % windowSize) width = .id ∨ targetAt (addr % windowSize) width = .status) := by
      rw [Access.neverHeld]
      cases targetAt (addr % windowSize) width <;> simp
    rw [e, targetAt_id_or_status]
    constructor
    · rintro ⟨rfl, h⟩; exact ⟨addr, rfl, h⟩
    · rintro ⟨_, h, h'⟩; cases h; exact ⟨rfl, h'⟩

/-- No access waits for a command where none is pending. -/
@[simp] theorem State.mustWait_of_idle {s : State} {a : Access} (h : s.busy = false) : s.mustWait a = false := by
  rw [State.mustWait, h]; cases s.addressed a <;> rfl

/-- A read of STATUS or ID waits for no command (20_memory.md R93). -/
@[simp] theorem State.mustWait_of_neverHeld {s : State} {a : Access} (h : a.neverHeld = true) : s.mustWait a = false := by
  rw [State.mustWait, h]; exact Bool.and_false _

/-- An access that does not reach the block has no effect and gets no response. -/
theorem State.perform_of_not_addressed {s : State} {a : Access} (h : s.addressed a = false) :
    s.perform a = { s with lastResp := none } := by
  unfold State.perform; rw [if_neg (by rw [h]; decide)]

/-- A read that reaches the block leaves only its response. -/
theorem State.perform_read {s : State} {addr : Nat} {width : Width} (h : s.addressed (.read addr width) = true) :
    s.perform (.read addr width) =
      { s with lastResp := some (s.readTarget width (targetAt (addr % windowSize) width)) } := by
  unfold State.perform; rw [if_pos h]; rfl

/-- A write that reaches the block does what its target says and leaves its response. -/
theorem State.perform_write {s : State} {addr : Nat} {width : Width} {data : Word}
    (h : s.addressed (.write addr width data) = true) :
    s.perform (.write addr width data) =
      { s.writeTarget width data (targetAt (addr % windowSize) width) with
        lastResp := some (writeResponse (targetAt (addr % windowSize) width)) } := by
  unfold State.perform; rw [if_pos h]; rfl

/-- Every response to a read that ends in ERROR carries data 0 (20_memory.md R88, R89). -/
theorem State.readTarget_error {s : State} {width : Width} {k : Target} (h : (s.readTarget width k).code = .error) :
    s.readTarget width k = ⟨.error, some 0⟩ := by
  cases k <;> first | rfl | cases h

/-- The level 1 where rst_n is 1 already is no event (entry 15). -/
theorem State.setRstN_of_released {s : State} (h : s.rstN = true) : s.setRstN true = s := by
  rw [State.setRstN, h]; rfl

/-- The level 0, and the level 1 where rst_n was 0, reset the block (70_reset_and_hazards.md R370). -/
theorem State.setRstN_of_reset {s : State} {level : Bool} (h : level = true → s.rstN = false) :
    s.setRstN level = { s.cleared with held := [], rstN := level } := by
  cases level with
  | false => rfl
  | true => rw [State.setRstN, h rfl]; rfl

end Sys2Proof.Machine
end

