-- ==== Sys2Proof/Laws/PerInstr.lean ====
section
/-! SUPPORT. The shape of every command's word: its OP is an assigned one and the reserved and unused fields of that OP's
row are zero (spec/30_encoding.md R122, R123, R127, R128). -/

namespace Sys2Proof

theorem opField_wordR (op : BitVec 8) (d a b : RegField) : opField (wordR op d a b) = op := by
  refine BitVec.eq_of_getLsbD_eq fun i hi => ?_
  simp only [opField, wordR, BitVec.getLsbD_extractLsb', BitVec.getLsbD_append]
  interval_cases i <;> simp

theorem opField_wordI12 (op : BitVec 8) (d a : RegField) (imm : BitVec 12) : opField (wordI12 op d a imm) = op := by
  refine BitVec.eq_of_getLsbD_eq fun i hi => ?_
  simp only [opField, wordI12, BitVec.getLsbD_extractLsb', BitVec.getLsbD_append]
  interval_cases i <;> simp

theorem opField_wordI16 (op : BitVec 8) (d : RegField) (imm : BitVec 16) : opField (wordI16 op d imm) = op := by
  refine BitVec.eq_of_getLsbD_eq fun i hi => ?_
  simp only [opField, wordI16, BitVec.getLsbD_extractLsb', BitVec.getLsbD_append]
  interval_cases i <;> simp

theorem opField_wordM (op : BitVec 8) (r : RegField) (off : BitVec 6) (len : BitVec 12) :
    opField (wordM op r off len) = op := by
  refine BitVec.eq_of_getLsbD_eq fun i hi => ?_
  simp only [opField, wordM, BitVec.getLsbD_extractLsb', BitVec.getLsbD_append]
  interval_cases i <;> simp

theorem wordR_reserved (op : BitVec 8) (d a b : RegField) : wordR op d a b &&& 0x00000FFF = 0 := by
  refine BitVec.eq_of_getLsbD_eq fun i hi => ?_
  simp only [wordR, BitVec.getLsbD_and, BitVec.getLsbD_append]
  interval_cases i <;> simp

theorem wordR_reserved_b (op : BitVec 8) (d a : RegField) : wordR op d a 0 &&& 0x0000FFFF = 0 := by
  refine BitVec.eq_of_getLsbD_eq fun i hi => ?_
  simp only [wordR, BitVec.getLsbD_and, BitVec.getLsbD_append]
  interval_cases i <;> simp

theorem wordR_reserved_ab (op : BitVec 8) (d : RegField) : wordR op d 0 0 &&& 0x000FFFFF = 0 := by
  refine BitVec.eq_of_getLsbD_eq fun i hi => ?_
  simp only [wordR, BitVec.getLsbD_and, BitVec.getLsbD_append]
  interval_cases i <;> simp

theorem wordR_reserved_d (op : BitVec 8) (a b : RegField) : wordR op 0 a b &&& 0x00F00FFF = 0 := by
  refine BitVec.eq_of_getLsbD_eq fun i hi => ?_
  simp only [wordR, BitVec.getLsbD_and, BitVec.getLsbD_append]
  interval_cases i <;> simp

theorem wordR_reserved_db (op : BitVec 8) (a : RegField) : wordR op 0 a 0 &&& 0x00F0FFFF = 0 := by
  refine BitVec.eq_of_getLsbD_eq fun i hi => ?_
  simp only [wordR, BitVec.getLsbD_and, BitVec.getLsbD_append]
  interval_cases i <;> simp

theorem wordR_reserved_dab (op : BitVec 8) : wordR op 0 0 0 &&& 0x00FFFFFF = 0 := by
  refine BitVec.eq_of_getLsbD_eq fun i hi => ?_
  simp only [wordR, BitVec.getLsbD_and, BitVec.getLsbD_append]
  interval_cases i <;> simp

theorem wordI12_reserved (op : BitVec 8) (d a : RegField) (imm : BitVec 12) : wordI12 op d a imm &&& 0x0000F000 = 0 := by
  refine BitVec.eq_of_getLsbD_eq fun i hi => ?_
  simp only [wordI12, BitVec.getLsbD_and, BitVec.getLsbD_append]
  interval_cases i <;> simp

theorem wordI16_reserved (op : BitVec 8) (d : RegField) (imm : BitVec 16) : wordI16 op d imm &&& 0x000F0000 = 0 := by
  refine BitVec.eq_of_getLsbD_eq fun i hi => ?_
  simp only [wordI16, BitVec.getLsbD_and, BitVec.getLsbD_append]
  interval_cases i <;> simp

theorem wordM_reserved (op : BitVec 8) (r : RegField) (off : BitVec 6) (len : BitVec 12) :
    wordM op r off len &&& 0x000C0000 = 0 := by
  refine BitVec.eq_of_getLsbD_eq fun i hi => ?_
  simp only [wordM, BitVec.getLsbD_and, BitVec.getLsbD_append]
  interval_cases i <;> simp

theorem masked {w m m' : Word} (h : m = m') (hw : w &&& m' = 0) : w &&& m = 0 := h ▸ hw

/-- The word of a command has an assigned OP, and zero in every reserved or unused field of that OP's row. -/
def Laws.WordShape.Statement (i : Instr) : Prop :=
  ∃ row ∈ opRows, opField (encode i) = row.op ∧ encode i &&& row.zeroMask = 0

namespace Laws

theorem WordShape.nop : WordShape.Statement .nop :=
  ⟨opRows[13], List.getElem_mem _, opField_wordR 0x00 0 0 0, masked (by decide) (wordR_reserved_dab 0x00)⟩

theorem WordShape.sadd (d : RegField) (a : RegField) (b : RegField) : WordShape.Statement (.sadd d a b) :=
  ⟨opRows[0], List.getElem_mem _, opField_wordR 0x10 d a b, masked (by decide) (wordR_reserved 0x10 d a b)⟩

theorem WordShape.ssub (d : RegField) (a : RegField) (b : RegField) : WordShape.Statement (.ssub d a b) :=
  ⟨opRows[1], List.getElem_mem _, opField_wordR 0x11 d a b, masked (by decide) (wordR_reserved 0x11 d a b)⟩

theorem WordShape.smul (d : RegField) (a : RegField) (b : RegField) : WordShape.Statement (.smul d a b) :=
  ⟨opRows[2], List.getElem_mem _, opField_wordR 0x12 d a b, masked (by decide) (wordR_reserved 0x12 d a b)⟩

theorem WordShape.sneg (d : RegField) (a : RegField) : WordShape.Statement (.sneg d a) :=
  ⟨opRows[3], List.getElem_mem _, opField_wordR 0x13 d a 0, masked (by decide) (wordR_reserved_b 0x13 d a)⟩

theorem WordShape.sdbl (d : RegField) (a : RegField) : WordShape.Statement (.sdbl d a) :=
  ⟨opRows[4], List.getElem_mem _, opField_wordR 0x14 d a 0, masked (by decide) (wordR_reserved_b 0x14 d a)⟩

theorem WordShape.ssqr (d : RegField) (a : RegField) : WordShape.Statement (.ssqr d a) :=
  ⟨opRows[5], List.getElem_mem _, opField_wordR 0x15 d a 0, masked (by decide) (wordR_reserved_b 0x15 d a)⟩

theorem WordShape.sinv (d : RegField) (a : RegField) : WordShape.Statement (.sinv d a) :=
  ⟨opRows[6], List.getElem_mem _, opField_wordR 0x16 d a 0, masked (by decide) (wordR_reserved_b 0x16 d a)⟩

theorem WordShape.sdiv (d : RegField) (a : RegField) (b : RegField) : WordShape.Statement (.sdiv d a b) :=
  ⟨opRows[7], List.getElem_mem _, opField_wordR 0x17 d a b, masked (by decide) (wordR_reserved 0x17 d a b)⟩

theorem WordShape.spow (d : RegField) (a : RegField) (b : RegField) : WordShape.Statement (.spow d a b) :=
  ⟨opRows[8], List.getElem_mem _, opField_wordR 0x18 d a b, masked (by decide) (wordR_reserved 0x18 d a b)⟩

theorem WordShape.ssqrt (d : RegField) (a : RegField) : WordShape.Statement (.ssqrt d a) :=
  ⟨opRows[9], List.getElem_mem _, opField_wordR 0x19 d a 0, masked (by decide) (wordR_reserved_b 0x19 d a)⟩

theorem WordShape.sleg (a : RegField) : WordShape.Statement (.sleg a) :=
  ⟨opRows[10], List.getElem_mem _, opField_wordR 0x1A 0 a 0, masked (by decide) (wordR_reserved_db 0x1A a)⟩

theorem WordShape.sshl (d : RegField) (a : RegField) (imm : BitVec 12) : WordShape.Statement (.sshl d a imm) :=
  ⟨opRows[11], List.getElem_mem _, opField_wordI12 0x1B d a imm, masked (by decide) (wordI12_reserved 0x1B d a imm)⟩

theorem WordShape.sshr (d : RegField) (a : RegField) (imm : BitVec 12) : WordShape.Statement (.sshr d a imm) :=
  ⟨opRows[12], List.getElem_mem _, opField_wordI12 0x1C d a imm, masked (by decide) (wordI12_reserved 0x1C d a imm)⟩

theorem WordShape.seq (a : RegField) (b : RegField) : WordShape.Statement (.seq a b) :=
  ⟨opRows[14], List.getElem_mem _, opField_wordR 0x20 0 a b, masked (by decide) (wordR_reserved_d 0x20 a b)⟩

theorem WordShape.scmp (a : RegField) (b : RegField) : WordShape.Statement (.scmp a b) :=
  ⟨opRows[15], List.getElem_mem _, opField_wordR 0x21 0 a b, masked (by decide) (wordR_reserved_d 0x21 a b)⟩

theorem WordShape.sisz (a : RegField) : WordShape.Statement (.sisz a) :=
  ⟨opRows[16], List.getElem_mem _, opField_wordR 0x22 0 a 0, masked (by decide) (wordR_reserved_db 0x22 a)⟩

theorem WordShape.ssel (d : RegField) (a : RegField) (b : RegField) : WordShape.Statement (.ssel d a b) :=
  ⟨opRows[17], List.getElem_mem _, opField_wordR 0x23 d a b, masked (by decide) (wordR_reserved 0x23 d a b)⟩

theorem WordShape.smov (d : RegField) (a : RegField) : WordShape.Statement (.smov d a) :=
  ⟨opRows[18], List.getElem_mem _, opField_wordR 0x24 d a 0, masked (by decide) (wordR_reserved_b 0x24 d a)⟩

theorem WordShape.szero (d : RegField) : WordShape.Statement (.szero d) :=
  ⟨opRows[19], List.getElem_mem _, opField_wordR 0x25 d 0 0, masked (by decide) (wordR_reserved_ab 0x25 d)⟩

theorem WordShape.sone (d : RegField) : WordShape.Statement (.sone d) :=
  ⟨opRows[20], List.getElem_mem _, opField_wordR 0x26 d 0 0, masked (by decide) (wordR_reserved_ab 0x26 d)⟩

theorem WordShape.simm (d : RegField) (imm : BitVec 16) : WordShape.Statement (.simm d imm) :=
  ⟨opRows[21], List.getElem_mem _, opField_wordI16 0x27 d imm, masked (by decide) (wordI16_reserved 0x27 d imm)⟩

theorem WordShape.snbits (a : RegField) : WordShape.Statement (.snbits a) :=
  ⟨opRows[22], List.getElem_mem _, opField_wordR 0x28 0 a 0, masked (by decide) (wordR_reserved_db 0x28 a)⟩

theorem WordShape.srand (d : RegField) : WordShape.Statement (.srand d) :=
  ⟨opRows[23], List.getElem_mem _, opField_wordR 0x29 d 0 0, masked (by decide) (wordR_reserved_ab 0x29 d)⟩

theorem WordShape.sldle (r : RegField) (off : BitVec 6) (len : BitVec 12) : WordShape.Statement (.sldle r off len) :=
  ⟨opRows[24], List.getElem_mem _, opField_wordM 0x30 r off len, masked (by decide) (wordM_reserved 0x30 r off len)⟩

theorem WordShape.sldbe (r : RegField) (off : BitVec 6) (len : BitVec 12) : WordShape.Statement (.sldbe r off len) :=
  ⟨opRows[25], List.getElem_mem _, opField_wordM 0x31 r off len, masked (by decide) (wordM_reserved 0x31 r off len)⟩

theorem WordShape.sstle (r : RegField) (off : BitVec 6) (len : BitVec 12) : WordShape.Statement (.sstle r off len) :=
  ⟨opRows[26], List.getElem_mem _, opField_wordM 0x32 r off len, masked (by decide) (wordM_reserved 0x32 r off len)⟩

theorem WordShape.sstbe (r : RegField) (off : BitVec 6) (len : BitVec 12) : WordShape.Statement (.sstbe r off len) :=
  ⟨opRows[27], List.getElem_mem _, opField_wordM 0x33 r off len, masked (by decide) (wordM_reserved 0x33 r off len)⟩

theorem WordShape.sldraw (r : RegField) (off : BitVec 6) (len : BitVec 12) : WordShape.Statement (.sldraw r off len) :=
  ⟨opRows[28], List.getElem_mem _, opField_wordM 0x34 r off len, masked (by decide) (wordM_reserved 0x34 r off len)⟩

theorem WordShape.sldwide (r : RegField) (off : BitVec 6) (len : BitVec 12) : WordShape.Statement (.sldwide r off len) :=
  ⟨opRows[29], List.getElem_mem _, opField_wordM 0x35 r off len, masked (by decide) (wordM_reserved 0x35 r off len)⟩

theorem WordShape.sldokm (r : RegField) (off : BitVec 6) (len : BitVec 12) : WordShape.Statement (.sldokm r off len) :=
  ⟨opRows[30], List.getElem_mem _, opField_wordM 0x36 r off len, masked (by decide) (wordM_reserved 0x36 r off len)⟩

theorem WordShape.gadd (d : RegField) (a : RegField) (b : RegField) : WordShape.Statement (.gadd d a b) :=
  ⟨opRows[31], List.getElem_mem _, opField_wordR 0x40 d a b, masked (by decide) (wordR_reserved 0x40 d a b)⟩

theorem WordShape.gsub (d : RegField) (a : RegField) (b : RegField) : WordShape.Statement (.gsub d a b) :=
  ⟨opRows[32], List.getElem_mem _, opField_wordR 0x41 d a b, masked (by decide) (wordR_reserved 0x41 d a b)⟩

theorem WordShape.gneg (d : RegField) (a : RegField) : WordShape.Statement (.gneg d a) :=
  ⟨opRows[33], List.getElem_mem _, opField_wordR 0x42 d a 0, masked (by decide) (wordR_reserved_b 0x42 d a)⟩

theorem WordShape.gdbl (d : RegField) (a : RegField) : WordShape.Statement (.gdbl d a) :=
  ⟨opRows[34], List.getElem_mem _, opField_wordR 0x43 d a 0, masked (by decide) (wordR_reserved_b 0x43 d a)⟩

theorem WordShape.gsmul (d : RegField) (a : RegField) (b : RegField) : WordShape.Statement (.gsmul d a b) :=
  ⟨opRows[35], List.getElem_mem _, opField_wordR 0x44 d a b, masked (by decide) (wordR_reserved 0x44 d a b)⟩

theorem WordShape.ginv (d : RegField) (a : RegField) : WordShape.Statement (.ginv d a) :=
  ⟨opRows[36], List.getElem_mem _, opField_wordR 0x45 d a 0, masked (by decide) (wordR_reserved_b 0x45 d a)⟩

theorem WordShape.gone (d : RegField) : WordShape.Statement (.gone d) :=
  ⟨opRows[37], List.getElem_mem _, opField_wordR 0x46 d 0 0, masked (by decide) (wordR_reserved_ab 0x46 d)⟩

theorem WordShape.ggen (d : RegField) : WordShape.Statement (.ggen d) :=
  ⟨opRows[38], List.getElem_mem _, opField_wordR 0x47 d 0 0, masked (by decide) (wordR_reserved_ab 0x47 d)⟩

theorem WordShape.grand (d : RegField) : WordShape.Statement (.grand d) :=
  ⟨opRows[39], List.getElem_mem _, opField_wordR 0x48 d 0 0, masked (by decide) (wordR_reserved_ab 0x48 d)⟩

theorem WordShape.gisid (a : RegField) : WordShape.Statement (.gisid a) :=
  ⟨opRows[40], List.getElem_mem _, opField_wordR 0x49 0 a 0, masked (by decide) (wordR_reserved_db 0x49 a)⟩

theorem WordShape.geq (a : RegField) (b : RegField) : WordShape.Statement (.geq a b) :=
  ⟨opRows[41], List.getElem_mem _, opField_wordR 0x4A 0 a b, masked (by decide) (wordR_reserved_d 0x4A a b)⟩

theorem WordShape.gsubg (a : RegField) : WordShape.Statement (.gsubg a) :=
  ⟨opRows[42], List.getElem_mem _, opField_wordR 0x4B 0 a 0, masked (by decide) (wordR_reserved_db 0x4B a)⟩

theorem WordShape.gmov (d : RegField) (a : RegField) : WordShape.Statement (.gmov d a) :=
  ⟨opRows[43], List.getElem_mem _, opField_wordR 0x4C d a 0, masked (by decide) (wordR_reserved_b 0x4C d a)⟩

theorem WordShape.gld (r : RegField) (off : BitVec 6) (len : BitVec 12) : WordShape.Statement (.gld r off len) :=
  ⟨opRows[44], List.getElem_mem _, opField_wordM 0x50 r off len, masked (by decide) (wordM_reserved 0x50 r off len)⟩

theorem WordShape.gldu (r : RegField) (off : BitVec 6) (len : BitVec 12) : WordShape.Statement (.gldu r off len) :=
  ⟨opRows[45], List.getElem_mem _, opField_wordM 0x51 r off len, masked (by decide) (wordM_reserved 0x51 r off len)⟩

theorem WordShape.gst (r : RegField) (off : BitVec 6) (len : BitVec 12) : WordShape.Statement (.gst r off len) :=
  ⟨opRows[46], List.getElem_mem _, opField_wordM 0x52 r off len, masked (by decide) (wordM_reserved 0x52 r off len)⟩

theorem WordShape.gcmpr (d : RegField) (a : RegField) : WordShape.Statement (.gcmpr d a) :=
  ⟨opRows[47], List.getElem_mem _, opField_wordR 0x53 d a 0, masked (by decide) (wordR_reserved_b 0x53 d a)⟩

theorem WordShape.guncmpr (d : RegField) (a : RegField) : WordShape.Statement (.guncmpr d a) :=
  ⟨opRows[48], List.getElem_mem _, opField_wordR 0x54 d a 0, masked (by decide) (wordR_reserved_b 0x54 d a)⟩

theorem WordShape.tld (r : RegField) (off : BitVec 6) (len : BitVec 12) : WordShape.Statement (.tld r off len) :=
  ⟨opRows[49], List.getElem_mem _, opField_wordM 0x55 r off len, masked (by decide) (wordM_reserved 0x55 r off len)⟩

theorem WordShape.tst (r : RegField) (off : BitVec 6) (len : BitVec 12) : WordShape.Statement (.tst r off len) :=
  ⟨opRows[50], List.getElem_mem _, opField_wordM 0x56 r off len, masked (by decide) (wordM_reserved 0x56 r off len)⟩

end Laws

end Sys2Proof
end

