-- ==== Sys2Proof/Laws/Primes.lean ====
section
/-! SUPPORT. The recommended Q and P are prime (spec/00_scope.md R9, R10), so the recommended parameters are among those
that the rules apply to: certificates of Lucas and of Brillhart, Lehmer and Selfridge, evaluated by the kernel. -/

namespace Sys2Proof.Machine

/-- A power modulo `n`, for exponents of `k` bits. -/
def powCert (k n a e : Nat) : Nat := powLoop n a e k 1

theorem powCert_cast {k n a e : Nat} (he : e < 2 ^ k) : (powCert k n a e : ZMod n) = (a : ZMod n) ^ e := by
  rw [powCert, powLoop_cast, Nat.mod_eq_of_lt he]; simp

/-- Lucas's test, on the list of the prime factors of `n - 1`. -/
theorem prime_of_lucas {n : Nat} (k a : Nat) (fs : List Nat) (hn : n - 1 < 2 ^ k) (h1n : 1 < n)
    (hprod : fs.prod = n - 1) (hp : ∀ f ∈ fs, f.Prime) (h1 : powCert k n a (n - 1) = 1)
    (h2 : ∀ f ∈ fs, powCert k n a ((n - 1) / f) ≠ 1 ∧ powCert k n a ((n - 1) / f) < n) : n.Prime := by
  refine lucas_primality n (a : ZMod n) ?_ ?_
  · rw [← powCert_cast hn, h1, Nat.cast_one]
  · intro f hf hd
    rw [← powCert_cast (lt_of_le_of_lt (Nat.div_le_self _ _) hn)]
    obtain ⟨g, hg, hfg⟩ := (Nat.Prime.prime hf).dvd_prod_iff.1 (hprod ▸ hd)
    obtain rfl := (Nat.prime_dvd_prime_iff_eq hf (hp g hg)).1 hfg
    intro he
    exact (h2 f hg).1 (eq_of_cast_eq (h2 f hg).2 h1n (by rw [he, Nat.cast_one]))

/-- A prime divisor `d` of `n` is 1 modulo the factored part `F` of `n - 1`, where `a^((n-1)/f) - 1` is prime to `n` for
every prime factor `f` of `F`. -/
theorem factored_part_dvd {n d : Nat} (k a F R : Nat) (fs : List Nat) (hd : d.Prime) (hdn : d ∣ n) (hn0 : 0 < n)
    (hn : n - 1 < 2 ^ k) (hFR : F * R = n - 1) (hF : 0 < F)
    (hprod : ∀ f : Nat, f.Prime → f ∣ F → f ∈ fs) (h1 : powCert k n a (n - 1) = 1)
    (h2 : ∀ f ∈ fs, Nat.gcd (powCert k n a ((n - 1) / f) + (n - 1)) n = 1) : F ∣ d - 1 := by
  have : Fact d.Prime := ⟨hd⟩
  have key : ∀ e, e < 2 ^ k → ((powCert k n a e : Nat) : ZMod d) = (a : ZMod d) ^ e := by
    intro e he
    have := congrArg (ZMod.castHom hdn (ZMod d)) (powCert_cast (n := n) (a := a) he)
    rwa [map_natCast, map_pow, map_natCast] at this
  have hpow : ((a : ZMod d) ^ R) ^ F = 1 := by
    rw [← pow_mul, mul_comm R F, hFR, ← key _ hn, h1, Nat.cast_one]
  have hord : orderOf ((a : ZMod d) ^ R) = F := by
    refine orderOf_eq_of_pow_and_pow_div_prime hF hpow ?_
    intro f hf hfF he
    have hdiv : (n - 1) / f = R * (F / f) := by
      rw [← hFR, mul_comm F R, Nat.mul_div_assoc _ hfF]
    rw [← pow_mul, ← hdiv, ← key _ (lt_of_le_of_lt (Nat.div_le_self _ _) hn)] at he
    have hzero : ((powCert k n a ((n - 1) / f) + (n - 1) : Nat) : ZMod d) = 0 := by
      rw [Nat.cast_add, he, Nat.cast_sub hn0, (ZMod.natCast_eq_zero_iff n d).2 hdn]; simp
    have hdvd := Nat.dvd_gcd ((ZMod.natCast_eq_zero_iff _ d).1 hzero) hdn
    rw [h2 f (hprod f hf hfF)] at hdvd
    exact hd.one_lt.ne' (Nat.dvd_one.1 hdvd)
  rw [← hord]
  refine orderOf_dvd_of_pow_eq_one (ZMod.pow_card_sub_one_eq_one ?_)
  intro h0
  rw [h0, zero_pow hF.ne'] at hpow
  exact zero_ne_one hpow

theorem add_le_mul_add_one {α β : Nat} (hα : 0 < α) (hβ : 0 < β) : α + β ≤ α * β + 1 := by
  obtain ⟨a, rfl⟩ : ∃ a, α = a + 1 := ⟨α - 1, by omega⟩
  obtain ⟨b, rfl⟩ : ∃ b, β = b + 1 := ⟨β - 1, by omega⟩
  have : (a + 1) * (b + 1) = a * b + a + b + 1 := by ring
  omega

/-- A number `n < F^3` is prime where every prime divisor of it is 1 modulo the factor `F` of `n - 1 = F · (t·F + s)`,
with `0 < t`, `s < F` and `4·t` too small for `s² - 4·t` to be a square. -/
theorem prime_of_factored_part {n F t s : Nat} (h1n : 1 < n) (hn : n = 1 + F * (t * F + s)) (hcube : n < F ^ 3)
    (hs : s < F) (hs0 : 0 < s) (ht : 0 < t) (hsmall : 4 * t < 2 * s - 1)
    (hdiv : ∀ d, d.Prime → d ∣ n → F ∣ d - 1) : n.Prime := by
  by_contra hcomp
  have hF : 0 < F := by rcases Nat.eq_zero_or_pos F with rfl | h <;> omega
  have hmp := Nat.minFac_prime (n := n) (by omega)
  obtain ⟨α, hα⟩ := hdiv _ hmp (Nat.minFac_dvd n)
  have hd1 := hmp.one_lt
  obtain ⟨e, he⟩ := Nat.minFac_dvd n
  have hde : n.minFac = 1 + F * α := by omega
  have he1 : 1 < e := by
    rcases Nat.lt_or_ge 1 e with h | h
    · exact h
    · interval_cases e
      · omega
      · exact absurd (by rw [Nat.mul_one] at he; exact he ▸ hmp) hcomp
  -- the cofactor is 1 modulo F too
  have hFe : F ∣ e - 1 := by
    have hz : (F : Int) ∣ (e : Int) - 1 := by
      refine ⟨(t * F + s : Int) - α * e, ?_⟩
      have h' : (n : Int) = (1 + F * α) * e := by rw [← Nat.cast_one, ← Nat.cast_mul, ← Nat.cast_add, ← Nat.cast_mul, ← hde, ← he]
      have h'' : (n : Int) = 1 + F * (t * F + s) := by rw [hn]; push_cast; ring
      linear_combination h'' - h'
    have : ((e - 1 : Nat) : Int) = (e : Int) - 1 := by omega
    exact Int.natCast_dvd_natCast.1 (this ▸ hz)
  obtain ⟨β, hβ⟩ := hFe
  have heβ : e = 1 + F * β := by omega
  have hα0 : 0 < α := Nat.pos_of_ne_zero (by rintro rfl; omega)
  have hβ0 : 0 < β := Nat.pos_of_ne_zero (by rintro rfl; omega)
  have hmain : t * F + s = α + β + α * β * F := by
    have : F * (t * F + s) = F * (α + β + α * β * F) := by
      have h' : 1 + F * (t * F + s) = (1 + F * α) * (1 + F * β) := by rw [← hn, ← hde, ← heβ]; exact he
      have h3 : (1 + F * α) * (1 + F * β) = 1 + F * (α + β + α * β * F) := by ring
      omega
    exact Nat.eq_of_mul_eq_mul_left hF this
  have hab : α * β < F := by
    by_contra hge
    have h1 : F * (F * F) ≤ F * (α * β * F) := Nat.mul_le_mul_left F (Nat.mul_le_mul_right F (not_lt.1 hge))
    have h2 : F * (α * β * F) ≤ F * (t * F + s) := Nat.mul_le_mul_left F (by rw [hmain]; omega)
    have h3 : F ^ 3 = F * (F * F) := by ring
    omega
  have hsum : α + β ≤ F := le_trans (add_le_mul_add_one hα0 hβ0) hab
  -- so the digits of the cofactor are t and s
  have hne : α + β ≠ F := by
    intro hF'
    have : t * F + s = (1 + α * β) * F := by rw [hmain, hF']; ring
    have h4 : s % F = 0 := by
      have := congrArg (· % F) this
      simpa using this
    rw [Nat.mod_eq_of_lt hs] at h4
    omega
  have hlt : α + β < F := lt_of_le_of_ne hsum hne
  have hst : s = α + β := by
    have := congrArg (· % F) hmain
    simpa [Nat.mod_eq_of_lt hs, Nat.mod_eq_of_lt hlt] using this
  have htt : t = α * β := by
    have : t * F = α * β * F := by omega
    exact Nat.eq_of_mul_eq_mul_right hF this
  subst hst htt
  have := add_le_mul_add_one hα0 hβ0
  omega

/-! ### Q -/

/-- The recommended Q is prime (00_scope.md R9). -/
theorem recommendedQ_prime : Nat.Prime Config.recommendedQ :=
  have h0 : Nat.Prime 10177 := by norm_num
  have h1 : Nat.Prime 859267 := by norm_num
  have h2 : Nat.Prime 52437899 := by norm_num
  have h3 : Nat.Prime 254760293 := by norm_num
  have h4 : Nat.Prime 125527 := by norm_num
  have h5 : Nat.Prime 906349 := by norm_num
  have h6 : Nat.Prime 2508409 := by norm_num
  have h7 : Nat.Prime 2529403 := by norm_num
  prime_of_lucas 256 7
    (List.replicate 32 2 ++ [3, 11, 19, 10177, 125527, 859267, 906349, 906349, 2508409, 2529403, 52437899,
      254760293, 254760293])
    (by decide +kernel) (by decide +kernel) (by decide +kernel)
    (by
      intro f hf
      simp only [List.mem_append, List.mem_replicate, List.mem_cons, List.not_mem_nil, or_false] at hf
      obtain ⟨-, rfl⟩ | rfl | rfl | rfl | rfl | rfl | rfl | rfl | rfl | rfl | rfl | rfl | rfl | rfl := hf <;>
        first | assumption | norm_num)
    (by decide +kernel) (by decide +kernel)

/-- The recommended Q meets the constraints (00_scope.md R8). -/
theorem recommendedQ_ok : ScalarModulusOk Config.recommendedQ :=
  ⟨recommendedQ_prime, by decide +kernel, by decide +kernel⟩

/-! ### P -/

theorem prime_9272813673901 : Nat.Prime 9272813673901 :=
  have h0 : Nat.Prime 7577 := by norm_num
  have h1 : Nat.Prime 582767 := by norm_num
  prime_of_lucas 64 2 [2, 2, 3, 5, 5, 7, 7577, 582767] (by decide +kernel) (by decide +kernel) (by decide +kernel)
    (by simp [h0, h1]; norm_num) (by decide +kernel) (by decide +kernel)

theorem prime_1928745244171409 : Nat.Prime 1928745244171409 :=
  prime_of_lucas 64 3 [2, 2, 2, 2, 13, 9272813673901] (by decide +kernel) (by decide +kernel) (by decide +kernel)
    (by simp [prime_9272813673901]; norm_num) (by decide +kernel) (by decide +kernel)

theorem prime_7259797099061183477 : Nat.Prime 7259797099061183477 :=
  prime_of_lucas 64 2 [2, 2, 941, 1928745244171409] (by decide +kernel) (by decide +kernel) (by decide +kernel)
    (by simp [prime_1928745244171409]; norm_num) (by decide +kernel) (by decide +kernel)

theorem prime_2584487767265781317813 : Nat.Prime 2584487767265781317813 :=
  prime_of_lucas 128 2 [2, 2, 89, 7259797099061183477] (by decide +kernel) (by decide +kernel) (by decide +kernel)
    (by simp [prime_7259797099061183477]; norm_num) (by decide +kernel) (by decide +kernel)

/-- The prime factors, with repetition, of the factored part of P - 1. -/
def primeFactorsP : List Nat := [2, 3, 3, 11, 23, 47, 10177, 859267, 52437899, 2584487767265781317813]

theorem primeFactorsP_prime : ∀ f ∈ primeFactorsP, f.Prime := by
  have h1 : Nat.Prime 10177 := by norm_num
  have h2 : Nat.Prime 859267 := by norm_num
  have h3 : Nat.Prime 52437899 := by norm_num
  simp [primeFactorsP, h1, h2, h3, prime_2584487767265781317813]
  norm_num

/-- The recommended P is prime (00_scope.md R10). -/
theorem recommendedP_prime : Nat.Prime Config.recommendedP := by
  refine prime_of_factored_part (F := primeFactorsP.prod) (t := 62202009562450627810769096)
    (s := 41045055325326579460269857981194636858402675) (by decide +kernel) (by decide +kernel) (by decide +kernel)
    (by decide +kernel) (by decide +kernel) (by decide +kernel) (by decide +kernel) ?_
  intro d hd hdn
  refine factored_part_dvd 384 2 primeFactorsP.prod
    15778400344354997994418419698270088123916926905054652752758194827714659 primeFactorsP hd hdn
    (by decide +kernel) (by decide +kernel) (by decide +kernel) (by decide +kernel) ?_ (by decide +kernel)
    (by decide +kernel)
  intro f hf hfF
  obtain ⟨g, hg, hfg⟩ := (Nat.Prime.prime hf).dvd_prod_iff.1 hfF
  exact (Nat.prime_dvd_prime_iff_eq hf (primeFactorsP_prime g hg)).1 hfg ▸ hg

/-- The recommended P meets the constraints (00_scope.md R10). -/
theorem recommendedP_ok : BaseModulusOk Config.recommendedP := ⟨recommendedP_prime, by decide +kernel⟩

end Sys2Proof.Machine
end

