-- ==== Sys2Proof/Laws/Step.lean ====
section
/-! SUPPORT. What a step can do, said once: whose turn it is and what follows. -/

namespace Sys2Proof.Machine

/-- Nothing is released where nothing is held. -/
@[simp] theorem State.released_of_held_nil {s : State} (h : s.held = []) : s.released = none := by
  rw [State.released, h]

/-- Nothing is released while a command holds the oldest held access. -/
theorem State.released_of_mustWait {s : State} {a : Access} {waiting : List Access} (hh : s.held = a :: waiting)
    (h : s.mustWait a = true) : s.released = none := by
  rw [State.released, hh]; exact if_pos h

/-- The oldest held access is released once no command holds it. -/
theorem State.released_of_held_cons {s : State} {a : Access} {waiting : List Access} (h : s.mustWait a = false)
    (hh : s.held = a :: waiting) : s.released = some (a, waiting) := by
  rw [State.released, hh]; exact if_neg (by rw [h]; decide)

/-- Nothing is released exactly where a command holds the oldest held access, if there is one. -/
theorem State.released_eq_none {s : State} :
    s.released = none ↔ ∀ a waiting, s.held = a :: waiting → s.mustWait a = true := by
  rw [State.released]
  cases s.held with
  | nil => exact ⟨fun _ _ _ => nofun, fun _ => rfl⟩
  | cons a waiting =>
    refine ⟨fun h _ _ e => ?_, fun h => if_pos (h a waiting rfl)⟩
    cases e
    by_contra hn
    simp only [if_neg hn] at h
    cases h

theorem State.released_eq_some {s : State} {a : Access} {waiting : List Access}
    (h : s.released = some (a, waiting)) : s.mustWait a = false ∧ s.held = a :: waiting := by
  rw [State.released] at h
  split at h
  · cases h
  · rename_i hh
    split at h
    · cases h
    · rename_i hw
      cases h; exact ⟨Bool.eq_false_iff.2 hw, hh⟩

/-- A level of rst_n is taken before everything else. -/
theorem step_pin {s : State} {level : Bool} {rest : List Input} (h : s.inputs = .rstN level :: rest) :
    step s = .next (State.setRstN { s with inputs := rest } level) := by
  rw [step, State.turn, h]

/-- With no input left and nothing released the engine has the turn. -/
theorem step_engine {s : State} (h : s.inputs = []) (hr : s.released = none) : step s = engineTurn s := by
  rw [step, State.turn, h, hr]

/-- At an idle turn with nothing released the engine has the turn. -/
theorem step_idle {s : State} {rest : List Input} (h : s.inputs = .idle :: rest) (hr : s.released = none) :
    step s = engineTurn { s with inputs := rest } := by
  rw [step, State.turn, h, hr]

/-- A released access is performed, whatever comes next but a level of rst_n. -/
theorem step_released {s : State} {a : Access} {waiting : List Access} (hb : s.mustWait a = false) (hh : s.held = a :: waiting)
    (hi : ∀ level rest, s.inputs ≠ .rstN level :: rest) :
    step s = .next (State.perform { s with held := waiting } a) := by
  rw [step, State.turn, State.released_of_held_cons hb hh]
  match h : s.inputs with
  | [] => rfl
  | .idle :: _ => rfl
  | .access _ :: _ => rfl
  | .rstN level :: rest => exact absurd h (hi level rest)

/-- The next access waits where it must, and is performed where nothing is released before it and it need not. -/
theorem step_access {s : State} {a : Access} {rest : List Input} (h : s.inputs = .access a :: rest)
    (hr : s.released = none) :
    step s = .next (if s.holds a then { s with inputs := rest, held := s.held ++ [a] }
      else State.perform { s with inputs := rest } a) := by
  rw [step, State.turn, h, hr]
  by_cases ha : s.holds a = true <;> simp only [ha, if_true, if_false, Bool.false_eq_true]

/-- Everything a step can be. -/
theorem step_cases {s t : State} (h : step s = .next t) :
    (∃ level rest, s.inputs = .rstN level :: rest ∧ t = State.setRstN { s with inputs := rest } level) ∨
    (∃ a waiting, s.mustWait a = false ∧ s.held = a :: waiting ∧ (∀ level rest, s.inputs ≠ .rstN level :: rest) ∧
      t = State.perform { s with held := waiting } a) ∨
    (s.released = none ∧
      ((s.inputs = [] ∧ engineTurn s = .next t) ∨
       (∃ rest, s.inputs = .idle :: rest ∧ engineTurn { s with inputs := rest } = .next t) ∨
       (∃ a rest, s.inputs = .access a :: rest ∧ s.holds a = true ∧
          t = { s with inputs := rest, held := s.held ++ [a] }) ∨
       ∃ a rest, s.inputs = .access a :: rest ∧ s.holds a = false ∧ t = State.perform { s with inputs := rest } a)) := by
  rw [step, State.turn] at h
  match hi : s.inputs, hr : s.released with
  | .rstN level :: rest, _ =>
    simp only [hi, hr] at h
    cases h
    exact .inl ⟨level, rest, rfl, rfl⟩
  | [], some (a, waiting) =>
    simp only [hi, hr] at h
    cases h
    obtain ⟨hb, hh⟩ := State.released_eq_some hr
    exact .inr (.inl ⟨a, waiting, hb, hh, nofun, rfl⟩)
  | .idle :: _, some (a, waiting) =>
    simp only [hi, hr] at h
    cases h
    obtain ⟨hb, hh⟩ := State.released_eq_some hr
    exact .inr (.inl ⟨a, waiting, hb, hh, nofun, rfl⟩)
  | .access _ :: _, some (a, waiting) =>
    simp only [hi, hr] at h
    cases h
    obtain ⟨hb, hh⟩ := State.released_eq_some hr
    exact .inr (.inl ⟨a, waiting, hb, hh, nofun, rfl⟩)
  | [], none =>
    simp only [hi, hr] at h
    exact .inr (.inr ⟨rfl, .inl ⟨rfl, h⟩⟩)
  | .idle :: rest, none =>
    simp only [hi, hr] at h
    exact .inr (.inr ⟨rfl, .inr (.inl ⟨rest, rfl, h⟩)⟩)
  | .access a :: rest, none =>
    simp only [hi, hr] at h
    by_cases ha : s.holds a = true
    · rw [if_pos ha] at h
      cases h
      exact .inr (.inr ⟨rfl, .inr (.inr (.inl ⟨a, rest, rfl, ha, rfl⟩))⟩)
    · rw [if_neg ha] at h
      cases h
      exact .inr (.inr ⟨rfl, .inr (.inr (.inr ⟨a, rest, rfl, Bool.eq_false_iff.2 ha, rfl⟩))⟩)

end Sys2Proof.Machine
end

