-- ==== Sys2Proof/Laws/TowerEmbed.lean ====
section
/-! SUPPORT. The recommended tower inside a field: with `w` a root of X^12 - 2·X^6 + 2 in a field of characteristic P,
`v = w^2` and `u = w^6 - 1`, every operation of spec/43_gt_group.md R264 is the field's own. -/

namespace Sys2Proof.Machine

variable {p : Nat} {L : Type} [Field L] [CharP L p]

/-- A word as an element of the field. -/
def evF (L : Type) [Field L] (x : FpWord) : L := (x.toNat : L)

/-- An Fp2 value as an element of the field: `u = w^6 - 1`. -/
def ev2 (w : L) (x : Fp2) : L := evF L x.c0 + evF L x.c1 * (w ^ 6 - 1)

/-- An Fp6 value as an element of the field: `v = w^2`. -/
def ev6 (w : L) (x : Fp6) : L := ev2 w x.c0 + ev2 w x.c1 * w ^ 2 + ev2 w x.c2 * w ^ 4

/-- An Fp12 value as an element of the field. -/
def ev12 (w : L) (a : Fp12) : L := ev6 w a.lo + ev6 w a.hi * w

theorem cast_mod_char (p : Nat) [CharP L p] (n : Nat) : ((n % p : Nat) : L) = n :=
  (CharP.cast_eq_iff_mod_eq L p).2 (Nat.mod_mod _ _)

section

variable (hp : 0 < p) (hlt : p < 2 ^ 384)
include hp hlt

theorem evF_add (x y : FpWord) : evF L (fpAdd p x y) = evF L x + evF L y := by
  rw [evF, fpAdd, toNat_ofNat_mod hp hlt, cast_mod_char p, Nat.cast_add, evF, evF]

theorem evF_neg (x : FpWord) : evF L (fpNeg p x) = -evF L x := by
  rw [evF, fpNeg, toNat_ofNat_mod hp hlt, cast_mod_char p, Nat.cast_sub (Nat.mod_lt _ hp).le, cast_mod_char p, evF,
    CharP.cast_eq_zero, zero_sub]

theorem evF_mul (x y : FpWord) : evF L (fpMul p x y) = evF L x * evF L y := by
  rw [evF, fpMul, toNat_ofNat_mod hp hlt, cast_mod_char p, Nat.cast_mul, evF, evF]

theorem evF_sub (x y : FpWord) : evF L (fpSub p x y) = evF L x - evF L y := by
  rw [fpSub, evF_add hp hlt, evF_neg hp hlt, sub_eq_add_neg]

theorem evF_powLoop (x : FpWord) (e n : Nat) (acc : FpWord) :
    evF L (fpPowLoop p x e n acc) = evF L acc ^ 2 ^ n * evF L x ^ (e % 2 ^ n) := by
  induction n generalizing acc with
  | zero => simp [fpPowLoop, Nat.mod_one]
  | succ n ih =>
    have hbit : e % 2 ^ (n + 1) = e % 2 ^ n + (if e.testBit n then 2 ^ n else 0) := by
      rw [Nat.mod_pow_succ, Nat.testBit_eq_decide_div_mod_eq]
      obtain h | h := Nat.mod_two_eq_zero_or_one (e / 2 ^ n) <;> simp [h]
    simp only [fpPowLoop, ih, hbit]
    split <;> (simp [evF_mul hp hlt, pow_succ, pow_mul, mul_pow, pow_add]; try ring)

variable {w : L} (hw : w ^ 12 = 2 * w ^ 6 - 2)

theorem ev2_add (x y : Fp2) : ev2 w (fp2Add p x y) = ev2 w x + ev2 w y := by
  simp only [ev2, fp2Add, evF_add hp hlt]; ring

theorem ev2_neg (x : Fp2) : ev2 w (fp2Neg p x) = -ev2 w x := by
  simp only [ev2, fp2Neg, evF_neg hp hlt]; ring

theorem ev2_sub (x y : Fp2) : ev2 w (fp2Sub p x y) = ev2 w x - ev2 w y := by
  rw [fp2Sub, ev2_add hp hlt, ev2_neg hp hlt, sub_eq_add_neg]

theorem ev6_add (x y : Fp6) : ev6 w (fp6Add p x y) = ev6 w x + ev6 w y := by
  simp only [ev6, fp6Add, ev2_add hp hlt]; ring

theorem ev6_neg (x : Fp6) : ev6 w (fp6Neg p x) = -ev6 w x := by
  simp only [ev6, fp6Neg, ev2_neg hp hlt]; ring

theorem ev6_sub (x y : Fp6) : ev6 w (fp6Sub p x y) = ev6 w x - ev6 w y := by
  rw [fp6Sub, ev6_add hp hlt, ev6_neg hp hlt, sub_eq_add_neg]

theorem ev12_conj (a : Fp12) : ev12 w (fp12Conj p a) = ev6 w a.lo - ev6 w a.hi * w := by
  rw [ev12, fp12Conj, ev6_neg hp hlt]; ring

include hw

theorem ev2_mul (x y : Fp2) : ev2 w (fp2Mul p x y) = ev2 w x * ev2 w y := by
  simp only [ev2, fp2Mul, evF_add hp hlt, evF_sub hp hlt, evF_mul hp hlt]
  linear_combination (-(evF L x.c1 * evF L y.c1)) * hw

theorem ev2_mulXi (x : Fp2) : ev2 w (fp2MulXi p x) = w ^ 6 * ev2 w x := by
  simp only [ev2, fp2MulXi, evF_add hp hlt, evF_sub hp hlt]
  linear_combination (-evF L x.c1) * hw

theorem ev6_mul (x y : Fp6) : ev6 w (fp6Mul p x y) = ev6 w x * ev6 w y := by
  simp only [ev6, fp6Mul, ev2_add hp hlt, ev2_mulXi hp hlt hw, ev2_mul hp hlt hw]; ring

theorem ev6_mulV (x : Fp6) : ev6 w (fp6MulV p x) = w ^ 2 * ev6 w x := by
  simp only [ev6, fp6MulV, ev2_mulXi hp hlt hw]; ring

theorem ev12_mul (a b : Fp12) : ev12 w (fp12Mul p a b) = ev12 w a * ev12 w b := by
  simp only [ev12, fp12Mul, ev6_add hp hlt, ev6_mulV hp hlt hw, ev6_mul hp hlt hw]; ring

theorem ev12_powLoop (x : Fp12) (e n : Nat) (acc : Fp12) :
    ev12 w (fp12PowLoop p x e n acc) = ev12 w acc ^ 2 ^ n * ev12 w x ^ (e % 2 ^ n) := by
  induction n generalizing acc with
  | zero => simp [fp12PowLoop, Nat.mod_one]
  | succ n ih =>
    have hbit : e % 2 ^ (n + 1) = e % 2 ^ n + (if e.testBit n then 2 ^ n else 0) := by
      rw [Nat.mod_pow_succ, Nat.testBit_eq_decide_div_mod_eq]
      obtain h | h := Nat.mod_two_eq_zero_or_one (e / 2 ^ n) <;> simp [h]
    simp only [fp12PowLoop, ih, hbit]
    split <;> (simp [ev12_mul hp hlt hw, pow_succ, pow_mul, mul_pow, pow_add]; try ring)

end

theorem ev6_zero (w : L) : ev6 w Fp6.zero = 0 := by
  simp [ev6, ev2, evF, Fp6.zero, Fp6.ofFn]

theorem ev6_one (w : L) : ev6 w Fp6.one = 1 := by
  simp [ev6, ev2, evF, Fp6.one, Fp6.ofFn]

theorem ev12_join (w : L) (s : Fp6) : ev12 w ⟨s, Fp6.zero⟩ = ev6 w s := by
  rw [ev12, ev6_zero, zero_mul, add_zero]

theorem ev12_zero (w : L) : ev12 w Fp12.zero = 0 := (ev12_join w Fp6.zero).trans (ev6_zero w)

theorem ev12_one (w : L) : ev12 w Fp12.one = 1 := (ev12_join w Fp6.one).trans (ev6_one w)

/-- `fp12Pow` is the power (43_gt_group.md R264). -/
theorem ev12_pow (hp : 0 < p) (hlt : p < 2 ^ 384) {w : L} (hw : w ^ 12 = 2 * w ^ 6 - 2) (x : Fp12) (e : Nat) :
    ev12 w (fp12Pow p x e) = ev12 w x ^ e := by
  rw [fp12Pow, ev12_powLoop hp hlt hw, ev12_one, one_pow, one_mul, Nat.mod_eq_of_lt Nat.lt_log2_self]

end Sys2Proof.Machine
end

