-- ==== Sys2Proof/Laws/TowerField.lean ====
section
/-! SUPPORT. The root `w` of X^12 - 2·X^6 + 2 has degree 12 over the prime field of the recommended P, so the embedding of
Laws/TowerEmbed.lean is injective, and Frobenius fixes what it must. -/

namespace Sys2Proof.Machine

open Config (recommendedQ recommendedP)

/-- The degree at which to test whether `w` could have degree `d`: `d` itself, doubled where odd. -/
def testDegree (d : Nat) : Nat := if d % 2 = 0 then d else 2 * d

/-- The numeric facts about P and Q that the structure of the recommended tower rests on. -/
structure TowerCert (q p : Nat) : Prop where
  prime : p.Prime
  fits : p < 2 ^ 384
  four : 4 < p
  div24 : 24 ∣ p ^ 2 - 1
  /-- `w^(p^12) = w`. -/
  order12 : powCert 384 p (p - 4) ((p ^ 12 - 1) / 24 % (p - 1)) = 1
  /-- `v^(p^6) = v`. -/
  order6 : powCert 384 p (p - 4) ((p ^ 6 - 1) / 12 % (p - 1)) = 1
  /-- No smaller degree. -/
  degree : ∀ d ∈ List.range 12, d ≠ 0 →
    powCert 384 p (p - 4) ((p ^ testDegree d - 1) / 24 % (p - 1)) ≠ 1 ∧
      powCert 384 p (p - 4) ((p ^ testDegree d - 1) / 24 % (p - 1)) < p
  /-- `u + 1` is no cube in Fp2. -/
  cube : powCert 384 p 16 ((p ^ 2 - 1) / 24 % (p - 1)) ≠ 1 ∧ powCert 384 p 16 ((p ^ 2 - 1) / 24 % (p - 1)) < p
  /-- Q divides the order of the multiplicative group of Fp12, and is prime to that of Fp6. -/
  qDvd : q ∣ p ^ 12 - 1
  qCoprime : Nat.gcd q (p ^ 6 - 1) = 1

theorem recommended_cert : TowerCert recommendedQ recommendedP where
  prime := recommendedP_prime
  fits := recommendedP_ok.fits
  four := by decide +kernel
  div24 := by decide +kernel
  order12 := by decide +kernel
  order6 := by decide +kernel
  degree := by decide +kernel
  cube := by decide +kernel
  qDvd := by decide +kernel
  qCoprime := by decide +kernel

section

variable {q p : Nat} (hc : TowerCert q p) [Fact p.Prime] {L : Type} [Field L] [Algebra (ZMod p) L] [CharP L p]

omit [CharP L p] in
/-- In a field of characteristic `p`, the powers of a number are those that `powCert` computes. -/
theorem cast_pow_eq_cert {n e : Nat} (hp : 1 < p) (hlt : p < 2 ^ 384) (hn : ¬ p ∣ n) :
    ((n : Nat) : L) ^ e = ((powCert 384 p n (e % (p - 1)) : Nat) : L) := by
  have he : e % (p - 1) < 2 ^ 384 := lt_trans (Nat.mod_lt _ (by omega)) (by omega)
  have h1 : ((n : Nat) : ZMod p) ^ (p - 1) = 1 :=
    ZMod.pow_card_sub_one_eq_one (by rwa [Ne, ZMod.natCast_eq_zero_iff])
  have h := congrArg (algebraMap (ZMod p) L) (powCert_cast (n := p) (a := n) he)
  rw [map_natCast, map_pow, map_natCast] at h
  rw [h]
  have h1' : ((n : Nat) : L) ^ (p - 1) = 1 := by
    have := congrArg (algebraMap (ZMod p) L) h1
    rwa [map_pow, map_natCast, map_one] at this
  conv_lhs => rw [← Nat.div_add_mod e (p - 1), pow_add, pow_mul, h1', one_pow, one_mul]

omit [Fact p.Prime] [Algebra (ZMod p) L] in
theorem cast_ne_one_of_cert {n : Nat} (h1 : n ≠ 1) (hlt : n < p) (hp : 1 < p) : ((n : Nat) : L) ≠ 1 := by
  intro h
  rw [← Nat.cast_one, CharP.cast_eq_iff_mod_eq L p, Nat.mod_eq_of_lt hlt, Nat.mod_eq_of_lt hp] at h
  exact h1 h

variable {w : L} (hw : w ^ 12 = 2 * w ^ 6 - 2)

include hc

omit [Fact p.Prime] in
theorem TowerCert.not_dvd_sub_four : ¬ p ∣ p - 4 := fun h => by
  have := Nat.le_of_dvd (by have := hc.four; omega) h
  have := hc.four; omega

omit [Fact p.Prime] [Algebra (ZMod p) L] in
theorem TowerCert.cast_sub_four : ((p - 4 : Nat) : L) = -4 := by
  rw [Nat.cast_sub hc.four.le, CharP.cast_eq_zero L p]; norm_num

include hw

omit hc [Fact p.Prime] [Algebra (ZMod p) L] [CharP L p] in
theorem w_pow_24 : w ^ 24 = -4 := by
  have : w ^ 24 = (w ^ 12) ^ 2 := by ring
  rw [this, hw]; linear_combination 4 * hw

omit [Fact p.Prime] [Algebra (ZMod p) L] in
theorem w_ne_zero : w ≠ 0 := by
  rintro rfl
  have h4 : (4 : L) = 0 := by
    have := w_pow_24 hw
    rw [zero_pow (by norm_num)] at this
    linear_combination this
  have : ((4 : Nat) : L) = 0 := by exact_mod_cast h4
  rw [CharP.cast_eq_zero_iff L p] at this
  exact absurd (Nat.le_of_dvd (by norm_num) this) (not_le.2 hc.four)

/-- `w^(p^n) = w` where the certificate says so, and only there. -/
theorem w_pow_eq_iff {n : Nat} (hn : 24 ∣ p ^ n - 1) :
    w ^ p ^ n = w ↔ ((powCert 384 p (p - 4) ((p ^ n - 1) / 24 % (p - 1)) : Nat) : L) = 1 := by
  have hw0 := w_ne_zero hc hw
  rw [← cast_pow_eq_cert hc.prime.one_lt hc.fits (hc.not_dvd_sub_four), hc.cast_sub_four, ← w_pow_24 hw, ← pow_mul,
    Nat.mul_div_cancel' hn]
  have hpos : 0 < p ^ n := pow_pos hc.prime.pos n
  have : w ^ p ^ n = w ^ (p ^ n - 1) * w := by rw [← pow_succ]; congr 1; omega
  rw [this]
  constructor
  · intro h; exact mul_right_cancel₀ hw0 (h.trans (one_mul w).symm)
  · intro h; rw [h, one_mul]

omit hw [Fact p.Prime] in
theorem TowerCert.div24_of_even {n : Nat} (hn : 2 ∣ n) : 24 ∣ p ^ n - 1 := by
  obtain ⟨m, rfl⟩ := hn
  rw [pow_mul]
  exact hc.div24.trans (by simpa using Nat.sub_dvd_pow_sub_pow (p ^ 2) 1 m)

/-- `w` has degree 12 at least. -/
theorem degree_w (hint : IsIntegral (ZMod p) w) : 12 ≤ (minpoly (ZMod p) w).natDegree := by
  by_contra hlt
  rw [not_le] at hlt
  set d := (minpoly (ZMod p) w).natDegree with hd
  have hd0 : d ≠ 0 := (minpoly.natDegree_pos hint).ne'
  have : FiniteDimensional (ZMod p) (IntermediateField.adjoin (ZMod p) {w}) :=
    IntermediateField.adjoin.finiteDimensional hint
  have : Finite (IntermediateField.adjoin (ZMod p) {w}) := Module.finite_of_finite (ZMod p)
  let _ : Fintype (IntermediateField.adjoin (ZMod p) {w}) := Fintype.ofFinite _
  have hcard : Fintype.card (IntermediateField.adjoin (ZMod p) {w}) = p ^ d := by
    rw [Module.card_eq_pow_finrank (K := ZMod p), ZMod.card, IntermediateField.adjoin.finrank hint]
  have hfix : w ^ p ^ d = w := by
    have := FiniteField.pow_card (⟨w, IntermediateField.mem_adjoin_simple_self _ w⟩ :
      IntermediateField.adjoin (ZMod p) {w})
    rw [hcard] at this
    exact congrArg Subtype.val this
  have hfix2 : w ^ p ^ testDegree d = w := by
    rw [testDegree]
    split
    · exact hfix
    · rw [two_mul, pow_add, pow_mul, hfix, hfix]
  have heven : 2 ∣ testDegree d := by rw [testDegree]; split <;> omega
  obtain ⟨hne, hlt'⟩ := hc.degree d (List.mem_range.2 hlt) hd0
  exact cast_ne_one_of_cert hne hlt' hc.prime.one_lt ((w_pow_eq_iff hc hw (hc.div24_of_even heven)).1 hfix2)

/-- The powers of `w` below 12 are independent over the prime field. -/
theorem coefficients_zero (hint : IsIntegral (ZMod p) w) (c : Fin 12 → ZMod p)
    (h : ∑ i, algebraMap (ZMod p) L (c i) * w ^ (i : Nat) = 0) : ∀ i, c i = 0 := by
  have hli := (linearIndependent_pow (K := ZMod p) w).comp (Fin.castLE (degree_w hc hw hint))
    (Fin.castLE_injective _)
  refine Fintype.linearIndependent_iff.1 hli c ?_
  simpa [Algebra.smul_def] using h

/-! ### The embedding is injective -/

omit hc hw [Algebra (ZMod p) L] in
/-- Words in range are equal where their classes are. -/
theorem word_eq_of_cast {x y : FpWord} (hx : x.toNat < p) (hy : y.toNat < p)
    (h : (x.toNat : ZMod p) - (y.toNat : ZMod p) = 0) : x = y :=
  BitVec.eq_of_toNat_eq (eq_of_cast_eq hx hy (sub_eq_zero.1 h))

/-- Values in range are equal where the field elements are. -/
theorem ev12_injective (hint : IsIntegral (ZMod p) w) {a b : Fp12} (ha : a.inRange p = true) (hb : b.inRange p = true)
    (h : ev12 w a = ev12 w b) : a = b := by
  let D : FpWord → FpWord → ZMod p := fun x y => (x.toNat : ZMod p) - (y.toNat : ZMod p)
  let c : Fin 12 → ZMod p := ![
    D a.lo.c0.c0 b.lo.c0.c0 - D a.lo.c0.c1 b.lo.c0.c1, D a.hi.c0.c0 b.hi.c0.c0 - D a.hi.c0.c1 b.hi.c0.c1,
    D a.lo.c1.c0 b.lo.c1.c0 - D a.lo.c1.c1 b.lo.c1.c1, D a.hi.c1.c0 b.hi.c1.c0 - D a.hi.c1.c1 b.hi.c1.c1,
    D a.lo.c2.c0 b.lo.c2.c0 - D a.lo.c2.c1 b.lo.c2.c1, D a.hi.c2.c0 b.hi.c2.c0 - D a.hi.c2.c1 b.hi.c2.c1,
    D a.lo.c0.c1 b.lo.c0.c1, D a.hi.c0.c1 b.hi.c0.c1, D a.lo.c1.c1 b.lo.c1.c1, D a.hi.c1.c1 b.hi.c1.c1,
    D a.lo.c2.c1 b.lo.c2.c1, D a.hi.c2.c1 b.hi.c2.c1]
  have hsum : ∑ i, algebraMap (ZMod p) L (c i) * w ^ (i : Nat) = ev12 w a - ev12 w b := by
    simp [c, D, Fin.sum_univ_succ, ev12, ev6, ev2, evF]
    ring
  have hz := coefficients_zero hc hw hint c (by rw [hsum, h, sub_self])
  have h0 := hz 0; have h1 := hz 1; have h2 := hz 2; have h3 := hz 3; have h4 := hz 4; have h5 := hz 5
  have h6 : D a.lo.c0.c1 b.lo.c0.c1 = 0 := hz 6
  have h7 : D a.hi.c0.c1 b.hi.c0.c1 = 0 := hz 7
  have h8 : D a.lo.c1.c1 b.lo.c1.c1 = 0 := hz 8
  have h9 : D a.hi.c1.c1 b.hi.c1.c1 = 0 := hz 9
  have h10 : D a.lo.c2.c1 b.lo.c2.c1 = 0 := hz 10
  have h11 : D a.hi.c2.c1 b.hi.c2.c1 = 0 := hz 11
  replace h0 : D a.lo.c0.c0 b.lo.c0.c0 - D a.lo.c0.c1 b.lo.c0.c1 = 0 := h0
  replace h1 : D a.hi.c0.c0 b.hi.c0.c0 - D a.hi.c0.c1 b.hi.c0.c1 = 0 := h1
  replace h2 : D a.lo.c1.c0 b.lo.c1.c0 - D a.lo.c1.c1 b.lo.c1.c1 = 0 := h2
  replace h3 : D a.hi.c1.c0 b.hi.c1.c0 - D a.hi.c1.c1 b.hi.c1.c1 = 0 := h3
  replace h4 : D a.lo.c2.c0 b.lo.c2.c0 - D a.lo.c2.c1 b.lo.c2.c1 = 0 := h4
  replace h5 : D a.hi.c2.c0 b.hi.c2.c0 - D a.hi.c2.c1 b.hi.c2.c1 = 0 := h5
  rw [h6, sub_zero] at h0; rw [h7, sub_zero] at h1; rw [h8, sub_zero] at h2
  rw [h9, sub_zero] at h3; rw [h10, sub_zero] at h4; rw [h11, sub_zero] at h5
  obtain ⟨hal, hah⟩ := Fp12.inRange_iff.1 ha
  obtain ⟨hbl, hbh⟩ := Fp12.inRange_iff.1 hb
  obtain ⟨⟨u0, u1⟩, ⟨u2, u3⟩, ⟨u4, u5⟩⟩ := Fp6.inRange_iff.1 hal
  obtain ⟨⟨u6, u7⟩, ⟨u8, u9⟩, ⟨u10, u11⟩⟩ := Fp6.inRange_iff.1 hah
  obtain ⟨⟨v0, v1⟩, ⟨v2, v3⟩, ⟨v4, v5⟩⟩ := Fp6.inRange_iff.1 hbl
  obtain ⟨⟨v6, v7⟩, ⟨v8, v9⟩, ⟨v10, v11⟩⟩ := Fp6.inRange_iff.1 hbh
  obtain ⟨⟨⟨a0, a1⟩, ⟨a2, a3⟩, ⟨a4, a5⟩⟩, ⟨⟨a6, a7⟩, ⟨a8, a9⟩, ⟨a10, a11⟩⟩⟩ := a
  obtain ⟨⟨⟨b0, b1⟩, ⟨b2, b3⟩, ⟨b4, b5⟩⟩, ⟨⟨b6, b7⟩, ⟨b8, b9⟩, ⟨b10, b11⟩⟩⟩ := b
  cases word_eq_of_cast u0 v0 h0; cases word_eq_of_cast u1 v1 h6; cases word_eq_of_cast u2 v2 h2
  cases word_eq_of_cast u3 v3 h8; cases word_eq_of_cast u4 v4 h4; cases word_eq_of_cast u5 v5 h10
  cases word_eq_of_cast u6 v6 h1; cases word_eq_of_cast u7 v7 h7; cases word_eq_of_cast u8 v8 h3
  cases word_eq_of_cast u9 v9 h9; cases word_eq_of_cast u10 v10 h5; cases word_eq_of_cast u11 v11 h11
  rfl

/-! ### Frobenius -/

/-- Fp12 is fixed by the twelfth power of Frobenius. -/
theorem ev12_frobenius (a : Fp12) : ev12 w a ^ p ^ 12 = ev12 w a := by
  have := ExpChar.prime (R := L) hc.prime
  have hφ : ∀ x : L, x ^ p ^ 12 = iterateFrobenius L p 12 x := fun x => (iterateFrobenius_def p 12 x).symm
  have hwfix : iterateFrobenius L p 12 w = w := by
    rw [← hφ, w_pow_eq_iff hc hw (hc.div24_of_even (by norm_num)), hc.order12, Nat.cast_one]
  rw [hφ]
  simp only [ev12, ev6, ev2, evF, map_add, map_sub, map_mul, map_pow, map_natCast, map_one, hwfix]

/-- Fp6 is fixed by the sixth power of Frobenius. -/
theorem ev6_frobenius (s : Fp6) : ev6 w s ^ p ^ 6 = ev6 w s := by
  have := ExpChar.prime (R := L) hc.prime
  have hφ : ∀ x : L, x ^ p ^ 6 = iterateFrobenius L p 6 x := fun x => (iterateFrobenius_def p 6 x).symm
  have hpos : 0 < p ^ 6 := pow_pos hc.prime.pos 6
  have h12 : 12 ∣ p ^ 6 - 1 := (by norm_num : 12 ∣ 24).trans (hc.div24_of_even (by norm_num))
  have hv : iterateFrobenius L p 6 w ^ 2 = w ^ 2 := by
    rw [← map_pow, ← hφ, ← pow_mul, show 2 * p ^ 6 = 24 * ((p ^ 6 - 1) / 12) + 2 by omega, pow_add, pow_mul,
      w_pow_24 hw, ← hc.cast_sub_four, cast_pow_eq_cert hc.prime.one_lt hc.fits hc.not_dvd_sub_four, hc.order6,
      Nat.cast_one, one_mul]
  have hv2 : iterateFrobenius L p 6 w ^ 4 = w ^ 4 := by
    rw [show (4 : Nat) = 2 * 2 by norm_num, pow_mul, hv, ← pow_mul]
  have hv3 : iterateFrobenius L p 6 w ^ 6 = w ^ 6 := by
    rw [show (6 : Nat) = 2 * 3 by norm_num, pow_mul, hv, ← pow_mul]
  rw [hφ]
  simp only [ev6, ev2, evF, map_add, map_sub, map_mul, map_pow, map_natCast, map_one, hv, hv2, hv3]

omit [Fact p.Prime] [Algebra (ZMod p) L] in
/-- Fp2 is fixed by the square of Frobenius. -/
theorem ev2_frobenius (x : Fp2) : ev2 w x ^ p ^ 2 = ev2 w x := by
  have := ExpChar.prime (R := L) hc.prime
  have hφ : ∀ x : L, x ^ p ^ 2 = iterateFrobenius L p 2 x := fun x => (iterateFrobenius_def p 2 x).symm
  have hpos : 0 < p ^ 2 := pow_pos hc.prime.pos 2
  have h4 : 4 ∣ p ^ 2 - 1 := (by norm_num : 4 ∣ 24).trans hc.div24
  have hu : (w ^ 6 - 1) ^ 4 = 1 := by
    have h2 : (w ^ 6 - 1) ^ 2 = -1 := by linear_combination hw
    rw [show (4 : Nat) = 2 * 2 by norm_num, pow_mul, h2]; norm_num
  have hfix : iterateFrobenius L p 2 (w ^ 6 - 1) = w ^ 6 - 1 := by
    rw [← hφ, show p ^ 2 = 4 * ((p ^ 2 - 1) / 4) + 1 by omega, pow_add, pow_mul, hu, one_pow, one_mul, pow_one]
  rw [hφ, ev2, map_add, map_mul, hfix]
  simp only [evF, map_natCast]

end

end Sys2Proof.Machine
end

