-- ==== Sys2Proof/Laws/TowerLawful.lean ====
section
/-! SUPPORT. The recommended tower at the recommended parameters meets the laws of spec/43_gt_group.md R263: each law is
read off the field that Laws/TowerField.lean embeds it in. -/

namespace Sys2Proof.Machine

open Config (recommendedQ recommendedP)

/-- An embedding of the recommended tower over P into a field. -/
structure Embedding (q p : Nat) (L : Type) [Field L] [CharP L p] (w : L) : Prop where
  cert : TowerCert q p
  root : w ^ 12 = 2 * w ^ 6 - 2
  injective : ∀ a b : Fp12, a.inRange p = true → b.inRange p = true → ev12 w a = ev12 w b → a = b
  frobenius12 : ∀ a : Fp12, ev12 w a ^ p ^ 12 = ev12 w a
  frobenius6 : ∀ s : Fp6, ev6 w s ^ p ^ 6 = ev6 w s
  frobenius2 : ∀ x : Fp2, ev2 w x ^ p ^ 2 = ev2 w x

/-- The tower embeds in the algebraic closure of its prime field. -/
theorem exists_embedding {q p : Nat} [Fact p.Prime] (hc : TowerCert q p) :
    ∃ w : AlgebraicClosure (ZMod p), Embedding q p (AlgebraicClosure (ZMod p)) w := by
  have hf : Polynomial.degree (Polynomial.X ^ 12 - 2 * Polynomial.X ^ 6 + 2 : Polynomial (ZMod p)) = 12 := by
    compute_degree!
  obtain ⟨w, hw⟩ := IsAlgClosed.exists_aeval_eq_zero (AlgebraicClosure (ZMod p))
    (Polynomial.X ^ 12 - 2 * Polynomial.X ^ 6 + 2 : Polynomial (ZMod p)) (by rw [hf]; norm_num)
  have hrel : w ^ 12 = 2 * w ^ 6 - 2 := by
    have h2 : Polynomial.aeval w (2 : Polynomial (ZMod p)) = 2 := map_ofNat _ 2
    simp only [map_add, map_sub, map_mul, map_pow, Polynomial.aeval_X, h2] at hw
    linear_combination hw
  have hint : IsIntegral (ZMod p) w := Algebra.IsIntegral.isIntegral w
  exact ⟨w, hc, hrel, fun a b ha hb => ev12_injective hc hrel hint ha hb, ev12_frobenius hc hrel, ev6_frobenius hc hrel,
    ev2_frobenius hc hrel⟩

section

variable {q p : Nat} {L : Type} [Field L] [CharP L p] {w : L} (E : Embedding q p L w)
include E

theorem Embedding.pos : 0 < p := E.cert.prime.pos

theorem Embedding.injective6 {s t : Fp6} (hs : s.inRange p = true) (ht : t.inRange p = true)
    (h : ev6 w s = ev6 w t) : s = t := by
  have hz := Fp6.zero_inRange E.pos
  have := E.injective ⟨s, Fp6.zero⟩ ⟨t, Fp6.zero⟩ (Fp12.inRange_iff.2 ⟨hs, hz⟩) (Fp12.inRange_iff.2 ⟨ht, hz⟩)
    (by rw [ev12_join, ev12_join, h])
  exact congrArg Fp12.lo this

theorem Embedding.zero2 {x : Fp2} (hx : x.Ok p) (h : ev2 w x = 0) : x = ⟨0, 0⟩ := by
  have hz : (⟨0, 0⟩ : Fp2).Ok p := ⟨by simpa using E.pos, by simpa using E.pos⟩
  have := E.injective6 (s := ⟨x, ⟨0, 0⟩, ⟨0, 0⟩⟩) (Fp6.inRange_iff.2 ⟨hx, hz, hz⟩) (Fp6.zero_inRange E.pos)
    (by rw [ev6_zero, ev6, h]; simp [ev2, evF])
  exact congrArg Fp6.c0 this

theorem Embedding.zero6 {s : Fp6} (hs : s.inRange p = true) : ev6 w s = 0 ↔ s = Fp6.zero :=
  ⟨fun h => E.injective6 hs (Fp6.zero_inRange E.pos) (h.trans (ev6_zero w).symm), fun h => h ▸ ev6_zero w⟩

theorem Embedding.zero12 {a : Fp12} (ha : a.inRange p = true) : ev12 w a = 0 ↔ a = Fp12.zero :=
  ⟨fun h => E.injective _ _ ha (Fp12.zero_inRange E.pos) (h.trans (ev12_zero w).symm), fun h => h ▸ ev12_zero w⟩

/-- The other root `-w` of the tower's polynomial. -/
theorem Embedding.root_neg : (-w) ^ 12 = 2 * (-w) ^ 6 - 2 := by
  rw [Even.neg_pow (by decide), Even.neg_pow (by decide), E.root]

omit [CharP L p] E in
theorem ev6_neg_root (w : L) (s : Fp6) : ev6 (-w) s = ev6 w s := by
  simp only [ev6, ev2]; ring

/-- Conjugation is evaluation at `-w`. -/
theorem Embedding.conj (a : Fp12) : ev12 w (fp12Conj p a) = ev12 (-w) a := by
  rw [ev12_conj E.pos E.cert.fits, ev12, ev6_neg_root, ev6_neg_root]; ring

omit E in
theorem ev12_conj_product (w : L) (a : Fp12) : ev12 w a * ev12 (-w) a = ev6 w a.lo ^ 2 - w ^ 2 * ev6 w a.hi ^ 2 := by
  rw [ev12, ev12, ev6_neg_root, ev6_neg_root]; ring

/-! ### Inverses -/

/-- The inverse of a nonzero element of the prime field. -/
theorem Embedding.fpInv {x : FpWord} (h : evF L x ≠ 0) : evF L x * evF L (fpInv p x) = 1 := by
  have hp2 := E.cert.four
  have hpr : Fact p.Prime := ⟨E.cert.prime⟩
  have hlt : p - 2 < 2 ^ 384 := lt_of_le_of_lt (Nat.sub_le _ _) E.cert.fits
  rw [Machine.fpInv, evF_powLoop E.pos E.cert.fits, Nat.mod_eq_of_lt hlt]
  have h1 : evF L (1 : FpWord) = 1 := by simp [evF]
  rw [h1, one_pow, one_mul, ← pow_succ', show p - 2 + 1 = p - 1 by omega]
  have hne : ((x.toNat : Nat) : ZMod p) ≠ 0 := by
    rw [Ne, ZMod.natCast_eq_zero_iff]
    exact fun hd => h ((CharP.cast_eq_zero_iff L p _).2 hd)
  have := congrArg (ZMod.castHom (dvd_refl p) L) (ZMod.pow_card_sub_one_eq_one hne)
  rwa [map_pow, map_natCast, map_one] at this

/-- The inverse of a nonzero element of Fp2. -/
theorem Embedding.fp2Inv {x : Fp2} (hx : x.Ok p) (h : ev2 w x ≠ 0) : ev2 w x * ev2 w (fp2Inv p x) = 1 := by
  have hP := E.pos
  have hlt := E.cert.fits
  set n := fpAdd p (fpMul p x.c0 x.c0) (fpMul p x.c1 x.c1) with hn
  have hnorm : ev2 w x * (evF L x.c0 - evF L x.c1 * (w ^ 6 - 1)) = evF L n := by
    rw [hn, evF_add hP hlt, evF_mul hP hlt, evF_mul hP hlt, ev2]
    linear_combination (-(evF L x.c1) ^ 2) * E.root
  have hconj : ev2 w ⟨x.c0, fpNeg p x.c1⟩ = evF L x.c0 - evF L x.c1 * (w ^ 6 - 1) := by
    rw [ev2, evF_neg hP hlt]; ring
  have hcne : evF L x.c0 - evF L x.c1 * (w ^ 6 - 1) ≠ 0 := by
    intro h0
    have hz := E.zero2 (x := ⟨x.c0, fpNeg p x.c1⟩) ⟨hx.1, fpNeg_lt hP hlt _⟩ (hconj.trans h0)
    have e0 : evF L x.c0 = 0 := by rw [show x.c0 = 0 from congrArg Fp2.c0 hz]; simp [evF]
    have e1 : evF L x.c1 = 0 := by
      have : evF L (fpNeg p x.c1) = 0 := by rw [show fpNeg p x.c1 = 0 from congrArg Fp2.c1 hz]; simp [evF]
      rwa [evF_neg hP hlt, neg_eq_zero] at this
    exact h (by rw [ev2, e0, e1]; ring)
  have hinv := E.fpInv (x := n) (hnorm ▸ mul_ne_zero h hcne)
  rw [show Machine.fp2Inv p x = ⟨fpMul p x.c0 (Machine.fpInv p n), fpMul p (fpNeg p x.c1) (Machine.fpInv p n)⟩ from rfl]
  rw [show ev2 w (⟨fpMul p x.c0 (Machine.fpInv p n), fpMul p (fpNeg p x.c1) (Machine.fpInv p n)⟩ : Fp2)
      = (evF L x.c0 - evF L x.c1 * (w ^ 6 - 1)) * evF L (Machine.fpInv p n) by
    rw [ev2, evF_mul hP hlt, evF_mul hP hlt, evF_neg hP hlt]; ring]
  rw [← mul_assoc, hnorm, hinv]

/-- The root is not zero: its characteristic is above 4. -/
theorem Embedding.root_ne_zero : w ≠ 0 := w_ne_zero E.cert E.root

/-- `u + 1 = w^6` is the cube of no quotient of Fp2. -/
theorem Embedding.not_cube {b c : Fp2} (hc : ev2 w c ≠ 0) (h : ev2 w b ^ 3 = w ^ 6 * ev2 w c ^ 3) : False := by
  have hpr : Fact p.Prime := ⟨E.cert.prime⟩
  have hpos : 0 < p ^ 2 := pow_pos E.pos 2
  have h24 := E.cert.div24
  have hb : ev2 w b ≠ 0 := by
    intro h0
    rw [h0, zero_pow (by norm_num)] at h
    exact mul_ne_zero (pow_ne_zero 6 E.root_ne_zero) (pow_ne_zero 3 hc) h.symm
  have hunit : ∀ x : Fp2, ev2 w x ≠ 0 → ev2 w x ^ (p ^ 2 - 1) = 1 := by
    intro x hx
    refine mul_right_cancel₀ hx ?_
    rw [one_mul, ← pow_succ, Nat.sub_add_cancel hpos, E.frobenius2]
  set m := (p ^ 2 - 1) / 24 with hm
  have hm3 : p ^ 2 - 1 = 3 * (8 * m) := by omega
  have h1 : (w ^ 6) ^ (8 * m) = 1 := by
    have := congrArg (· ^ (8 * m)) h
    simp only [mul_pow, ← pow_mul] at this
    rw [← hm3, hunit b hb, hunit c hc, mul_one] at this
    rw [← pow_mul]; exact this.symm
  have h16 : (w ^ 6) ^ 8 = 16 := by
    have : (w ^ 6) ^ 8 = (w ^ 24) ^ 2 := by ring
    rw [this, w_pow_24 E.root]; norm_num
  rw [pow_mul, h16] at h1
  have hn : ¬ p ∣ 16 := by
    intro hd
    have : p ∣ 2 ^ 4 := hd
    have := Nat.le_of_dvd (by norm_num) (E.cert.prime.dvd_of_dvd_pow this)
    have := E.cert.four
    omega
  let _ : Algebra (ZMod p) L := ZMod.algebra L p
  have hcast := cast_pow_eq_cert (L := L) (e := m) E.cert.prime.one_lt E.cert.fits hn
  rw [Nat.cast_ofNat, h1] at hcast
  exact cast_ne_one_of_cert E.cert.cube.1 E.cert.cube.2 E.cert.prime.one_lt hcast.symm

/-- The inverse of a nonzero element of Fp6. -/
theorem Embedding.fp6Inv {s : Fp6} (hs : s.inRange p = true) (h : s ≠ Fp6.zero) :
    ev6 w s * ev6 w (fp6Inv p s) = 1 := by
  have hP := E.pos
  have hlt := E.cert.fits
  have hs0 : ev6 w s ≠ 0 := fun h0 => h ((E.zero6 hs).1 h0)
  set t0 := fp2Sub p (fp2Mul p s.c0 s.c0) (fp2MulXi p (fp2Mul p s.c1 s.c2)) with ht0
  set t1 := fp2Sub p (fp2MulXi p (fp2Mul p s.c2 s.c2)) (fp2Mul p s.c0 s.c1) with ht1
  set t2 := fp2Sub p (fp2Mul p s.c1 s.c1) (fp2Mul p s.c0 s.c2) with ht2
  set n := fp2Add p (fp2Mul p s.c0 t0) (fp2MulXi p (fp2Add p (fp2Mul p s.c2 t1) (fp2Mul p s.c1 t2))) with hn
  have e0 : ev2 w t0 = ev2 w s.c0 ^ 2 - w ^ 6 * (ev2 w s.c1 * ev2 w s.c2) := by
    rw [ht0, ev2_sub hP hlt, ev2_mulXi hP hlt E.root, ev2_mul hP hlt E.root, ev2_mul hP hlt E.root]; ring
  have e1 : ev2 w t1 = w ^ 6 * ev2 w s.c2 ^ 2 - ev2 w s.c0 * ev2 w s.c1 := by
    rw [ht1, ev2_sub hP hlt, ev2_mulXi hP hlt E.root, ev2_mul hP hlt E.root, ev2_mul hP hlt E.root]; ring
  have e2 : ev2 w t2 = ev2 w s.c1 ^ 2 - ev2 w s.c0 * ev2 w s.c2 := by
    rw [ht2, ev2_sub hP hlt, ev2_mul hP hlt E.root, ev2_mul hP hlt E.root]; ring
  have hnv : ev2 w n = ev6 w s * ev6 w ⟨t0, t1, t2⟩ := by
    rw [hn, ev2_add hP hlt, ev2_mulXi hP hlt E.root, ev2_add hP hlt, ev2_mul hP hlt E.root, ev2_mul hP hlt E.root,
      ev2_mul hP hlt E.root, ev6, ev6, e0, e1, e2]
    ring
  have hn0 : ev2 w n ≠ 0 := by
    rw [hnv]
    refine mul_ne_zero hs0 fun h0 => ?_
    have hz := (E.zero6 (s := ⟨t0, t1, t2⟩)
      (Fp6.inRange_iff.2 ⟨fp2Add_ok hP hlt _ _, fp2Add_ok hP hlt _ _, fp2Add_ok hP hlt _ _⟩)).1 h0
    have z2 : ev2 w (⟨0, 0⟩ : Fp2) = 0 := by simp [ev2, evF]
    have z0 : ev2 w t0 = 0 := by rw [show t0 = ⟨0, 0⟩ from congrArg Fp6.c0 hz, z2]
    have z1 : ev2 w t1 = 0 := by rw [show t1 = ⟨0, 0⟩ from congrArg Fp6.c1 hz, z2]
    have z2 : ev2 w t2 = 0 := by rw [show t2 = ⟨0, 0⟩ from congrArg Fp6.c2 hz, z2]
    rw [e0] at z0; rw [e1] at z1; rw [e2] at z2
    by_cases hc : ev2 w s.c2 = 0
    · rw [hc] at z0 z1 z2
      have b0 : ev2 w s.c1 = 0 := pow_eq_zero_iff (two_ne_zero) |>.1 (by linear_combination z2)
      have a0 : ev2 w s.c0 = 0 := pow_eq_zero_iff (two_ne_zero) |>.1 (by linear_combination z0)
      exact hs0 (by rw [ev6, a0, b0, hc]; ring)
    · exact E.not_cube hc (by linear_combination (ev2 w s.c1) * z2 - (ev2 w s.c2) * z1)
  have hnOk : n.Ok p := fp2Add_ok hP hlt _ _
  have hinv := E.fp2Inv hnOk hn0
  rw [show Machine.fp6Inv p s = ⟨fp2Mul p t0 (Machine.fp2Inv p n), fp2Mul p t1 (Machine.fp2Inv p n),
    fp2Mul p t2 (Machine.fp2Inv p n)⟩ from rfl]
  rw [show ev6 w (⟨fp2Mul p t0 (Machine.fp2Inv p n), fp2Mul p t1 (Machine.fp2Inv p n),
      fp2Mul p t2 (Machine.fp2Inv p n)⟩ : Fp6) = ev6 w ⟨t0, t1, t2⟩ * ev2 w (Machine.fp2Inv p n) by
    simp only [ev6, ev2_mul hP hlt E.root]; ring]
  rw [← mul_assoc, ← hnv, hinv]

/-- A conjugate is zero only where the element is. -/
theorem Embedding.conj_ne_zero {a : Fp12} (ha : a.inRange p = true) (h : a ≠ Fp12.zero) : ev12 (-w) a ≠ 0 := by
  rw [← E.conj]
  intro h0
  have hz := (E.zero12 (fp12Conj_inRange E.pos E.cert.fits ha)).1 h0
  have hlo : ev6 w a.lo = 0 := by rw [show a.lo = Fp6.zero from congrArg Fp12.lo hz, ev6_zero]
  have hhi : ev6 w a.hi = 0 := by
    have : ev6 w (fp6Neg p a.hi) = 0 := by rw [show fp6Neg p a.hi = Fp6.zero from congrArg Fp12.hi hz, ev6_zero]
    rwa [ev6_neg E.pos E.cert.fits, neg_eq_zero] at this
  exact h ((E.zero12 ha).1 (by rw [ev12, hlo, hhi]; ring))

/-- The norm to Fp6. -/
theorem Embedding.norm (a : Fp12) :
    ev6 w (fp6Sub p (fp6Mul p a.lo a.lo) (fp6MulV p (fp6Mul p a.hi a.hi))) = ev12 w a * ev12 (-w) a := by
  rw [ev12_conj_product, ev6_sub E.pos E.cert.fits, ev6_mulV E.pos E.cert.fits E.root, ev6_mul E.pos E.cert.fits E.root,
    ev6_mul E.pos E.cert.fits E.root]
  ring

/-- The inverse of a nonzero element of Fp12. -/
theorem Embedding.fp12Inv {a : Fp12} (ha : a.inRange p = true) (h : a ≠ Fp12.zero) :
    ev12 w a * ev12 w (fp12Inv p a) = 1 := by
  have hP := E.pos
  have hlt := E.cert.fits
  set n := fp6Sub p (fp6Mul p a.lo a.lo) (fp6MulV p (fp6Mul p a.hi a.hi)) with hn
  have hn0 : ev6 w n ≠ 0 := by
    rw [hn, E.norm]
    exact mul_ne_zero (fun h0 => h ((E.zero12 ha).1 h0)) (E.conj_ne_zero ha h)
  have hinv := E.fp6Inv (s := n) (fp6Add_inRange hP hlt _ _) (fun h0 => hn0 (h0 ▸ ev6_zero w))
  rw [show Machine.fp12Inv p a = ⟨fp6Mul p a.lo (Machine.fp6Inv p n), fp6Mul p (fp6Neg p a.hi) (Machine.fp6Inv p n)⟩
    from rfl]
  rw [show ev12 w (⟨fp6Mul p a.lo (Machine.fp6Inv p n), fp6Mul p (fp6Neg p a.hi) (Machine.fp6Inv p n)⟩ : Fp12)
      = ev12 (-w) a * ev6 w (Machine.fp6Inv p n) by
    rw [ev12, ev12, ev6_neg_root, ev6_neg_root, ev6_mul hP hlt E.root, ev6_mul hP hlt E.root, ev6_neg hP hlt]; ring]
  rw [← mul_assoc, ← E.norm, ← hn, hinv]

/-! ### The subgroup -/

/-- A nonzero element to the order of the multiplicative group is 1. -/
theorem Embedding.lagrange {a : Fp12} (ha : a.inRange p = true) (h : a ≠ Fp12.zero) :
    ev12 w a ^ (p ^ 12 - 1) = 1 := by
  refine mul_right_cancel₀ (fun h0 => h ((E.zero12 ha).1 h0)) ?_
  rw [one_mul, ← pow_succ, Nat.sub_add_cancel (pow_pos E.pos 12), E.frobenius12]

/-- A member is unitary: its norm to Fp6 has an order that divides Q and the order of Fp6's group, so it is 1. -/
theorem Embedding.unitary {a : Fp12} (h : fp12Pow p a q = Fp12.one) :
    ev12 w a * ev12 (-w) a = 1 := by
  have hP := E.pos
  have hlt := E.cert.fits
  have h1 : ev12 w a ^ q = 1 := by rw [← ev12_pow hP hlt E.root, h, ev12_one]
  have h2 : ev12 (-w) a ^ q = 1 := by rw [← ev12_pow hP hlt E.root_neg, h, ev12_one]
  set y := ev12 w a * ev12 (-w) a with hy
  have hyq : y ^ q = 1 := by rw [hy, mul_pow, h1, h2, one_mul]
  have hq0 : q ≠ 0 := by
    rintro rfl
    have hco := E.cert.qCoprime
    rw [Nat.gcd_zero_left] at hco
    have : 5 ^ 6 ≤ p ^ 6 := Nat.pow_le_pow_left E.cert.four 6
    omega
  have hy0 : y ≠ 0 := by
    intro h0
    rw [h0, zero_pow hq0] at hyq
    exact zero_ne_one hyq
  have hy6 : y ^ (p ^ 6 - 1) = 1 := by
    refine mul_right_cancel₀ hy0 ?_
    rw [one_mul, ← pow_succ, Nat.sub_add_cancel (pow_pos hP 6), hy, ← E.norm, E.frobenius6]
  have := Nat.dvd_gcd (orderOf_dvd_of_pow_eq_one hyq) (orderOf_dvd_of_pow_eq_one hy6)
  rw [E.cert.qCoprime, Nat.dvd_one] at this
  exact orderOf_eq_one_iff.1 this

/-- The n-fold product is the power. -/
theorem Embedding.pow (a : Fp12) (n : Nat) : ev12 w ((recommendedTower q p).pow a n) = ev12 w a ^ n := by
  induction n with
  | zero => rw [Tower.pow, ev12_one, pow_zero]
  | succ n ih => rw [Tower.pow, pow_succ, ← ih]; exact ev12_mul E.pos E.cert.fits E.root _ _

theorem Embedding.pow_inRange (a : Fp12) (n : Nat) : ((recommendedTower q p).pow a n).inRange p = true := by
  cases n with
  | zero => exact Fp12.one_inRange E.cert.prime.one_lt
  | succ n => exact fp12Mul_inRange E.pos E.cert.fits _ _

theorem Embedding.fp12Pow_inRange (a : Fp12) (n : Nat) : (fp12Pow p a n).inRange p = true :=
  fp12PowLoop_inRange E.pos E.cert.fits _ _ _ (Fp12.one_inRange E.cert.prime.one_lt)

omit [CharP L p] E in
theorem subg_iff (q p : Nat) (a : Fp12) :
    (recommendedTower q p).subg a = true ↔ a ≠ Fp12.zero ∧ fp12Pow p a q = Fp12.one := by
  rw [show (recommendedTower q p).subg a = decide (a ≠ Fp12.zero ∧ fp12Pow p a q = Fp12.one) from rfl,
    decide_eq_true_eq]

theorem Embedding.pow_eq_one_iff (a : Fp12) (n : Nat) :
    (recommendedTower q p).pow a n = Fp12.one ↔ fp12Pow p a n = Fp12.one := by
  have hone := Fp12.one_inRange E.cert.prime.one_lt
  have h1 := E.pow a n
  have h2 := ev12_pow E.pos E.cert.fits E.root a n
  constructor
  · intro h
    exact E.injective _ _ (E.fp12Pow_inRange _ _) hone (by rw [h2, ← h1, h])
  · intro h
    exact E.injective _ _ (E.pow_inRange _ _) hone (by rw [h1, ← h2, h])

/-- The recommended tower is lawful wherever it embeds (43_gt_group.md R263, R264). -/
theorem Embedding.lawful : (recommendedTower q p).Lawful q p := by
  have hP := E.pos
  have hlt := E.cert.fits
  have h1p := E.cert.prime.one_lt
  have hone := Fp12.one_inRange h1p
  have hmul : ∀ a b, ev12 w (fp12Mul p a b) = ev12 w a * ev12 w b := ev12_mul hP hlt E.root
  have hmul' : ∀ a b, ev12 (-w) (fp12Mul p a b) = ev12 (-w) a * ev12 (-w) b := ev12_mul hP hlt E.root_neg
  have hmul6 : ∀ s t, ev6 w (fp6Mul p s t) = ev6 w s * ev6 w t := ev6_mul hP hlt E.root
  have hr : ∀ a b, (fp12Mul p a b).inRange p = true := fp12Mul_inRange hP hlt
  have hr6 : ∀ s t, (fp6Mul p s t).inRange p = true := fp6Mul_inRange hP hlt
  have hconj : ∀ a, a.inRange p = true → (fp12Conj p a).inRange p = true := fun a => fp12Conj_inRange hP hlt
  have hexp : ∀ a, ev12 w ((recommendedTower q p).fexp a) = ev12 w a ^ ((p ^ 12 - 1) / q) :=
    fun a => ev12_pow hP hlt E.root a _
  have hexpR : ∀ a, ((recommendedTower q p).fexp a).inRange p = true := fun a => E.fp12Pow_inRange a _
  refine { recommendedTower_closed q h1p hlt with
    mulAssoc := fun a b c _ _ _ => E.injective _ _ (hr _ _) (hr _ _) ?_
    mulComm := fun a b _ _ => E.injective _ _ (hr _ _) (hr _ _) ?_
    mulOne := fun a ha => E.injective _ _ (hr _ _) ha ?_
    mulZero := fun a _ => E.injective _ _ (hr _ _) (Fp12.zero_inRange hP) ?_
    noZeroDivisors := ?_
    sqr := fun a _ => rfl
    invZero := by rw [recommendedTower_inv12, if_pos rfl]
    invMul := ?_
    conjConj := fun a ha => E.injective _ _ (hconj _ (hconj _ ha)) ha ?_
    conjMul := fun a b _ _ => E.injective _ _ (hconj _ (hr _ _)) (hr _ _) ?_
    conjOne := E.injective _ _ (hconj _ hone) hone ?_
    unitary := fun a _ hs => E.injective _ _ (hr _ _) hone ?_
    subgIff := fun a _ => by rw [subg_iff, E.pow_eq_one_iff]
    fexpSubg := ?_
    fexpMul := fun a b _ _ => E.injective _ _ (hexpR _) (hr _ _) ?_
    fexpOne := E.injective _ _ (hexpR _) hone ?_
    mul6Assoc := fun r s t _ _ _ => E.injective6 (hr6 _ _) (hr6 _ _) ?_
    mul6Comm := fun s t _ _ => E.injective6 (hr6 _ _) (hr6 _ _) ?_
    mul6One := fun s hs => E.injective6 (hr6 _ _) hs ?_
    inv6Zero := by rw [recommendedTower_inv6, if_pos rfl]
    inv6Mul := ?_
    embed := fun s t _ _ => E.injective _ _ (hr _ _) (Fp12.inRange_iff.2 ⟨hr6 _ _, Fp6.zero_inRange hP⟩) ?_
    conjJoin := fun c0 c1 _ _ => rfl }
  · show ev12 w (fp12Mul p (fp12Mul p a b) c) = ev12 w (fp12Mul p a (fp12Mul p b c))
    rw [hmul, hmul, hmul, hmul, mul_assoc]
  · show ev12 w (fp12Mul p a b) = ev12 w (fp12Mul p b a)
    rw [hmul, hmul, mul_comm]
  · show ev12 w (fp12Mul p a Fp12.one) = ev12 w a
    rw [hmul, ev12_one, mul_one]
  · show ev12 w (fp12Mul p a Fp12.zero) = ev12 w Fp12.zero
    rw [hmul, ev12_zero, mul_zero]
  · intro a b ha hb h
    have h0 : ev12 w a * ev12 w b = 0 := by rw [← hmul, show fp12Mul p a b = Fp12.zero from h, ev12_zero]
    exact (mul_eq_zero.1 h0).imp (E.zero12 ha).1 (E.zero12 hb).1
  · intro a ha h0
    refine ⟨Machine.fp12Inv p a, by rw [recommendedTower_inv12, if_neg h0], E.injective _ _ (hr _ _) hone ?_⟩
    show ev12 w (fp12Mul p a (Machine.fp12Inv p a)) = ev12 w Fp12.one
    rw [hmul, E.fp12Inv ha h0, ev12_one]
  · show ev12 w (fp12Conj p (fp12Conj p a)) = ev12 w a
    rw [ev12_conj hP hlt, ev12, show (fp12Conj p a).lo = a.lo from rfl, show (fp12Conj p a).hi = fp6Neg p a.hi from rfl,
      ev6_neg hP hlt]
    ring
  · show ev12 w (fp12Conj p (fp12Mul p a b)) = ev12 w (fp12Mul p (fp12Conj p a) (fp12Conj p b))
    rw [E.conj, hmul', hmul, E.conj, E.conj]
  · show ev12 w (fp12Conj p Fp12.one) = ev12 w Fp12.one
    rw [E.conj, ev12_one, ev12_one]
  · show ev12 w (fp12Mul p a (fp12Conj p a)) = ev12 w Fp12.one
    rw [hmul, E.conj, E.unitary ((subg_iff q p a).1 hs).2, ev12_one]
  · intro a ha h0
    have hne : ev12 w a ≠ 0 := fun h => h0 ((E.zero12 ha).1 h)
    refine (subg_iff q p _).2 ⟨fun hz => ?_, E.injective _ _ (E.fp12Pow_inRange _ _) hone ?_⟩
    · have := hexp a
      rw [hz, ev12_zero] at this
      exact pow_ne_zero _ hne this.symm
    · rw [ev12_pow hP hlt E.root, hexp, ← pow_mul, Nat.div_mul_cancel E.cert.qDvd, E.lagrange ha h0, ev12_one]
  · show ev12 w ((recommendedTower q p).fexp (fp12Mul p a b)) = ev12 w (fp12Mul p _ _)
    rw [hexp, hmul, hmul, hexp, hexp, mul_pow]
  · rw [hexp, ev12_one, one_pow]
  · show ev6 w (fp6Mul p (fp6Mul p r s) t) = ev6 w (fp6Mul p r (fp6Mul p s t))
    rw [hmul6, hmul6, hmul6, hmul6, mul_assoc]
  · show ev6 w (fp6Mul p s t) = ev6 w (fp6Mul p t s)
    rw [hmul6, hmul6, mul_comm]
  · show ev6 w (fp6Mul p s Fp6.one) = ev6 w s
    rw [hmul6, ev6_one, mul_one]
  · intro s hs h0
    refine ⟨Machine.fp6Inv p s, by rw [recommendedTower_inv6, if_neg h0],
      E.injective6 (hr6 _ _) (Fp6.one_inRange h1p) ?_⟩
    show ev6 w (fp6Mul p s (Machine.fp6Inv p s)) = ev6 w Fp6.one
    rw [hmul6, E.fp6Inv hs h0, ev6_one]
  · show ev12 w (fp12Mul p ⟨s, Fp6.zero⟩ ⟨t, Fp6.zero⟩) = ev12 w ⟨fp6Mul p s t, Fp6.zero⟩
    rw [hmul, ev12_join, ev12_join, ev12_join, hmul6]

end

/-- The recommended tower at the recommended parameters is lawful (43_gt_group.md R264). -/
theorem recommendedTower_lawful : (recommendedTower recommendedQ recommendedP).Lawful recommendedQ recommendedP := by
  have : Fact (Nat.Prime recommendedP) := ⟨recommendedP_prime⟩
  obtain ⟨w, E⟩ := exists_embedding recommended_cert
  exact E.lawful

/-- H of 95_test_vectors.md section 7.1 is a member of the subgroup. -/
theorem memberH_subg : (recommendedTower recommendedQ recommendedP).subg Config.memberH = true := by decide +kernel

/-- The parameters at reset are usable (log entry 1). -/
theorem recommended_usable : Config.recommended.Usable where
  scalar := recommendedQ_ok
  base := recommendedP_ok
  generator := by decide +kernel
  generatorMember := memberH_subg
  generatorNotOne := by decide +kernel
  closed := recommendedTower_closed _ recommendedP_prime.one_lt recommendedP_ok.fits

end Sys2Proof.Machine
end

