-- ==== Sys2Proof/Laws/TowerTorus.lean ====
section
/-! SUPPORT. Law L8 of spec/43_gt_group.md R263 for the recommended tower, by the algebra of spec/44_gt_codec_torus.md
R306: with it the recommended tower meets all the laws. -/

namespace Sys2Proof.Machine

open Config (recommendedQ recommendedP)

/-- `addone` adds 1 (43_gt_group.md R264). -/
theorem ev6_addone {p : Nat} {L : Type} [Field L] [CharP L p] (hp : 0 < p) (hlt : p < 2 ^ 384) (w : L) (c : Fp6) :
    ev6 w (addone p c) = ev6 w c + 1 := by
  have h : evF L (BitVec.ofNat 384 ((c.c0.c0.toNat + 1) % p)) = evF L c.c0.c0 + 1 := by
    rw [evF, toNat_ofNat_mod hp hlt, cast_mod_char p, Nat.cast_add, Nat.cast_one, evF]
  simp only [ev6, ev2, addone, h]; ring

/-- `MINUS_ONE6` is -1 (00_scope.md R19). -/
theorem ev6_minusOne6 {p : Nat} {L : Type} [Field L] [CharP L p] (hp : 0 < p) (hlt : p < 2 ^ 384) (w : L) :
    ev6 w (minusOne6 p) = -1 := by
  have h : evF L (BitVec.ofNat 384 (p - 1)) = -1 := by
    rw [evF, BitVec.toNat_ofNat, Nat.mod_eq_of_lt (lt_of_le_of_lt (Nat.sub_le _ _) hlt), Nat.cast_sub hp, CharP.cast_eq_zero,
      Nat.cast_one, zero_sub]
  have h0 : evF L (0 : FpWord) = 0 := by simp [evF]
  rw [show minusOne6 p = ⟨⟨BitVec.ofNat 384 (p - 1), 0⟩, ⟨0, 0⟩, ⟨0, 0⟩⟩ from rfl]
  simp only [ev6, ev2, h, h0]; ring

section

variable {q p : Nat} {L : Type} [Field L] [CharP L p] {w : L} (E : Embedding q p L w)
include E

/-- L8: with `T` the compressed value of a member `G`, `(T + w) / (T - w) = G`. -/
theorem Embedding.roundTrip {g : Fp12} {t : Fp6} (hg : g.inRange p = true) (hs : (recommendedTower q p).subg g = true)
    (hc : compress (recommendedTower q p) p g = some t) : uncompress (recommendedTower q p) p t = .ok g := by
  have hP := E.pos
  have hlt := E.cert.fits
  have hhi := (Fp12.inRange_iff.1 hg).2
  rw [compress, recommendedTower_inv6] at hc
  by_cases h0 : g.hi = Fp6.zero
  · rw [if_pos h0] at hc; cases hc
  rw [if_neg h0] at hc
  have ht : t = fp6Mul p (Machine.fp6Inv p g.hi) (addone p g.lo) := (Option.some.inj hc).symm
  have hT : ev6 w g.hi * ev6 w t = ev6 w g.lo + 1 := by
    rw [ht, ev6_mul hP hlt E.root, ev6_addone hP hlt, ← mul_assoc, E.fp6Inv hhi h0, one_mul]
  have hC : ev6 w g.hi ≠ 0 := fun h => h0 ((E.zero6 hhi).1 h)
  have hN : ev12 w g * (ev6 w g.lo - ev6 w g.hi * w) = 1 := by
    rw [← ev12_conj hP hlt, E.conj]; exact E.unitary ((subg_iff q p g).1 hs).2
  have hY : (⟨t, minusOne6 p⟩ : Fp12) ≠ Fp12.zero := fun h => by
    have := (ev6_minusOne6 hP hlt w).symm.trans ((congrArg (ev6 w) (congrArg Fp12.hi h)).trans (ev6_zero w))
    exact one_ne_zero (neg_eq_zero.1 this)
  have htr : t.inRange p = true := ht ▸ fp6Mul_inRange hP hlt _ _
  have hinv := E.fp12Inv (Fp12.inRange_iff.2 ⟨htr, minusOne6_inRange ⟨E.cert.prime, hlt⟩⟩) hY
  have hy : ev12 w (⟨t, minusOne6 p⟩ : Fp12) = ev6 w t - w := by rw [ev12, ev6_minusOne6 hP hlt]; ring
  rw [hy] at hinv
  have hmul : fp12Mul p ⟨t, Fp6.one⟩ (Machine.fp12Inv p ⟨t, minusOne6 p⟩) = g := by
    refine E.injective _ _ (fp12Mul_inRange hP hlt _ _) hg ?_
    rw [ev12_mul hP hlt E.root, show ev12 w (⟨t, Fp6.one⟩ : Fp12) = ev6 w t + w by rw [ev12, ev6_one, one_mul]]
    rw [ev12] at hN
    have key : (ev6 w t - w) * (ev6 w g.lo + ev6 w g.hi * w) = ev6 w t + w := by
      refine mul_left_cancel₀ hC ?_
      linear_combination (ev6 w g.lo + ev6 w g.hi * w - 1) * hT + hN
    show _ = ev6 w g.lo + ev6 w g.hi * w
    linear_combination (ev6 w g.lo + ev6 w g.hi * w) * hinv
      - ev12 w (Machine.fp12Inv p ⟨t, minusOne6 p⟩) * key
  rw [uncompress, recommendedTower_inv12, if_neg hY]
  show (if (recommendedTower q p).subg (fp12Mul p ⟨t, Fp6.one⟩ (Machine.fp12Inv p ⟨t, minusOne6 p⟩)) = true then
    Except.ok (fp12Mul p ⟨t, Fp6.one⟩ (Machine.fp12Inv p ⟨t, minusOne6 p⟩)) else Except.error (Stop.none Reason.notInSubgroup)) = _
  rw [hmul, if_pos hs]

end

/-- The recommended tower at the recommended parameters meets all the laws (43_gt_group.md R263, R264). -/
theorem recommendedTower_allLaws : (recommendedTower recommendedQ recommendedP).AllLaws recommendedQ recommendedP := by
  have : Fact (Nat.Prime recommendedP) := ⟨recommendedP_prime⟩
  obtain ⟨w, E⟩ := exists_embedding recommended_cert
  exact ⟨recommendedTower_lawful, fun _ _ => E.roundTrip⟩

end Sys2Proof.Machine
end

