-- ==== Sys2Proof/Tests/Slice0.lean ====
section
/-! SUPPORT. Tests. Expected results are from spec/ (mostly 95_test_vectors.md, whose row numbers the docstrings give); the
`test_witness_` theorems show that the hypotheses of the statements can be met. -/

namespace Sys2Proof.Tests

-- One theorem after the other: side by side they would ask for too many threads.
set_option Elab.async false

open Sys2Proof Sys2Proof.Machine

/-! ### Helpers -/

/-- The reset state with the given canonical values in S0, S1, … -/
def scalars (xs : List Nat) : State :=
  (xs.zipIdx).foldl (fun s p => s.writeScalar (Fin.ofNat 16 p.2) p.1) State.reset

/-- The reset state with the given values in G0, G1, … -/
def gts (xs : List Fp12) : State := (xs.zipIdx).foldl (fun s p => s.setG (Fin.ofNat 8 p.2) p.1) State.reset

/-- The reset state with the given value in T0. -/
def torus (x : Fp6) : State := State.reset.setT 0 x

/-- The reset state with the given bytes in DBUF from an offset on. -/
def buffer (off : Nat) (bs : List Byte) : State := State.reset.store off bs

/-- The n bytes k, k + 1, … -/
def inc (k n : Nat) : List Byte := (List.range n).map fun i => BitVec.ofNat 8 (k + i)

/-- The Fp12 value with the given components and 0 elsewhere. -/
def elt (xs : List (Nat × Nat)) : Fp12 := Fp12.ofFn fun k => BitVec.ofNat 384 ((xs.lookup k).getD 0)

/-- The Fp6 value with the given components and 0 elsewhere. -/
def elt6 (xs : List (Nat × Nat)) : Fp6 := Fp6.ofFn fun k => BitVec.ofNat 384 ((xs.lookup k).getD 0)

/-- The state after one step. -/
def next (s : State) : State :=
  match step s with
  | .next t => t
  | .fault _ => s
  | .refused _ => s

/-- The state after one step that runs a command word. -/
def run (w : Word) (s : State) : State := next (s.withFetchWord 32 w.toNat)

/-- The state after one step in which the host presents an access. -/
def host (a : Access) (s : State) : State := next { s with inputs := [.access a] }

/-! ### Well-formedness: a term that each check refuses -/

/-- A destination, a first or a second source out of range is refused (30_encoding.md R125). -/
theorem test_wellFormed_refuses_g_fields :
    (Instr.gadd 8 0 0).wellFormed = false ∧ (Instr.gadd 0 8 0).wellFormed = false ∧
    (Instr.gadd 0 0 15).wellFormed = false ∧ (Instr.gsub 8 7 7).wellFormed = false ∧
    (Instr.gsub 7 8 7).wellFormed = false ∧ (Instr.gsub 7 7 8).wellFormed = false ∧
    (Instr.gneg 8 0).wellFormed = false ∧ (Instr.gneg 0 8).wellFormed = false ∧
    (Instr.gdbl 9 0).wellFormed = false ∧ (Instr.gdbl 0 9).wellFormed = false ∧
    (Instr.gsmul 8 0 0).wellFormed = false ∧ (Instr.gsmul 0 8 0).wellFormed = false ∧
    (Instr.ginv 8 0).wellFormed = false ∧ (Instr.ginv 0 8).wellFormed = false ∧
    (Instr.gone 8).wellFormed = false ∧ (Instr.ggen 8).wellFormed = false ∧ (Instr.grand 8).wellFormed = false ∧
    (Instr.gisid 8).wellFormed = false ∧ (Instr.geq 8 0).wellFormed = false ∧ (Instr.geq 0 8).wellFormed = false ∧
    (Instr.gsubg 8).wellFormed = false ∧ (Instr.gmov 8 0).wellFormed = false ∧ (Instr.gmov 0 8).wellFormed = false ∧
    (Instr.gld 8 0 576).wellFormed = false ∧ (Instr.gldu 8 0 576).wellFormed = false ∧
    (Instr.gst 8 0 576).wellFormed = false ∧ (Instr.gcmpr 0 8).wellFormed = false ∧
    (Instr.guncmpr 8 0).wellFormed = false := by
  decide

/-- A torus field out of range is refused (30_encoding.md R125). -/
theorem test_wellFormed_refuses_t_fields :
    (Instr.gcmpr 4 0).wellFormed = false ∧ (Instr.guncmpr 0 4).wellFormed = false ∧
    (Instr.tld 4 0 288).wellFormed = false ∧ (Instr.tst 15 0 288).wellFormed = false := by
  decide

/-- The highest fields in range are accepted; the scalar of GSMUL and every S field may be 15 (30_encoding.md R125). -/
theorem test_wellFormed_accepts :
    (Instr.gsmul 7 7 15).wellFormed = true ∧ (Instr.gcmpr 3 7).wellFormed = true ∧
    (Instr.guncmpr 7 3).wellFormed = true ∧ (Instr.sadd 15 15 15).wellFormed = true := by
  decide

/-! ### Decoding: a word for every constructor, written out from 30_encoding.md -/

/-- The words of 95_test_vectors.md section 2.1, scalar_arith rows. -/
theorem test_decode_scalar_arith :
    decodeWord 0x10201000 = .ok (.sadd 2 0 1) ∧
    decodeWord 0x11FED000 = .ok (.ssub 15 14 13) ∧
    decodeWord 0x12111000 = .ok (.smul 1 1 1) ∧
    decodeWord 0x13320000 = .ok (.sneg 3 2) ∧
    decodeWord 0x14450000 = .ok (.sdbl 4 5) ∧
    decodeWord 0x15670000 = .ok (.ssqr 6 7) ∧
    decodeWord 0x16890000 = .ok (.sinv 8 9) ∧
    decodeWord 0x17ABC000 = .ok (.sdiv 10 11 12) ∧
    decodeWord 0x18012000 = .ok (.spow 0 1 2) ∧
    decodeWord 0x19100000 = .ok (.ssqrt 1 0) ∧
    decodeWord 0x1A040000 = .ok (.sleg 4) ∧
    decodeWord 0x1B100003 = .ok (.sshl 1 0 3) ∧
    decodeWord 0x1C230FFF = .ok (.sshr 2 3 4095) := by
  decide

/-- The words of 95_test_vectors.md section 2.1, scalar_cmp_move rows. -/
theorem test_decode_scalar_cmp_move :
    decodeWord 0x00000000 = .ok (.nop) ∧
    decodeWord 0x20001000 = .ok (.seq 0 1) ∧
    decodeWord 0x21023000 = .ok (.scmp 2 3) ∧
    decodeWord 0x22050000 = .ok (.sisz 5) ∧
    decodeWord 0x23432000 = .ok (.ssel 4 3 2) ∧
    decodeWord 0x24100000 = .ok (.smov 1 0) ∧
    decodeWord 0x25500000 = .ok (.szero 5) ∧
    decodeWord 0x26F00000 = .ok (.sone 15) ∧
    decodeWord 0x2700FFFF = .ok (.simm 0 65535) ∧
    decodeWord 0x28090000 = .ok (.snbits 9) ∧
    decodeWord 0x29700000 = .ok (.srand 7) := by
  decide

/-- The words of 95_test_vectors.md section 2.1, scalar_codec rows. -/
theorem test_decode_scalar_codec :
    decodeWord 0x30002020 = .ok (.sldle 0 2 32) ∧
    decodeWord 0x3113E020 = .ok (.sldbe 1 62 32) ∧
    decodeWord 0x32204020 = .ok (.sstle 2 4 32) ∧
    decodeWord 0x33306020 = .ok (.sstbe 3 6 32) ∧
    decodeWord 0x34408020 = .ok (.sldraw 4 8 32) ∧
    decodeWord 0x35510040 = .ok (.sldwide 5 16 64) ∧
    decodeWord 0x36620030 = .ok (.sldokm 6 32 48) := by
  decide

/-- The words of 95_test_vectors.md section 2.1, gt_group rows. -/
theorem test_decode_gt_group :
    decodeWord 0x40201000 = .ok (.gadd 2 0 1) ∧
    decodeWord 0x41321000 = .ok (.gsub 3 2 1) ∧
    decodeWord 0x42100000 = .ok (.gneg 1 0) ∧
    decodeWord 0x43760000 = .ok (.gdbl 7 6) ∧
    decodeWord 0x44107000 = .ok (.gsmul 1 0 7) ∧
    decodeWord 0x45450000 = .ok (.ginv 4 5) ∧
    decodeWord 0x46000000 = .ok (.gone 0) ∧
    decodeWord 0x47100000 = .ok (.ggen 1) ∧
    decodeWord 0x48200000 = .ok (.grand 2) ∧
    decodeWord 0x49030000 = .ok (.gisid 3) ∧
    decodeWord 0x4A012000 = .ok (.geq 1 2) ∧
    decodeWord 0x4B070000 = .ok (.gsubg 7) ∧
    decodeWord 0x4C650000 = .ok (.gmov 6 5) := by
  decide

/-- The words of 95_test_vectors.md section 2.1, gt_codec rows. -/
theorem test_decode_gt_codec :
    decodeWord 0x50300240 = .ok (.gld 3 0 576) ∧
    decodeWord 0x5141C240 = .ok (.gldu 4 28 576) ∧
    decodeWord 0x52000240 = .ok (.gst 0 0 576) ∧
    decodeWord 0x53010000 = .ok (.gcmpr 0 1) ∧
    decodeWord 0x54200000 = .ok (.guncmpr 2 0) ∧
    decodeWord 0x5532E120 = .ok (.tld 3 46 288) ∧
    decodeWord 0x56124120 = .ok (.tst 1 36 288) := by
  decide

/-- The fixed name that the host asks reads the same words. -/
theorem test_decodeTableWord :
    decodeTableWord 32 0x10201000 = some (.sadd 2 0 1) ∧ decodeTableWord 32 0x01000000 = none := by
  decide

/-! ### One step -/

/-- Row 4.5. -/
theorem test_sadd_wraps :
    (run 0x10201000 (scalars [Config.recommendedQ - 1, 2])).canonical 2 = 1 ∧
    (run 0x10201000 (scalars [Config.recommendedQ - 1, 2])).statusWord = 6 := by
  decide +kernel

/-- Row 4.8. -/
theorem test_ssub_borrows :
    (run 0x11201000 (scalars [3, 5])).canonical 2 = Config.recommendedQ - 2 := by
  decide +kernel

/-- Row 4.14. -/
theorem test_smul_reduces :
    (run 0x12201000 (scalars [2 ^ 128, 2 ^ 128])).canonical 2 = 0x1824b159acc5056f998c4fefecbc4ff55884b7fa0003480200000001fffffffe := by
  decide +kernel

/-- Row 4.16. -/
theorem test_smul_in_place :
    (run 0x12000000 (scalars [3])).canonical 0 = 9 := by
  decide +kernel

/-- Row 4.18. -/
theorem test_sneg_zero :
    (run 0x13200000 (scalars [0])).canonical 2 = 0 := by
  decide +kernel

/-- Row 4.17. -/
theorem test_sneg_one :
    (run 0x13200000 (scalars [1])).canonical 2 = Config.recommendedQ - 1 := by
  decide +kernel

/-- Row 4.20. -/
theorem test_sdbl_wraps :
    (run 0x14200000 (scalars [Config.recommendedQ - 1])).canonical 2 = Config.recommendedQ - 2 := by
  decide +kernel

/-- Row 4.23. -/
theorem test_ssqr_reduces :
    (run 0x15200000 (scalars [2 ^ 128])).canonical 2 = 0x1824b159acc5056f998c4fefecbc4ff55884b7fa0003480200000001fffffffe := by
  decide +kernel

/-- Row 4.26. -/
theorem test_sinv_two :
    (run 0x16200000 (scalars [2])).canonical 2 = 0x39f6d3a994cebea4199cec0404d0ec02a9ded2017fff2dff7fffffff80000001 := by
  decide +kernel

/-- Row 4.29: S2 stays invalid. -/
theorem test_sinv_zero :
    (run 0x16200000 (scalars [0])).statusWord = 0x0000030A ∧
    (run 0x16200000 (scalars [0])).sv[2] = false := by
  decide +kernel

/-- Row 4.31. -/
theorem test_sdiv :
    (run 0x17201000 (scalars [7, 3])).canonical 2 = 0x4d491a377113a8daccd13ab0066be558e27e6d5755543d54aaaaaaaa00000003 := by
  decide +kernel

/-- Row 4.34, and the next word of section 9.2. -/
theorem test_sdiv_by_zero_halts :
    (run 0x17201000 (scalars [5, 0])).statusWord = 0x00060032 ∧
    (run 0x26F00000 (run 0x17201000 (scalars [5, 0]))).statusWord = 0x00070032 := by
  decide +kernel

/-- Row 4.36. -/
theorem test_spow :
    (run 0x18201000 (scalars [3, Config.recommendedQ - 2])).canonical 2 = 0x4d491a377113a8daccd13ab0066be558e27e6d5755543d54aaaaaaaa00000001 := by
  decide +kernel

/-- Row 4.37. -/
theorem test_spow_zero_zero :
    (run 0x18201000 (scalars [0, 0])).canonical 2 = 1 := by
  decide +kernel

/-- Rows 4.44, 4.45. -/
theorem test_sleg :
    (run 0x1A000000 (scalars [5])).result = 0xFFFFFFFF ∧
    (run 0x1A000000 (scalars [4])).result = 1 := by
  decide +kernel

/-- Rows 4.47, 4.48: whatever the draw, its square is 4. -/
theorem test_ssqrt_either_root :
    smallerRoot Config.recommendedQ 4 = 2 ∧
    val Config.recommendedQ (res Config.recommendedQ 2) ^ 2 % Config.recommendedQ = 4 ∧
    val Config.recommendedQ (res Config.recommendedQ (Config.recommendedQ - 2)) ^ 2 % Config.recommendedQ = 4 := by
  decide +kernel

/-- Row 4.52. -/
theorem test_ssqrt_non_residue :
    (run 0x19200000 (scalars [5])).statusWord = 0x0000050A ∧
    (run 0x19200000 (scalars [5])).sv[2] = false := by
  decide +kernel

/-- Row 4.57. -/
theorem test_sshl_largest_count :
    (run 0x1B200FFF (scalars [5])).canonical 2 = 0x5bd32e868f895ff0171ac4d8153e1bed5fb3adee2c742f1efa62fe8269c0a9cf := by
  decide +kernel

/-- Row 4.60. -/
theorem test_sshr :
    (run 0x1C200003 (scalars [1])).canonical 2 = 0x656ff268c469cd9f2cd29d07086d9d04a945ef829ffe907f1fffffff20000001 := by
  decide +kernel

/-- Row 4.63. -/
theorem test_sshr_by_256 :
    (run 0x1C200100 (scalars [0x1824b159acc5056f998c4fefecbc4ff55884b7fa0003480200000001fffffffe])).canonical 2 = 1 := by
  decide +kernel

/-- Row 5.34. -/
theorem test_nop :
    (run 0x00000000 State.reset).statusWord = 6 := by
  decide +kernel

/-- Rows 5.2, 5.3. -/
theorem test_seq :
    (run 0x20001000 (scalars [5, 5])).result = 1 ∧
    (run 0x20001000 (scalars [0, 1])).result = 0 := by
  decide +kernel

/-- Rows 1.3.4, 1.3.6. -/
theorem test_scmp :
    (run 0x21001000 (scalars [4, 5])).result = 0xFFFFFFFF ∧
    (run 0x21001000 (scalars [256, 255])).result = 1 := by
  decide +kernel

/-- Rows 5.8, 5.9. -/
theorem test_sisz :
    (run 0x22000000 (scalars [0])).result = 1 ∧
    (run 0x22000000 (scalars [1])).result = 0 := by
  decide +kernel

/-- Rows 5.13, 5.14. -/
theorem test_ssel :
    (run 0x23201000 ((scalars [10, 20]).setResult 0xFFFFFFFF)).canonical 2 = 20 ∧
    (run 0x23201000 ((scalars [10, 20]).setResult 2)).canonical 2 = 10 := by
  decide +kernel

/-- Row 5.16. -/
theorem test_ssel_reads_both :
    (run 0x23201000 (scalars [10])).statusWord = 0x00040012 := by
  decide +kernel

/-- Rows 5.17, 5.18. -/
theorem test_smov :
    (run 0x24100000 (scalars [Config.recommendedQ - 1])).canonical 1 = Config.recommendedQ - 1 ∧
    (run 0x24100000 State.reset).statusWord = 0x00040012 := by
  decide +kernel

/-- Row 5.19. -/
theorem test_szero :
    (run 0x25500000 State.reset).canonical 5 = 0 ∧
    (run 0x25500000 State.reset).sv[5] = true := by
  decide +kernel

/-- Row 5.20. -/
theorem test_sone :
    (run 0x26F00000 State.reset).sreg[15].toNat = 0x1824b159acc5056f998c4fefecbc4ff55884b7fa0003480200000001fffffffe := by
  decide +kernel

/-- Row 5.23. -/
theorem test_simm :
    (run 0x2700FFFF State.reset).canonical 0 = 65535 := by
  decide +kernel

/-- Rows 5.28, 5.30. -/
theorem test_snbits :
    (run 0x28000000 (scalars [256])).result = 9 ∧
    (run 0x28000000 (scalars [Config.recommendedQ - 1])).result = 255 := by
  decide +kernel

/-- Rows 5.32, 5.33: the reduction, of drawn bytes. -/
theorem test_srand_reduces :
    leNat (leBytes 64 (Config.recommendedQ + 5)) % Config.recommendedQ = 5 ∧
    leNat (List.replicate 64 0xFF) % Config.recommendedQ = 0x0748d9d99f59ff1105d314967254398f2b6cedcb87925c23c999e990f3f29c6c := by
  decide +kernel

/-- Row 6.1. -/
theorem test_sldle :
    (run 0x30000020 (buffer 0 (inc 0 32))).canonical 0 = 0x1f1e1d1c1b1a191817161514131211100f0e0d0c0b0a09080706050403020100 := by
  decide +kernel

/-- Rows 6.3, 6.6, 6.7. -/
theorem test_sldle_modulus :
    (run 0x30000020 (buffer 0 (leBytes 32 Config.recommendedQ))).statusWord = 0x0000010A ∧
    (run 0x3003F020 State.reset).statusWord = 0x00050012 ∧
    (run 0x3003F01F State.reset).statusWord = 0x0000020A := by
  decide +kernel

/-- Row 6.8. -/
theorem test_sldbe :
    (run 0x31000020 (buffer 0 (inc 0 32))).canonical 0 = 0x000102030405060708090a0b0c0d0e0f101112131415161718191a1b1c1d1e1f := by
  decide +kernel

/-- Row 6.12: bytes 0x40 to 0x5F, and the byte after them. -/
theorem test_sstle :
    Memory.readBytes (run 0x32104020 (scalars [0, Config.recommendedQ - 1])).dbuf 0x40 8 = [0x00, 0x00, 0x00, 0x00, 0xff, 0xff, 0xff, 0xff] ∧
    Memory.readBytes (run 0x32104020 (scalars [0, Config.recommendedQ - 1])).dbuf 0x5D 4 = [0xa7, 0xed, 0x73, 0x00] := by
  decide +kernel

/-- Row 6.14. -/
theorem test_sstbe :
    Memory.readBytes (run 0x33104020 (scalars [0, Config.recommendedQ - 1])).dbuf 0x40 4 = [0x73, 0xed, 0xa7, 0x53] ∧
    Memory.readBytes (run 0x33104020 (scalars [0, Config.recommendedQ - 1])).dbuf 0x58 4 = [0xff, 0xff, 0xff, 0xff] := by
  decide +kernel

/-- Row 6.18. -/
theorem test_sldraw :
    (run 0x34000020 (buffer 0 (leBytes 32 (Config.recommendedQ + 7)))).canonical 0 = 7 := by
  decide +kernel

/-- Row 6.22. -/
theorem test_sldwide :
    (run 0x35000040 (buffer 0 (inc 0 64))).canonical 0 = 0x6c186743eacf1fbdc544b32ce71ac6bb70b80bad0487accd72dcc0a3e60deda6 := by
  decide +kernel

/-- Row 6.29. -/
theorem test_sldokm :
    (run 0x36000030 (buffer 0 (inc 0 48))).canonical 0 = 0x1beb01a0db17ad14f6f9daa88f841ac34ab5f49a7385dfe98a0d5fdcceb18c87 := by
  decide +kernel

/-- Row 7.1. -/
theorem test_gadd :
    (run 0x40201000 (gts [elt [(0, 1), (6, 1)], elt [(0, 1), (6, 1)]])).greg[2] = elt [(0, 1), (2, 1), (6, 2)] := by
  decide +kernel

/-- Row 7.7: not a member, so not ONE12. -/
theorem test_gsub :
    (run 0x41201000 (gts [elt [(0, 1), (6, 1)], elt [(0, 1), (6, 1)]])).greg[2] = elt [(0, 1), (2, Config.recommendedP - 1)] := by
  decide +kernel

/-- Row 7.9. -/
theorem test_gneg :
    (run 0x42100000 (gts [elt [(0, 1), (6, 1)]])).greg[1] = elt [(0, 1), (6, Config.recommendedP - 1)] := by
  decide +kernel

/-- Row 7.12. -/
theorem test_gdbl :
    (run 0x43100000 (gts [elt [(0, 1), (6, 1)]])).greg[1] = elt [(0, 1), (2, 1), (6, 2)] := by
  decide +kernel

/-- Row 7.15. -/
theorem test_gsmul :
    (run 0x44100000 ((gts [elt [(0, 1), (6, 1)]]).writeScalar 0 3)).greg[1] = elt [(0, 1), (2, 3), (6, 3), (8, 1)] := by
  decide +kernel

/-- Row 7.25. -/
theorem test_ginv :
    (run 0x45100000 (gts [elt [(0, 2)]])).greg[1] = elt [(0, (Config.recommendedP + 1) / 2)] := by
  decide +kernel

/-- Row 7.27. -/
theorem test_ginv_zero :
    (run 0x45100000 (gts [Fp12.zero])).statusWord = 0x0000030A := by
  decide +kernel

/-- Row 7.29. -/
theorem test_gone :
    (run 0x46500000 State.reset).greg[5] = Fp12.one := by
  decide +kernel

/-- Row 7.30. -/
theorem test_ggen :
    (run 0x47100000 State.reset).greg[1] = Config.memberH := by
  decide +kernel

/-- Rows 7.33, 7.35. -/
theorem test_gisid :
    (run 0x49000000 (gts [Fp12.one])).result = 1 ∧
    (run 0x49000000 (gts [Fp12.zero])).result = 0 := by
  decide +kernel

/-- Row 7.36. -/
theorem test_geq :
    (run 0x4A001000 (gts [Config.memberH, Config.memberH])).result = 1 ∧
    (run 0x4A001000 (gts [Config.memberH, elt [(0, 1), (6, 1)]])).result = 0 := by
  decide +kernel

/-- Rows 7.42. -/
theorem test_gsubg :
    (run 0x4B000000 (gts [Fp12.zero])).result = 0 := by
  decide +kernel

/-- A G0 copied to G1. -/
theorem test_gmov :
    (run 0x4C100000 (gts [Config.memberH])).greg[1] = Config.memberH := by
  decide +kernel

/-- 30_encoding.md R125. -/
theorem test_grand_bad_register :
    (run 0x48800000 State.reset).statusWord = 0x00030012 := by
  decide +kernel

/-- Row 8.1.4. -/
theorem test_gld_zero :
    (run 0x50000240 State.reset).statusWord = 0x0000040A := by
  decide +kernel

/-- Row 8.1.8. -/
theorem test_gld_highest_offset :
    (run 0x5001C240 (buffer 448 (encodeVec beBytes (Fp12.one).comps))).greg[0] = Fp12.one ∧
    (run 0x5001C240 (buffer 448 (encodeVec beBytes (Fp12.one).comps))).statusWord = 6 := by
  decide +kernel

/-- Rows 8.1.3, 8.1.7. -/
theorem test_gldu :
    (run 0x51000240 (buffer 0 (encodeVec beBytes (elt [(0, 1), (6, 1)]).comps))).greg[0] = elt [(0, 1), (6, 1)] ∧
    (run 0x51000240 (buffer 0 (encodeVec beBytes (elt [(0, 1), (3, Config.recommendedP)]).comps))).statusWord = 0x0000010A := by
  decide +kernel

/-- Row 8.1.12. -/
theorem test_gst_one :
    (run 0x52004240 (gts [Fp12.one])).dbuf = [(0x06F, 1)] := by
  decide +kernel

/-- Rows 8.2.1, 8.2.3. -/
theorem test_gcmpr :
    (run 0x53000000 (gts [elt [(0, 1), (6, 1)]])).treg[0] = elt6 [(0, 2)] ∧
    (run 0x53000000 (gts [Fp12.one])).statusWord = 0x0000030A := by
  decide +kernel

/-- Row 8.2.14. -/
theorem test_gcmpr_bad_register :
    (run 0x53400000 (gts [Config.memberH])).statusWord = 0x00030012 := by
  decide +kernel

/-- TH of 95_test_vectors.md section 7.1. -/
def th : Fp6 := elt6 [
    (0, 0x1577cb2e910daf0dd0e7044d97134af36089e5efebcde2de6abdb196e1e9a4e44b2bde0245c99543c8e8296d170a5804),
    (1, 0x194e3a7ca3e4488f6d929eb1b957981c3d95f4f9a2b6958eb09407479ad2295b4e9e6095f79aa9999550431a3617d749),
    (2, 0x12acc5a8db9fa7e7a2aa93db26a110e3c1516eb211458d2fbacb309e18fe816f3e90ea3a4d428522e9e24bcb888a28db),
    (3, 0x0ca74041455d74945603252236c023240da27c5b65f323fdf0dbcbad7204d9e084904dea985f8b458be66528ea34ac59),
    (4, 0x087b8e4091bf5132549ba49466ff2a0a4e5e5e1b909fb9e2f0595c0c624c21ebe258c1f30dd172c4ec87d4458e8b6707),
    (5, 0x09fe52c88f4b39f80d99bfbe9961bdabc2b6202c0b5313ae8002dbed4d5f547cde3d07b44f1b546205be27b297e96e50)]

/-- Row 8.2.13. -/
theorem test_guncmpr_uninit :
    (run 0x54100000 State.reset).statusWord = 0x00040012 := by
  decide +kernel

/-- Row 8.2.4. -/
theorem test_gcmpr_member :
    (run 0x53000000 (gts [Config.memberH])).treg[0] = th := by
  decide +kernel

/-- Row 8.3.3. -/
theorem test_tld :
    (run 0x55200120 (buffer 0 [1])).treg[2] = Fp6.one := by
  decide +kernel

/-- Row 8.3.4. -/
theorem test_tld_little_endian :
    (run 0x55200120 (buffer 47 [1])).treg[2] = elt6 [(0, 2 ^ 376)] := by
  decide +kernel

/-- Section 7.1: the first bytes of TST of TH; row 8.3.9. -/
theorem test_tst :
    Memory.readBytes (run 0x56024120 (torus th)).dbuf 0x240 8 = [0x04, 0x58, 0x0a, 0x17, 0x6d, 0x29, 0xe8, 0xc8] ∧
    (run 0x5610011F State.reset).statusWord = 0x00040012 := by
  decide +kernel

/-- Rows 9.1.1, 5.24, 7.47. -/
theorem test_words_that_are_no_command :
    (run 0x01000000 State.reset).statusWord = 0x00010012 ∧
    (run 0x27010005 State.reset).statusWord = 0x00020012 ∧
    (run 0x42101000 State.reset).statusWord = 0x00020012 := by
  decide +kernel

/-- 95_test_vectors.md section 3.1. -/
theorem test_limb_constants :
    montInv Config.recommendedQ = 0xfffffffeffffffff ∧
    r1 Config.recommendedQ = 0x1824b159acc5056f998c4fefecbc4ff55884b7fa0003480200000001fffffffe ∧
    r2 Config.recommendedQ = 0x0748d9d99f59ff1105d314967254398f2b6cedcb87925c23c999e990f3f29c6d ∧
    r3 Config.recommendedQ = 0x6e2a5bb9c8db33e973d13c71c7b5f4181b3e0d188cf06990c62c1807439b73af := by
  decide +kernel

/-- Rows 3.2.4, 3.2.5, 3.3.4. -/
theorem test_limb_algorithms :
    cios Config.recommendedQ (2 ^ 256 - 1) (r2 Config.recommendedQ) =
      0x6311cfd31c3276e99f809cae8f39c19f26a5d9d4878d7020c999e98df3f29c70 ∧
    cios Config.recommendedQ (Config.recommendedQ - 1) (Config.recommendedQ - 1) =
      0x1bbe869330009d577204078a4f77266aab6fca8f09dc705f13f75b69fe75c040 ∧
    redc Config.recommendedQ (Config.recommendedQ * 2 ^ 256 - 1) =
      0x582f20bff99cdff0c135d07dba2ab19aa84dd973f621eb9fec08a495018a3fc1 := by
  decide +kernel

/-- Row 6.21, the sum of the two parts. -/
theorem test_wide_reduction :
    wideReduce Config.recommendedQ (2 ^ 512 - 1) =
      0x5605aa601c162e79da44ec81daf9a422c2b9551e8ced218ec62c1805439b73b1 := by
  decide +kernel

/-! ### The host bus -/

/-- Section 9.7: STATUS while a command is pending, and a read of RESULT, which must wait; SONE S1 then completes. -/
theorem test_hold_rule :
    let s : State := { scalars [1] with pend := some 0x26100000, status := ⟨true, false, true, false, false, 1, 0⟩ }
    (host (.read 0x008 .word) s).lastResp = some ⟨.okay, some 0x0000010B⟩ ∧
    (host (.read 0x000 .word) s).lastResp = some ⟨.okay, some 0x424C5301⟩ ∧
    (host (.read 0x00C .word) s).held = [.read 0x00C .word] ∧ (host (.read 0x00C .word) s).pend = some 0x26100000 ∧
    (host (.read 0x008 .word) { s with held := [.read 0x00C .word] }).held = [.read 0x00C .word, .read 0x008 .word] ∧
    (next { s with held := [.read 0x00C .word] }).statusWord = 0x0000000E := by
  decide +kernel

/-- 20_memory.md R93: once nothing is pending a waiting access is performed, before those that come after it. -/
theorem test_waiting_access_is_performed :
    let s : State := { State.reset with result := 7, held := [.read 0x00C .word], inputs := [.access (.read 0 .word)] }
    (next s).lastResp = some ⟨.okay, some 7⟩ ∧ (next s).held = [] ∧ (next s).inputs = [.access (.read 0 .word)] := by
  decide +kernel

/-- 20_memory.md R93: a read of STATUS that waited behind a CMD write is answered at once when that write has been
performed, though its command is pending now; a read of RESULT there waits on. -/
theorem test_status_read_behind_cmd_write :
    let s : State := { State.reset with held := [.write 0x010 .word 0x48000000, .read 0x008 .word, .read 0x00C .word] }
    (next s).pend = some 0x48000000 ∧ (next s).held = [.read 0x008 .word, .read 0x00C .word] ∧
    (let t : State := { State.reset with pend := some 0x26100000, held := [.read 0x008 .word, .read 0x00C .word] }
     (next t).lastResp = some ⟨.okay, some 1⟩ ∧ (next t).held = [.read 0x00C .word] ∧ (next t).pend = some 0x26100000) ∧
    (let u : State := { State.reset with pend := some 0x26100000, held := [.read 0x00C .word] }
     (next u).lastResp = none ∧ (next u).held = [.read 0x00C .word] ∧ (next u).pend = none) := by
  decide +kernel

/-- 70_reset_and_hazards.md R370, R389: a hard reset discards a pending GRAND, whatever waits; the level 1 that rst_n has
already changes nothing. -/
theorem test_hard_reset :
    let s : State := { scalars [1] with pend := some 0x48000000, held := [.read 0x00C .word] }
    (next { s with inputs := [.rstN false] }).pend = none ∧ (next { s with inputs := [.rstN false] }).held = [] ∧
    (next { s with inputs := [.rstN false] }).sv[0] = false ∧ (next { s with inputs := [.rstN false] }).rstN = false ∧
    next { s with inputs := [.rstN true] } = s := by
  decide +kernel

/-- Section 9.5: IE raises IRQ with DONE, writing 1s clears fields, and a soft reset clears IE. -/
theorem test_status_and_irq :
    (host (.write 0x004 .word 1) (run 0 State.reset)).irq = true ∧
    (host (.write 0x008 .word 2) (run 0 State.reset)).statusWord = 0x00000004 ∧
    (host (.write 0x008 .word 0x1A) (run 0x01000000 State.reset)).statusWord = 0 ∧
    (host (.write 0x004 .word 3) (run 0x01000000 State.reset)).ctrlWord = 0 := by
  decide +kernel

/-- 20_memory.md R86, R88, R89: little-endian accesses to DBUF, and accesses that get the ERROR response. -/
theorem test_host_accesses :
    (host (.write 0x7FC .word 0x04030201) State.reset).dbuf = [(1020, 1), (1021, 2), (1022, 3), (1023, 4)] ∧
    (host (.read 0x402 .half) (buffer 0 [1, 2, 3, 4])).lastResp = some ⟨.okay, some 0x0403⟩ ∧
    (host (.read 0x401 .half) State.reset).lastResp = some ⟨.error, some 0⟩ ∧
    (host (.read 0x008 .half) State.reset).lastResp = some ⟨.error, some 0⟩ ∧
    (host (.read 0x014 .word) State.reset).lastResp = some ⟨.error, some 0⟩ ∧
    (host (.write 0x014 .word 1) State.reset).lastResp = some ⟨.error, none⟩ ∧
    (host (.read 0x800 .word) State.reset).lastResp = none := by
  decide +kernel

/-- 30_encoding.md R131, R132: assembled words of 95_test_vectors.md sections 2.1 and 2.2. -/
theorem test_assembler :
    assemble "SSUB" [.s 15, .s 14, .s 13] = some 0x11FED000 ∧ assemble "GCONJ" [.g 1, .g 0] = some 0x42100000 ∧
    assemble "TLD" [.t 2, .mem 0x120] = some 0x55212120 ∧ assemble "TST" [.t 1, .mem 0x240, .num 288] = some 0x56124120 ∧
    writtenOperands ⟨0x56, "TST", .m, .t, .unused, .unused, fun f => .tst f.d f.off f.imm12⟩ 0x56124120 =
      [.t 1, .mem 0x240, .num 288] ∧
    assemble "GADD" [.g 8, .g 0, .g 0] = none ∧ assemble "SLDLE" [.s 0, .mem 8] = none := by
  decide +kernel

/-- The same, from lines of text; decimal and hexadecimal numbers, and lower case. -/
theorem test_assembler_lines :
    assembleLine "SLDBE S1, [0x3E0], 32".toList = some 0x3113E020 ∧ assembleLine "NOP".toList = some 0 ∧
    assembleLine "sshr S2, S3, 4095".toList = some 0x1C230FFF ∧ assembleLine "GST G0, [0]".toList = some 0x52000240 ∧
    assembleLine "SADD S2, S0".toList = none ∧ assembleLine "SMOV S16, S0".toList = none ∧
    assembleLine "GLD S3, [0]".toList = none ∧ assembleLine "SMOV s1, S0".toList = none ∧
    assembleLine "SMOV\tS1, S0".toList = none ∧ assembleLine "GST G0, [ 0 ]".toList = none ∧
    assembleLine "SMOV S1,\tS0".toList = none ∧ assembleLine "  SMOV  S1 ,S0 ".toList = some 0x24100000 ∧ assembleLine "SIMM S0, 65536".toList = none := by
  decide +kernel

/-! ### Witnesses: states and operands that meet the hypotheses of the statements -/

/-- S0 to S4 hold 7, 3, 0, 4 and 5; G0 to G2 hold ONE12, 1 + w and ZERO12; T0 and T1 hold TH and ZERO6; DBUF holds the
encoding of ONE12 at 0. -/
def demo : State :=
  (((((((scalars [7, 3, 0, 4, 5]).setG 0 Fp12.one).setG 1 (elt [(0, 1), (6, 1)])).setG 2 Fp12.zero).setT 0 th).setT 1
    Fp6.zero).store 47 [1])

/-- `demo` after DIV_BY_ZERO. -/
def demoHalted : State := { demo with status := ⟨true, false, false, true, true, 0, 6⟩ }

theorem demo_scalar : ScalarModulusOk demo.q := recommendedQ_ok

theorem demo_base : BaseModulusOk demo.p := recommendedP_ok

theorem demo_lawful : demo.tower.Lawful demo.q demo.p := recommendedTower_lawful

theorem ready_demo : ∀ i : Fin 5, demo.sv[i.val] = true ∧ demo.sreg[i.val].toNat < demo.q := by
  decide +kernel

theorem ready0 : ReadyS demo (sIndex 0) := ⟨(ready_demo 0).1, (ready_demo 0).2⟩

theorem ready1 : ReadyS demo (sIndex 1) := ⟨(ready_demo 1).1, (ready_demo 1).2⟩

theorem ready2 : ReadyS demo (sIndex 2) := ⟨(ready_demo 2).1, (ready_demo 2).2⟩

theorem ready3 : ReadyS demo (sIndex 3) := ⟨(ready_demo 3).1, (ready_demo 3).2⟩

theorem ready4 : ReadyS demo (sIndex 4) := ⟨(ready_demo 4).1, (ready_demo 4).2⟩

theorem demo_canonical : demo.canonical (sIndex 0) = 7 ∧ demo.canonical (sIndex 1) = 3 ∧
    demo.canonical (sIndex 2) = 0 ∧ demo.canonical (sIndex 3) = 4 ∧ demo.canonical (sIndex 4) = 5 := by
  decide +kernel

theorem demo_gt : demo.gv[0] = true ∧ demo.gv[1] = true ∧ demo.gv[2] = true ∧ demo.greg[0] = Fp12.one ∧
    demo.greg[1] = elt [(0, 1), (6, 1)] ∧ demo.greg[2] = Fp12.zero ∧ demo.dbuf.wf = true := by
  decide +kernel

theorem one_inRange : Fp12.one.inRange Config.recommendedP = true := by decide +kernel

/-- ONE12 is a member (43_gt_group.md R263). -/
theorem subg_one : (recommendedTower Config.recommendedQ Config.recommendedP).subg Fp12.one = true := by
  have h := recommendedTower_lawful.fexpSubg Fp12.one one_inRange (by decide +kernel)
  rwa [recommendedTower_lawful.fexpOne] at h

/-- ZERO12 is not a member (43_gt_group.md R263). -/
theorem subg_zero : (recommendedTower Config.recommendedQ Config.recommendedP).subg Fp12.zero = false := by
  decide +kernel

/-- Row 7.39: H is a member. -/
theorem test_member : (recommendedTower Config.recommendedQ Config.recommendedP).subg Config.memberH = true :=
  memberH_subg

/-- Row 8.2.8: uncompressing TH gives H. -/
theorem test_uncompress : uncompress (recommendedTower Config.recommendedQ Config.recommendedP) Config.recommendedP th =
    .ok Config.memberH := by
  decide +kernel

/-- Row 8.2.10: uncompressing ZERO6 gives no member. -/
theorem test_uncompress_zero :
    uncompress (recommendedTower Config.recommendedQ Config.recommendedP) Config.recommendedP Fp6.zero =
      .error (.none .notInSubgroup) := by
  decide +kernel

/-- 5 is no square modulo Q (row 4.45), by Euler's criterion. -/
theorem five_not_square : ¬ ∃ y, y * y % Config.recommendedQ = 5 := by
  rintro ⟨y, hy⟩
  have hq := recommendedQ_ok
  have : Fact (Nat.Prime Config.recommendedQ) := ⟨hq.prime⟩
  have hsq : (y : ZMod Config.recommendedQ) ^ 2 = ((5 : Nat) : ZMod Config.recommendedQ) := by
    rw [← hy, cast_mod, Nat.cast_mul, sq]
  have hy0 : (y : ZMod Config.recommendedQ) ≠ 0 := by
    intro h
    rw [h, zero_pow two_ne_zero] at hsq
    have := eq_of_cast_eq hq.pos (show 5 < Config.recommendedQ by decide +kernel) (by rw [← hsq, Nat.cast_zero])
    omega
  have hpow : powMod Config.recommendedQ 5 ((Config.recommendedQ - 1) / 2) = Config.recommendedQ - 1 := by
    decide +kernel
  have hcast := powMod_cast (q := Config.recommendedQ) (e := (Config.recommendedQ - 1) / 2) 5 (by decide +kernel)
  rw [hpow, ← hsq, ← pow_mul,
    show 2 * ((Config.recommendedQ - 1) / 2) = Config.recommendedQ - 1 by decide +kernel,
    ZMod.pow_card_sub_one_eq_one hy0] at hcast
  have h1 := eq_of_cast_eq (show Config.recommendedQ - 1 < Config.recommendedQ by decide +kernel)
    (show 1 < Config.recommendedQ by decide +kernel) (by rw [hcast, Nat.cast_one])
  exact absurd h1 (by decide +kernel)

theorem test_witness_EncodeDecodeRoundTrip : ∃ i, decodeWord 0x54200000 = .ok i := ⟨.guncmpr 2 0, by decide⟩

/-- The ends of every range of R129. -/
theorem test_witness_UnassignedOpcodesAreIllegal :
    demo.status.halted = false ∧
    ∀ op ∈ [0x01, 0x0F, 0x1D, 0x1F, 0x2A, 0x2F, 0x37, 0x3F, 0x4D, 0x4F, 0x57, 0xFF],
      decodeWord (BitVec.ofNat 32 (op * 2 ^ 24)) = .error .illegalOpcode :=
  ⟨rfl, by decide⟩

/-- A word for each reserved or unused field, with the row of its opcode. -/
theorem test_witness_NonzeroReservedFieldIsRefused :
    demo.status.halted = false ∧
    ∀ w ∈ [0x00000001, 0x00800000, 0x10000001, 0x10000800, 0x1A100000, 0x1AF00000, 0x25010000, 0x13001000, 0x4A100000,
      0x1B001000, 0x1B008000, 0x27010000, 0x27080000, 0x30040000, 0x56080000],
      decodeWord (BitVec.ofNat 32 w) = .error .reservedField ∧
        (opRows.any fun row => row.op == opField (BitVec.ofNat 32 w)) = true :=
  ⟨rfl, by decide⟩

/-- Three used fields, a length left out, and a word that decodes to a command with its fields in range. -/
theorem test_witness_AssembledWordsAreWellFormed :
    assemble "GSMUL" [.g 7, .g 1, .s 15] = some 0x4471F000 ∧ assemble "SLDLE" [.s 15, .mem 1008, .num 4095] = some 0x30F3FFFF ∧
    assemble "TLD" [.t 3, .mem 0] = some 0x55300120 ∧
    decodeWord 0x4471F000 = .ok (.gsmul 7 1 15) ∧ (Instr.gsmul 7 1 15).wellFormed = true ∧
    (opRows.any fun row => row.op == opField 0x4471F000) = true := by
  decide +kernel

theorem test_witness_StepRunsDecodedCommand :
    decodeWord 0x10201000 = .ok (.sadd 2 0 1) ∧
    (let s : State := { demo with pend := some 0x10201000, held := [.read 0x00C .word] }
     s.pend = some 0x10201000 ∧ s.inputs = [] ∧ s.held = .read 0x00C .word :: [] ∧
       s.mustWait (.read 0x00C .word) = true) ∧
    (let s : State := { demo with pend := some 0x10201000, inputs := [.idle] }
     s.pend = some 0x10201000 ∧ s.inputs = .idle :: []) ∧
    (let s : State := { demo with pend := some 0x10201000, inputs := [.access (.read 0x00C .word)] }
     s.pend = some 0x10201000 ∧ s.inputs = [.access (.read 0x00C .word)] ∧ s.holds (.read 0x00C .word) = true) :=
  ⟨by decide, ⟨rfl, rfl, rfl, by decide +kernel⟩, ⟨rfl, rfl⟩, ⟨rfl, rfl, by decide +kernel⟩⟩

theorem test_witness_HaltedBlockRejectsEveryWord :
    demoHalted.status.halted = true ∧ demoHalted.addressed (.write 0x010 .word 0x26F00000) = true ∧
      0x010 % windowSize = 0x010 ∧ (0x00000010 : Word).getLsbD 4 = true :=
  ⟨rfl, by decide +kernel, by decide, by decide⟩

theorem test_witness_InvalidSourceIsUninit :
    demo.status.halted = false ∧
    ∀ i ∈ [Instr.smov 1 15, .ssel 2 0 15, .gsmul 0 0 15, .gmov 0 7, .guncmpr 0 3, .tst 3 63 287],
      i.wellFormed = true ∧ ¬ demo.SourcesValid i := by
  unfold State.SourcesValid
  decide +kernel

theorem test_witness_RegisterOutOfRangeIsBad :
    demo.status.halted = false ∧ ∀ i ∈ [Instr.gmov 8 0, .geq 0 15, .tld 4 63 0, .grand 8], i.wellFormed = false := by
  decide +kernel

theorem test_witness_WrongLengthComesBeforeBounds :
    demo.status.halted = false ∧
    ((Instr.sldle 0 63 31).buffer = some (63, 31, 32) ∧ (Instr.sldle 0 63 31).wellFormed = true ∧
      demo.SourcesValid (.sldle 0 63 31) ∧ (31 : BitVec 12).toNat ≠ 32) ∧
    ((Instr.gst 0 0 577).buffer = some (0, 577, 576) ∧ (Instr.gst 0 0 577).wellFormed = true ∧
      demo.SourcesValid (.gst 0 0 577) ∧ (577 : BitVec 12).toNat ≠ 576) := by
  unfold State.SourcesValid
  decide +kernel

/-- The first offset that is out of range for each length. -/
theorem test_witness_RangePastDbufIsBounds :
    demo.status.halted = false ∧
    ((Instr.sldle 0 63 32).buffer = some (63, 32, 32) ∧ (Instr.sldle 0 63 32).wellFormed = true ∧
      demo.SourcesValid (.sldle 0 63 32) ∧ (32 : BitVec 12).toNat = 32 ∧ 1024 < (63 : BitVec 6).toNat * 16 + 32) ∧
    ((Instr.gst 0 29 576).buffer = some (29, 576, 576) ∧ (Instr.gst 0 29 576).wellFormed = true ∧
      demo.SourcesValid (.gst 0 29 576) ∧ (576 : BitVec 12).toNat = 576 ∧
      1024 < (29 : BitVec 6).toNat * 16 + 576) := by
  unfold State.SourcesValid
  decide +kernel

theorem test_witness_FailuresChangeOnlyStatus :
    let s : State := { demo with pend := some 0x01000000 }
    ∃ t, s.pend = some 0x01000000 ∧ runWord 0x01000000 s = .next t ∧ t.pend = none ∧ t.status.ok = false :=
  ⟨_, rfl, rfl, rfl, rfl⟩

/-- A command that writes a register, a query and a command that reads an invalid register. -/
theorem test_witness_CommandsKeepWhatIsNotTheirs :
    (∃ t, exec (.smov 1 0) demo = .next t) ∧ (∃ t, exec (.sisz 0) demo = .next t) ∧
    (∃ t, exec (.tst 3 0 288) demo = .next t) ∧ demo.sv[(0 : Fin 16)] = true ∧ demo.gv[(0 : Fin 8)] = true ∧
    demo.tv[(0 : Fin 4)] = true ∧ (Instr.smov 1 0).writesResult = false ∧
    (Instr.smov 1 0).dest ≠ some (.s (BitVec.ofNat 4 (0 : Fin 16))) :=
  ⟨⟨_, rfl⟩, ⟨_, rfl⟩, ⟨_, rfl⟩, by decide +kernel, by decide +kernel, by decide +kernel, rfl, by decide⟩

/-- The invariant holds in a state with registers and DBUF in use, and a step from it answers. -/
theorem test_witness_EveryStepKeepsInv : demo.Inv ∧ ∃ t, step (demo.withFetchWord 32 0x10201000) = .next t where
  left := {
    usable := recommended_usable
    scalars := by decide +kernel
    gts := by decide +kernel
    tori := by decide +kernel
    scalarsClear := by decide +kernel
    gtsClear := by decide +kernel
    toriClear := by decide +kernel
    buffer := demo_gt.2.2.2.2.2.2
    reason := by decide
    ecode := by decide
    errClear := fun _ => rfl
    okReason := fun _ => rfl
    inReset := fun h => nomatch h
    noneHeld := fun _ => rfl }
  right := ⟨_, rfl⟩

theorem test_witness_ScalarAddAndSubtract :
    ScalarModulusOk demo.q ∧ demo.status.halted = false ∧ ReadyS demo (sIndex 0) ∧ ReadyS demo (sIndex 1) :=
  ⟨demo_scalar, rfl, ready0, ready1⟩

theorem test_witness_ScalarNegateAndDouble :
    ScalarModulusOk demo.q ∧ demo.status.halted = false ∧ ReadyS demo (sIndex 2) :=
  ⟨demo_scalar, rfl, ready2⟩

theorem test_witness_ScalarMultiplyAndSquare :
    ScalarModulusOk demo.q ∧ demo.status.halted = false ∧ ReadyS demo (sIndex 0) ∧ ReadyS demo (sIndex 0) :=
  ⟨demo_scalar, rfl, ready0, ready0⟩

theorem test_witness_ScalarInversion :
    ScalarModulusOk demo.q ∧ demo.status.halted = false ∧
    (ReadyS demo (sIndex 0) ∧ demo.canonical (sIndex 0) ≠ 0) ∧ ReadyS demo (sIndex 2) ∧ demo.canonical (sIndex 2) = 0 :=
  ⟨demo_scalar, rfl, ⟨ready0, by rw [demo_canonical.1]; decide⟩, ready2, demo_canonical.2.2.1⟩

theorem test_witness_ScalarDivision :
    ScalarModulusOk demo.q ∧ demo.status.halted = false ∧ ReadyS demo (sIndex 0) ∧ ReadyS demo (sIndex 1) ∧
      demo.canonical (sIndex 1) ≠ 0 :=
  ⟨demo_scalar, rfl, ready0, ready1, by rw [demo_canonical.2.1]; decide⟩

theorem test_witness_DivisionByZeroHalts :
    ScalarModulusOk demo.q ∧ demo.status.halted = false ∧ ReadyS demo (sIndex 0) ∧ ReadyS demo (sIndex 2) ∧
      demo.canonical (sIndex 2) = 0 ∧ (0x00000002 : Word).getLsbD 1 = true ∧ demo.rstN = true ∧
      demoHalted.status.halted = true :=
  ⟨demo_scalar, rfl, ready0, ready2, demo_canonical.2.2.1, by decide, rfl, rfl⟩

theorem test_witness_ScalarPower :
    ScalarModulusOk demo.q ∧ demo.status.halted = false ∧ ReadyS demo (sIndex 2) ∧ ReadyS demo (sIndex 2) :=
  ⟨demo_scalar, rfl, ready2, ready2⟩

/-- The three clauses: 0, the square 4, and 5, which is no square. -/
theorem test_witness_LegendreSymbol :
    ScalarModulusOk demo.q ∧ demo.status.halted = false ∧
    (ReadyS demo (sIndex 2) ∧ demo.canonical (sIndex 2) = 0) ∧
    (ReadyS demo (sIndex 3) ∧ demo.canonical (sIndex 3) ≠ 0 ∧ ∃ y, y * y % demo.q = demo.canonical (sIndex 3)) ∧
    (ReadyS demo (sIndex 4) ∧ ¬ ∃ y, y * y % demo.q = demo.canonical (sIndex 4)) :=
  ⟨demo_scalar, rfl, ⟨ready2, demo_canonical.2.2.1⟩,
    ⟨ready3, by rw [demo_canonical.2.2.2.1]; decide, 2, by decide +kernel⟩,
    ready4, by rw [demo_canonical.2.2.2.2]; exact five_not_square⟩

theorem test_witness_SquareRoot :
    ScalarModulusOk demo.q ∧ demo.status.halted = false ∧
    (ReadyS demo (sIndex 2) ∧ demo.canonical (sIndex 2) = 0) ∧
    (ReadyS demo (sIndex 3) ∧ demo.canonical (sIndex 3) ≠ 0 ∧ ∃ y, y * y % demo.q = demo.canonical (sIndex 3)) ∧
    (ReadyS demo (sIndex 4) ∧ ¬ ∃ y, y * y % demo.q = demo.canonical (sIndex 4)) :=
  test_witness_LegendreSymbol

theorem test_witness_ScalarShifts :
    ScalarModulusOk demo.q ∧ demo.status.halted = false ∧ ReadyS demo (sIndex 0) :=
  ⟨demo_scalar, rfl, ready0⟩

theorem test_witness_ScalarEqualityTests :
    ScalarModulusOk demo.q ∧ demo.status.halted = false ∧ ReadyS demo (sIndex 2) ∧ ReadyS demo (sIndex 1) :=
  ⟨demo_scalar, rfl, ready2, ready1⟩

theorem test_witness_ScalarOrderAndBitLength :
    ScalarModulusOk demo.q ∧ demo.status.halted = false ∧ ReadyS demo (sIndex 3) ∧ ReadyS demo (sIndex 4) :=
  ⟨demo_scalar, rfl, ready3, ready4⟩

theorem test_witness_ScalarSelectAndMove :
    demo.status.halted = false ∧ demo.sv[sIndex 0] = true ∧ demo.sv[sIndex 1] = true :=
  ⟨rfl, ready0.valid, ready1.valid⟩

theorem test_witness_ScalarConstants : ScalarModulusOk demo.q ∧ demo.status.halted = false :=
  ⟨demo_scalar, rfl⟩

theorem test_witness_NopAndRandomScalar : ScalarModulusOk demo.q ∧ demo.status.halted = false :=
  ⟨demo_scalar, rfl⟩

/-- Below Q, and Q itself, in both byte orders; the offset is the highest that is in range. -/
theorem test_witness_CanonicalScalarLoads :
    (let s := buffer 992 (leBytes 32 (Config.recommendedQ - 1))
     ScalarModulusOk s.q ∧ s.status.halted = false ∧ bufferRange 62 32 32 = .ok 992 ∧ leSum s.dbuf 992 32 < s.q) ∧
    (let s := buffer 992 (leBytes 32 Config.recommendedQ)
     ScalarModulusOk s.q ∧ s.status.halted = false ∧ bufferRange 62 32 32 = .ok 992 ∧ s.q ≤ leSum s.dbuf 992 32) ∧
    (let s := buffer 992 (beBytes 32 (Config.recommendedQ - 1))
     ScalarModulusOk s.q ∧ s.status.halted = false ∧ bufferRange 62 32 32 = .ok 992 ∧ beSum s.dbuf 992 32 < s.q) ∧
    (let s := buffer 992 (beBytes 32 Config.recommendedQ)
     ScalarModulusOk s.q ∧ s.status.halted = false ∧ bufferRange 62 32 32 = .ok 992 ∧ s.q ≤ beSum s.dbuf 992 32) := by
  simp only [← leNat_readBytes, ← beNat_readBytes]
  exact ⟨⟨recommendedQ_ok, by decide +kernel⟩, ⟨recommendedQ_ok, by decide +kernel⟩,
    ⟨recommendedQ_ok, by decide +kernel⟩, recommendedQ_ok, by decide +kernel⟩

theorem test_witness_ReducingScalarLoads :
    ScalarModulusOk demo.q ∧ demo.status.halted = false ∧ bufferRange 62 32 32 = .ok 992 ∧
      bufferRange 60 64 64 = .ok 960 ∧ bufferRange 61 48 48 = .ok 976 :=
  ⟨demo_scalar, rfl, rfl, rfl, rfl⟩

theorem test_witness_ScalarStores :
    demo.dbuf.wf = true ∧ demo.status.halted = false ∧ demo.sv[sIndex 0] = true ∧ bufferRange 62 32 32 = .ok 992 :=
  ⟨demo_gt.2.2.2.2.2.2, rfl, ready0.valid, rfl⟩

theorem test_witness_ScalarCodecRoundTrips :
    ScalarModulusOk demo.q ∧ demo.dbuf.wf = true ∧ demo.status.halted = false ∧ bufferRange 32 32 32 = .ok 512 ∧
    leSum demo.dbuf 512 32 < demo.q ∧ beSum demo.dbuf 512 32 < demo.q ∧ ReadyS demo (sIndex 0) ∧
    bufferRange 32 64 64 = .ok 512 ∧ ∀ k, 32 ≤ k → k < 64 → Memory.read demo.dbuf (512 + k) = 0 := by
  simp only [← leNat_readBytes, ← beNat_readBytes]
  refine ⟨demo_scalar, demo_gt.2.2.2.2.2.2, rfl, rfl, by decide +kernel, by decide +kernel, ready0, rfl, ?_⟩
  intro k h1 _
  show (if 47 = 512 + k then (1 : Byte) else Memory.read [] (512 + k)) = 0
  rw [if_neg (by omega)]
  rfl

theorem test_witness_GtRingCommands :
    (7 : RegField).toNat < 8 ∧ (0 : RegField).toNat < 8 ∧ (1 : RegField).toNat < 8 ∧ demo.status.halted = false ∧
      demo.gv[(0 : RegField).toNat] = true ∧ demo.gv[(1 : RegField).toNat] = true :=
  ⟨by decide, by decide, by decide, rfl, demo_gt.1, demo_gt.2.1⟩

theorem test_witness_GtScalarMultiplyIsPower :
    (7 : RegField).toNat < 8 ∧ ScalarModulusOk demo.q ∧ BaseModulusOk demo.p ∧ demo.tower.Lawful demo.q demo.p ∧
      demo.status.halted = false ∧ demo.gv[(0 : RegField).toNat] = true ∧
      demo.greg[(0 : RegField).toNat].inRange demo.p = true ∧ ReadyS demo (sIndex 0) :=
  ⟨by decide, demo_scalar, demo_base, demo_lawful, rfl, demo_gt.1,
    (congrArg (Fp12.inRange _) demo_gt.2.2.2.1).trans one_inRange, ready0⟩

/-- H is a member other than ONE12; both ends of the scalars' range. -/
theorem test_witness_GsmulLaws :
    let tw := recommendedTower Config.recommendedQ Config.recommendedP
    ScalarModulusOk Config.recommendedQ ∧ BaseModulusOk Config.recommendedP ∧
      tw.Lawful Config.recommendedQ Config.recommendedP ∧ Config.memberH.inRange Config.recommendedP = true ∧
      tw.subg Config.memberH = true ∧ 0 < Config.recommendedQ ∧ Config.recommendedQ - 1 < Config.recommendedQ :=
  ⟨recommendedQ_ok, recommendedP_ok, recommendedTower_lawful, by decide +kernel, test_member, by decide +kernel,
    by decide +kernel⟩

/-- G0 = ONE12 has an inverse, G2 = ZERO12 has none. -/
theorem test_witness_GtInversion :
    demo.status.halted = false ∧ demo.tower.Lawful demo.q demo.p ∧
    (demo.gv[(0 : RegField).toNat] = true ∧ demo.greg[(0 : RegField).toNat].inRange demo.p = true ∧
      demo.greg[(0 : RegField).toNat] ≠ Fp12.zero ∧ ∃ b, demo.tower.inv12 demo.greg[(0 : RegField).toNat] = some b) ∧
    (demo.gv[(2 : RegField).toNat] = true ∧ demo.greg[(2 : RegField).toNat].inRange demo.p = true ∧
      demo.greg[(2 : RegField).toNat] = Fp12.zero ∧ demo.tower.inv12 demo.greg[(2 : RegField).toNat] = none) := by
  have h0 : demo.greg[(0 : RegField).toNat] = Fp12.one := demo_gt.2.2.2.1
  have h2 : demo.greg[(2 : RegField).toNat] = Fp12.zero := demo_gt.2.2.2.2.2.1
  rw [h0, h2]
  have hne : Fp12.one ≠ Fp12.zero := by decide +kernel
  obtain ⟨b, hb, -⟩ := demo_lawful.invMul Fp12.one one_inRange hne
  exact ⟨rfl, demo_lawful, ⟨demo_gt.1, one_inRange, hne, b, hb⟩, demo_gt.2.2.1, by decide +kernel, rfl,
    demo_lawful.invZero⟩

theorem test_witness_GtConstantsAndMove :
    (7 : RegField).toNat < 8 ∧ demo.status.halted = false ∧ (0 : RegField).toNat < 8 ∧
      demo.gv[(0 : RegField).toNat] = true :=
  ⟨by decide, rfl, by decide, demo_gt.1⟩

theorem test_witness_GtQueries :
    (0 : RegField).toNat < 8 ∧ (1 : RegField).toNat < 8 ∧ demo.status.halted = false ∧
      demo.gv[(0 : RegField).toNat] = true ∧ demo.gv[(1 : RegField).toNat] = true :=
  ⟨by decide, by decide, rfl, demo_gt.1, demo_gt.2.1⟩

/-- Which draw comes is free, so no test can say which of the two cases holds. -/
theorem test_witness_GtRandomElement :
    (7 : RegField).toNat < 8 ∧ BaseModulusOk demo.p ∧ demo.status.halted = false ∧ demo.tower.Lawful demo.q demo.p :=
  ⟨by decide, demo_base, rfl, demo_lawful⟩

/-- `demo` with H, a member other than ONE12, in G3. -/
theorem test_witness_SubgroupIsClosed :
    let s := demo.setG 3 Config.memberH
    (7 : RegField).toNat < 8 ∧ (3 : RegField).toNat < 8 ∧ (0 : RegField).toNat < 8 ∧
    ScalarModulusOk s.q ∧ BaseModulusOk s.p ∧ s.tower.Lawful s.q s.p ∧ s.status.halted = false ∧
    (s.gv[(3 : RegField).toNat] = true ∧ s.greg[(3 : RegField).toNat].inRange s.p = true ∧
      s.tower.subg s.greg[(3 : RegField).toNat] = true) ∧
    (s.gv[(0 : RegField).toNat] = true ∧ s.greg[(0 : RegField).toNat].inRange s.p = true ∧
      s.tower.subg s.greg[(0 : RegField).toNat] = true) ∧
    s.sv[sIndex 0] = true ∧ s.platform.gtGen.inRange s.p = true ∧ s.tower.subg s.platform.gtGen = true := by
  have h3 : (demo.setG 3 Config.memberH).greg[(3 : RegField).toNat] = Config.memberH := by decide +kernel
  have h0 : (demo.setG 3 Config.memberH).greg[(0 : RegField).toNat] = Fp12.one := by decide +kernel
  refine ⟨by decide, by decide, by decide, demo_scalar, demo_base, demo_lawful, rfl, ⟨by decide +kernel, ?_, ?_⟩,
    ⟨by decide +kernel, ?_, ?_⟩, ready0.valid, by decide +kernel, test_member⟩
  · rw [h3]; decide +kernel
  · rw [h3]; exact test_member
  · rw [h0]; exact one_inRange
  · rw [h0]; exact subg_one

/-- A last component that is P itself; the components of ONE12, a member; those of ZERO12, no member. -/
theorem test_witness_GtLoads :
    (7 : RegField).toNat < 8 ∧ bufferRange 0 576 576 = .ok 0 ∧
    (let s := buffer 528 (beBytes 48 Config.recommendedP)
     s.status.halted = false ∧ ∃ k < 12, s.p ≤ beSum s.dbuf (0 + 48 * k) 48) ∧
    (demo.status.halted = false ∧ (∀ k < 12, beSum demo.dbuf (0 + 48 * k) 48 < demo.p) ∧
      demo.tower.subg Fp12.one = true) ∧
    (State.reset.status.halted = false ∧ (∀ k < 12, beSum State.reset.dbuf (0 + 48 * k) 48 < State.reset.p) ∧
      State.reset.tower.subg Fp12.zero = false) := by
  simp only [← beNat_readBytes]
  exact ⟨by decide, by decide +kernel, ⟨rfl, 11, by decide +kernel⟩, ⟨rfl, by decide +kernel, subg_one⟩, rfl, by decide +kernel,
    subg_zero⟩

theorem test_witness_GtStore :
    (0 : RegField).toNat < 8 ∧ demo.dbuf.wf = true ∧ demo.status.halted = false ∧
      demo.gv[(0 : RegField).toNat] = true ∧ bufferRange 28 576 576 = .ok 448 ∧
      demo.greg[(0 : RegField).toNat] = Fp12.one :=
  ⟨by decide, demo_gt.2.2.2.2.2.2, rfl, demo_gt.1, by decide +kernel, demo_gt.2.2.2.1⟩

/-- G0 = ONE12 is a member, G2 = ZERO12 is not. -/
theorem test_witness_GtStoreLoadRoundTrip :
    (7 : RegField).toNat < 8 ∧ demo.dbuf.wf = true ∧ demo.status.halted = false ∧ bufferRange 28 576 576 = .ok 448 ∧
    (demo.gv[(0 : RegField).toNat] = true ∧ demo.greg[(0 : RegField).toNat].inRange demo.p = true ∧
      demo.tower.subg demo.greg[(0 : RegField).toNat] = true) ∧
    (demo.gv[(2 : RegField).toNat] = true ∧ demo.greg[(2 : RegField).toNat].inRange demo.p = true ∧
      demo.tower.subg demo.greg[(2 : RegField).toNat] = false) := by
  have h0 : demo.greg[(0 : RegField).toNat] = Fp12.one := demo_gt.2.2.2.1
  have h2 : demo.greg[(2 : RegField).toNat] = Fp12.zero := demo_gt.2.2.2.2.2.1
  rw [h0, h2]
  exact ⟨by decide, demo_gt.2.2.2.2.2.2, rfl, by decide +kernel, ⟨demo_gt.1, one_inRange, subg_one⟩, demo_gt.2.2.1,
    by decide +kernel, subg_zero⟩

/-- G1 = 1 + w has an upper half with an inverse, G0 = ONE12 has not. -/
theorem test_witness_TorusCompression :
    (3 : RegField).toNat < 4 ∧ demo.status.halted = false ∧ demo.tower.Lawful demo.q demo.p ∧
    (demo.gv[(1 : RegField).toNat] = true ∧ demo.greg[(1 : RegField).toNat].inRange demo.p = true ∧
      ∃ i, demo.tower.inv6 demo.greg[(1 : RegField).toNat].hi = some i) ∧
    (demo.gv[(0 : RegField).toNat] = true ∧ demo.tower.inv6 demo.greg[(0 : RegField).toNat].hi = none) := by
  have h0 : demo.greg[(0 : RegField).toNat] = Fp12.one := demo_gt.2.2.2.1
  have h1 : demo.greg[(1 : RegField).toNat] = elt [(0, 1), (6, 1)] := demo_gt.2.2.2.2.1
  rw [h0, h1]
  obtain ⟨i, hi, -⟩ := demo_lawful.inv6Mul (elt [(0, 1), (6, 1)]).hi (by decide +kernel) (by decide +kernel)
  exact ⟨by decide, rfl, demo_lawful, ⟨demo_gt.2.1, by decide +kernel, i, hi⟩, demo_gt.1, demo_lawful.inv6Zero⟩

/-- TH uncompresses to a member and ZERO6 does not (`test_uncompress`, `test_uncompress_zero`); over a modulus that is no
prime, here 1, the inverse can be absent. -/
theorem test_witness_TorusUncompression :
    (7 : RegField).toNat < 8 ∧ (0 : RegField).toNat < 4 ∧ demo.status.halted = false ∧
    demo.tower.Lawful demo.q demo.p ∧ BaseModulusOk demo.p ∧
    (demo.tv[(0 : RegField).toNat] = true ∧ demo.treg[(0 : RegField).toNat].inRange demo.p = true ∧
      uncompress demo.tower demo.p demo.treg[(0 : RegField).toNat] = .ok Config.memberH) ∧
    (demo.tv[(1 : RegField).toNat] = true ∧
      uncompress demo.tower demo.p demo.treg[(1 : RegField).toNat] = .error (.none .notInSubgroup)) ∧
    (let s : State := { demo with platform := { demo.platform with p := 1 } }
     s.status.halted = false ∧ s.tv[(1 : RegField).toNat] = true ∧
       s.tower.inv12 ⟨s.treg[(1 : RegField).toNat], minusOne6 s.p⟩ = none) := by
  have h0 : demo.treg[(0 : RegField).toNat] = th := by decide +kernel
  have h1 : demo.treg[(1 : RegField).toNat] = Fp6.zero := by decide +kernel
  refine ⟨by decide, by decide, rfl, demo_lawful, demo_base, ⟨by decide +kernel, ?_, ?_⟩, ⟨by decide +kernel, ?_⟩, rfl,
    by decide +kernel, by decide +kernel⟩
  · rw [h0]; decide +kernel
  · rw [h0]; exact test_uncompress
  · rw [h1]; exact test_uncompress_zero

theorem test_witness_TorusLoadAndStore :
    (0 : RegField).toNat < 4 ∧ bufferRange 0 288 288 = .ok 0 ∧
    (let s := buffer 240 (leBytes 48 Config.recommendedP)
     s.status.halted = false ∧ ∃ k < 6, s.p ≤ leSum s.dbuf (0 + 48 * k) 48) ∧
    (demo.status.halted = false ∧ ∀ k < 6, leSum demo.dbuf (0 + 48 * k) 48 < demo.p) ∧ demo.dbuf.wf = true ∧
    demo.tv[(0 : RegField).toNat] = true := by
  simp only [← leNat_readBytes]
  exact ⟨by decide, by decide +kernel, ⟨rfl, 5, by decide +kernel⟩, ⟨rfl, by decide +kernel⟩, demo_gt.2.2.2.2.2.2,
    by decide +kernel⟩

/-- H, TH and ONE12 meet the hypotheses of the first three clauses, H in G3 those of the fourth. -/
theorem test_witness_TorusRoundTrip :
    (let tw := recommendedTower Config.recommendedQ Config.recommendedP
     (Config.memberH.inRange Config.recommendedP = true ∧ tw.subg Config.memberH = true ∧
       Config.memberH.hi ≠ Fp6.zero) ∧
     (th.inRange Config.recommendedP = true ∧ th ≠ Fp6.zero ∧
       uncompress tw Config.recommendedP th = .ok Config.memberH) ∧
     (Fp12.one.inRange Config.recommendedP = true ∧ tw.subg Fp12.one = true)) ∧
    (let s := demo.setG 3 Config.memberH
     (3 : RegField).toNat < 4 ∧ (7 : RegField).toNat < 8 ∧ s.tower.AllLaws s.q s.p ∧ s.status.halted = false ∧
       s.gv[(3 : RegField).toNat] = true ∧ s.greg[(3 : RegField).toNat] = Config.memberH) :=
  ⟨⟨⟨by decide +kernel, test_member, by decide +kernel⟩, ⟨by decide +kernel, by decide +kernel, test_uncompress⟩,
    one_inRange, subg_one⟩, by decide, by decide, recommendedTower_allLaws, rfl, by decide +kernel, by decide +kernel⟩

/-- A pending command with an access that must wait, with a read of ID and of STATUS, and no pending command with a write
to CMD; the first and the last address of the window; and states in which an access waits, with and without a pending
command. -/
theorem test_witness_HoldRuleAndAcceptance :
    let at_ (a : Access) (p : Option Word) (h : List Access) : State :=
      { demo with pend := p, held := h, inputs := [.access a] }
    (∀ a ∈ [Access.read 0x000 .byte, .read 0x00C .word, .write 0x008 .word 2, .read 0x7FF .byte],
      (at_ a (some 0) []).inputs = [.access a] ∧ (at_ a (some 0) []).held = [] ∧ (at_ a (some 0) []).rstN = true ∧
        baseOf (at_ a (some 0) []).platform ≤ a.addr ∧ a.addr < baseOf (at_ a (some 0) []).platform + 0x800 ∧
        (at_ a (some 0) []).busy = true ∧ (at_ a (some 0) []).holds a = true) ∧
    (∀ a ∈ [Access.read 0x000 .word, .read 0x008 .word],
      (at_ a (some 0) []).busy = true ∧ (at_ a (some 0) []).holds a = false) ∧
    (at_ (.write 0x010 .word 5) none []).busy = false ∧ 0x010 % 0x800 = 0x010 ∧
    ((at_ (.read 0x008 .word) (some 0) [.read 0x00C .word]).busy = true ∧
      (at_ (.read 0x008 .word) (some 0) [.read 0x00C .word]).held = .read 0x00C .word :: [] ∧
      (at_ (.read 0x008 .word) (some 0) [.read 0x00C .word]).mustWait (.read 0x00C .word) = true) ∧
    ((at_ (.read 0x008 .word) none [.read 0x00C .word]).mustWait (.read 0x00C .word) = false ∧
      (at_ (.read 0x008 .word) none [.read 0x00C .word]).held = .read 0x00C .word :: []) ∧
    (∀ a ∈ [Access.read 0x000 .word, .read 0x008 .word],
      (at_ (.read 0x00C .word) (some 0) [a]).busy = true ∧ (at_ (.read 0x00C .word) (some 0) [a]).held = a :: [] ∧
        (at_ (.read 0x00C .word) (some 0) [a]).mustWait a = false) ∧
    ({ demo with pend := some 0, inputs := [.idle] } : State).busy = true := by
  decide +kernel

theorem test_witness_StatusRegister :
    (∀ addr ∈ [0x000, 0x004, 0x008, 0x00C, 0x010],
      demo.addressed (.read addr .word) = true ∧ demo.addressed (.write addr .word 0x1A) = true ∧
        addr % 0x800 = addr) := by
  decide +kernel

theorem test_witness_ControlAndReset :
    (demo.addressed (.write 0x004 .word 1) = true ∧ 0x004 % 0x800 = 0x004 ∧ (1 : Word).getLsbD 1 = false) ∧
    (demo.addressed (.write 0x004 .word 3) = true ∧ (3 : Word).getLsbD 1 = true) ∧
    ({ demo with inputs := [.rstN false] } : State).inputs = .rstN false :: [] ∧
    (let s : State := { demo.setRstN false with inputs := [.rstN true] }
     s.inputs = .rstN true :: [] ∧ s.rstN = false) ∧
    (let s : State := { demo with inputs := [.rstN true] }
     s.inputs = .rstN true :: [] ∧ s.rstN = true) := by
  decide +kernel

/-- The ends of the reserved range, a misaligned register and a misaligned byte pair. -/
theorem test_witness_BusErrorsChangeNothing :
    (∀ a ∈ [Access.read 0x013 .word, .write 0x000 .half 1, .read 0x010 .byte],
      demo.addressed a = true ∧ a.addr % 0x800 < 0x014 ∧ (a.width ≠ .word ∨ a.addr % 4 ≠ 0)) ∧
    (∀ a ∈ [Access.read 0x014 .word, .write 0x3FF .byte 1],
      demo.addressed a = true ∧ 0x014 ≤ a.addr % 0x800 ∧ a.addr % 0x800 < 0x400) ∧
    (∀ a ∈ [Access.read 0x401 .half, .write 0x7FE .word 1],
      demo.addressed a = true ∧ 0x400 ≤ a.addr % 0x800 ∧ a.addr % a.width.bytes ≠ 0) := by
  decide +kernel

/-- The first and the last byte of DBUF, and its last word. -/
theorem test_witness_HostBufferAccesses :
    demo.dbuf.wf = true ∧
    ∀ p ∈ [(0x400, Width.byte), (0x7FF, Width.byte), (0x7FC, Width.word)],
      0x400 ≤ p.1 % 0x800 ∧ p.1 % p.2.bytes = 0 ∧ demo.addressed (.write p.1 p.2 0x04030201) = true ∧
        demo.addressed (.read p.1 p.2) = true := by
  decide +kernel

/-- The largest operands. -/
theorem test_witness_LimbAlgorithmsComputeMontgomery :
    ScalarModulusOk Config.recommendedQ ∧ 2 ^ 256 - 1 < 2 ^ 256 ∧ Config.recommendedQ - 1 < Config.recommendedQ ∧
      Config.recommendedQ * 2 ^ 256 - 1 < Config.recommendedQ * 2 ^ 256 :=
  ⟨recommendedQ_ok, by decide +kernel⟩

theorem test_witness_ConversionsAndWideReduction :
    ScalarModulusOk Config.recommendedQ ∧ Config.recommendedQ - 1 < Config.recommendedQ ∧ 0 < Config.recommendedQ :=
  ⟨recommendedQ_ok, by decide +kernel⟩

end Sys2Proof.Tests
end

section
/-! SUPPORT. The refusals of 30_encoding.md: the opcode map as a lookup (R128, R129), the reserved bits of a word as
fields (R127), the range check of register fields (R125), and the completion with an error that they share. -/

namespace Sys2Proof

/-! ### The opcode map -/

theorem opField_toNat (w : Word) : (opField w).toNat = w.toNat / 2 ^ 24 := by
  have hw := w.isLt
  rw [opField, BitVec.extractLsb'_toNat, Nat.shiftRight_eq_div_pow]
  omega

/-- The complement of the opcode map, by a search through the 256 values of OP. -/
theorem opRow_eq_none_iff (op : BitVec 8) :
    opRow op = none ↔
      (0x01 ≤ op.toNat ∧ op.toNat ≤ 0x0F) ∨ (0x1D ≤ op.toNat ∧ op.toNat ≤ 0x1F) ∨
      (0x2A ≤ op.toNat ∧ op.toNat ≤ 0x2F) ∨ (0x37 ≤ op.toNat ∧ op.toNat ≤ 0x3F) ∨
      (0x4D ≤ op.toNat ∧ op.toNat ≤ 0x4F) ∨ (0x57 ≤ op.toNat ∧ op.toNat ≤ 0xFF) := by
  rw [← Option.isNone_iff_eq_none]
  revert op
  decide +kernel

theorem opRows_op_nodup : (opRows.map OpRow.op).Nodup := by decide

theorem opRow_of_mem {row : OpRow} (hrow : row ∈ opRows) : opRow row.op = some row := by
  cases hfound : opRow row.op with
  | none => exact absurd (List.find?_eq_none.1 hfound row hrow) (by simp)
  | some found =>
    have hop : found.op = row.op := by simpa using List.find?_some hfound
    rw [List.inj_on_of_nodup_map opRows_op_nodup (List.mem_of_find?_eq_some hfound) hrow hop]

/-! ### What a word is refused for -/

theorem decodeWord_eq_illegalOpcode_iff (w : Word) :
    decodeWord w = .error .illegalOpcode ↔ opRow (opField w) = none := by
  rw [decodeWord]
  cases opRow (opField w) with
  | none => simp
  | some row =>
    dsimp only
    split <;> simp

theorem decodeWord_eq_reservedField_iff {row : OpRow} (hrow : row ∈ opRows) {w : Word} (hop : opField w = row.op) :
    decodeWord w = .error .reservedField ↔ ¬ w &&& row.zeroMask = 0 := by
  rw [decodeWord, hop, opRow_of_mem hrow]
  dsimp only
  split
  next h => simp only [h, reduceCtorEq, not_true]
  next h => simp only [h, not_false_eq_true]

/-! ### Reserved bits as fields -/

/-- A mask of `len` bits from bit `start` finds zero exactly where that field is zero. -/
theorem and_eq_zero_iff_field (w mask : Word) (start len : Nat)
    (hmask : ∀ i : Fin 32, mask.getLsbD i = decide (start ≤ i ∧ i < start + len)) (hfit : start + len ≤ 32) :
    w &&& mask = 0 ↔ w.extractLsb' start len = 0 := by
  constructor
  · intro h
    refine BitVec.eq_of_getLsbD_eq fun j hj => ?_
    have hbit : (w &&& mask).getLsbD (start + j) = false := by rw [h]; exact BitVec.getLsbD_zero
    have hin : mask.getLsbD (start + j) = true := by
      rw [hmask ⟨start + j, by omega⟩]
      exact decide_eq_true ⟨by simp, by simpa using hj⟩
    rw [BitVec.getLsbD_and, hin, Bool.and_true] at hbit
    rw [BitVec.getLsbD_extractLsb', hbit, Bool.and_false]
    exact BitVec.getLsbD_zero.symm
  · intro h
    refine BitVec.eq_of_getLsbD_eq fun i hi => ?_
    refine Eq.trans ?_ BitVec.getLsbD_zero.symm
    rw [BitVec.getLsbD_and, hmask ⟨i, hi⟩]
    by_cases hr : start ≤ i ∧ i < start + len
    · have hbit : (w.extractLsb' start len).getLsbD (i - start) = false := by rw [h]; exact BitVec.getLsbD_zero
      rw [BitVec.getLsbD_extractLsb', decide_eq_true (by omega), Bool.true_and, Nat.add_sub_cancel' hr.1] at hbit
      rw [hbit, Bool.false_and]
    · rw [decide_eq_false hr, Bool.and_false]

theorem and_or_eq_zero_iff (w m m' : Word) : w &&& (m ||| m') = 0 ↔ w &&& m = 0 ∧ w &&& m' = 0 := by
  rw [BitVec.and_or_distrib_left]
  exact BitVec.or_eq_zero_iff

/-- A register field must be zero only where the row leaves it unused (30_encoding.md R127). -/
theorem FieldClass.and_zeroMask_eq_zero_iff (c : FieldClass) (w mask : Word) :
    w &&& c.zeroMask mask = 0 ↔ (c = .unused → w &&& mask = 0) := by
  cases c <;> simp [FieldClass.zeroMask]

section

variable {row : OpRow} (w : Word)

theorem OpRow.and_zeroMask_of_n (hf : row.format = .n) :
    w &&& row.zeroMask = 0 ↔ w.extractLsb' 0 24 = 0 := by
  rw [OpRow.zeroMask, hf]
  exact and_eq_zero_iff_field w 0x00FFFFFF 0 24 (by decide) (by decide)

theorem OpRow.and_zeroMask_of_r (hf : row.format = .r) :
    w &&& row.zeroMask = 0 ↔
      w.extractLsb' 0 12 = 0 ∧ (row.d = .unused → w.extractLsb' 20 4 = 0) ∧
        (row.a = .unused → w.extractLsb' 16 4 = 0) ∧ (row.b = .unused → w.extractLsb' 12 4 = 0) := by
  rw [OpRow.zeroMask, hf]
  simp only [and_or_eq_zero_iff, FieldClass.and_zeroMask_eq_zero_iff, and_assoc,
    and_eq_zero_iff_field w 0x00000FFF 0 12 (by decide) (by decide),
    and_eq_zero_iff_field w 0x00F00000 20 4 (by decide) (by decide),
    and_eq_zero_iff_field w 0x000F0000 16 4 (by decide) (by decide),
    and_eq_zero_iff_field w 0x0000F000 12 4 (by decide) (by decide)]

theorem OpRow.and_zeroMask_of_i12 (hf : row.format = .i12) :
    w &&& row.zeroMask = 0 ↔ w.extractLsb' 12 4 = 0 := by
  rw [OpRow.zeroMask, hf]
  exact and_eq_zero_iff_field w 0x0000F000 12 4 (by decide) (by decide)

theorem OpRow.and_zeroMask_of_i16 (hf : row.format = .i16) :
    w &&& row.zeroMask = 0 ↔ w.extractLsb' 16 4 = 0 := by
  rw [OpRow.zeroMask, hf]
  exact and_eq_zero_iff_field w 0x000F0000 16 4 (by decide) (by decide)

theorem OpRow.and_zeroMask_of_m (hf : row.format = .m) :
    w &&& row.zeroMask = 0 ↔ w.extractLsb' 18 2 = 0 := by
  rw [OpRow.zeroMask, hf]
  exact and_eq_zero_iff_field w 0x000C0000 18 2 (by decide) (by decide)

end

end Sys2Proof

namespace Sys2Proof.Machine

/-! ### Completion with an error -/

/-- Every error but DIV_BY_ZERO leaves HALTED as it was (60_exceptions.md R333, R343). -/
theorem State.complete_endsError (s : State) {e : ErrorCode} (he : e ≠ .divByZero) :
    EndsError s (s.complete (some (.error e))) e.code := by
  have hhalted : (s.status.halted || e == .divByZero) = s.status.halted := by simp [he]
  refine ⟨⟨?_, rfl⟩, s.complete_onlyStatus _⟩
  rw [State.complete, Status.update_error, hhalted]

/-- A word that is no command completes with the error that the decoder names. -/
theorem runWord_of_decode_error {w : Word} {s : State} {e : DecodeError} (hs : s.status.halted = false)
    (hw : decodeWord w = .error e) : runWord w s = .next (s.complete (some (.error (DecodeError.code e)))) := by
  rw [runWord, hw]
  exact runCommand_of_error hs rfl

theorem DecodeError.code_ne_divByZero (e : DecodeError) : DecodeError.code e ≠ .divByZero := by
  cases e <;> decide

theorem runWord_endsError {w : Word} {s : State} {e : DecodeError} (hs : s.status.halted = false)
    (hw : decodeWord w = .error e) : ∃ t, runWord w s = .next t ∧ EndsError s t (DecodeError.code e).code :=
  ⟨_, runWord_of_decode_error hs hw, s.complete_endsError (DecodeError.code_ne_divByZero e)⟩

/-! ### Register fields out of range

The range checks come before everything else a rule does, so a rule of range checks fails with BAD_REGISTER wherever one
of its fields is out of range: either the first check fails, or it is the rest that does. -/

/-- A result of a rule, or of a part of one, that is BAD_REGISTER. -/
abbrev BadRegister {α : Type} (x : Except Stop α) : Prop := x = .error (.error .badRegister)

theorem gIndex_bind_bad {α : Type} {f : RegField} {rest : Fin 8 → Except Stop α}
    (h : gField f = true → ∀ i, BadRegister (rest i)) : BadRegister (gIndex f >>= rest) := by
  by_cases hf : f.toNat < 8
  · rw [BadRegister, gIndex_ok hf]
    exact h (decide_eq_true hf) _
  · rw [BadRegister, gIndex_bad (by omega)]
    rfl

theorem tIndex_bind_bad {α : Type} {f : RegField} {rest : Fin 4 → Except Stop α}
    (h : tField f = true → ∀ i, BadRegister (rest i)) : BadRegister (tIndex f >>= rest) := by
  by_cases hf : f.toNat < 4
  · rw [BadRegister, tIndex_ok hf]
    exact h (decide_eq_true hf) _
  · rw [BadRegister, tIndex_bad (by omega)]
    rfl

/-! One lemma for each list of range checks that a command begins with. -/

section

variable {s : State} (hs : s.status.halted = false) {d a b : RegField}
include hs

theorem runCommand_bad_g {rest : State → Fin 8 → Except Stop State} (h : gField d = false) :
    runCommand (fun s => gIndex d >>= rest s) s = .next (s.complete (some (.error .badRegister))) :=
  runCommand_of_error hs (gIndex_bind_bad fun hd => by simp [hd] at h)

theorem runCommand_bad_t {rest : State → Fin 4 → Except Stop State} (h : tField d = false) :
    runCommand (fun s => tIndex d >>= rest s) s = .next (s.complete (some (.error .badRegister))) :=
  runCommand_of_error hs (tIndex_bind_bad fun hd => by simp [hd] at h)

theorem runCommand_bad_gg {rest : State → Fin 8 → Fin 8 → Except Stop State} (h : (gField d && gField a) = false) :
    runCommand (fun s => gIndex d >>= fun i => gIndex a >>= rest s i) s =
      .next (s.complete (some (.error .badRegister))) :=
  runCommand_of_error hs (gIndex_bind_bad fun hd _ => gIndex_bind_bad fun ha => by simp [hd, ha] at h)

theorem runCommand_bad_tg {rest : State → Fin 4 → Fin 8 → Except Stop State} (h : (tField d && gField a) = false) :
    runCommand (fun s => tIndex d >>= fun i => gIndex a >>= rest s i) s =
      .next (s.complete (some (.error .badRegister))) :=
  runCommand_of_error hs (tIndex_bind_bad fun hd _ => gIndex_bind_bad fun ha => by simp [hd, ha] at h)

theorem runCommand_bad_gt {rest : State → Fin 8 → Fin 4 → Except Stop State} (h : (gField d && tField a) = false) :
    runCommand (fun s => gIndex d >>= fun i => tIndex a >>= rest s i) s =
      .next (s.complete (some (.error .badRegister))) :=
  runCommand_of_error hs (gIndex_bind_bad fun hd _ => tIndex_bind_bad fun ha => by simp [hd, ha] at h)

theorem runCommand_bad_ggg {rest : State → Fin 8 → Fin 8 → Fin 8 → Except Stop State}
    (h : (gField d && gField a && gField b) = false) :
    runCommand (fun s => gIndex d >>= fun i => gIndex a >>= fun j => gIndex b >>= rest s i j) s =
      .next (s.complete (some (.error .badRegister))) :=
  runCommand_of_error hs (gIndex_bind_bad fun hd _ => gIndex_bind_bad fun ha _ => gIndex_bind_bad fun hb => by
    simp [hd, ha, hb] at h)

end

/-- GRAND is no `runCommand`, since a round may leave it pending; its range check stops it as every other's does. -/
theorem execGrand_of_bad {d : RegField} {s : State} (hs : s.status.halted = false) (h : gField d = false) :
    execGrand d s = .next (s.complete (some (.error .badRegister))) := by
  have hd : 8 ≤ d.toNat := Nat.le_of_not_lt (of_decide_eq_false h)
  rw [execGrand, if_neg (by simp [hs]), gIndex_bad hd]

/-- Check 4 of 60_exceptions.md R334, for every command. The commands on scalars alone have no field that can be out of
range. -/
theorem exec_of_not_wellFormed {i : Instr} {s : State} (hs : s.status.halted = false) (hi : i.wellFormed = false) :
    exec i s = .next (s.complete (some (.error .badRegister))) := by
  cases i with
  | gadd d a b => rw [exec]; exact runCommand_bad_ggg hs hi
  | gsub d a b => rw [exec]; exact runCommand_bad_ggg hs hi
  | gneg d a => rw [exec]; exact runCommand_bad_gg hs hi
  | gdbl d a => rw [exec]; exact runCommand_bad_gg hs hi
  | gsmul d a b => rw [exec]; exact runCommand_bad_gg hs hi
  | ginv d a => rw [exec]; exact runCommand_bad_gg hs hi
  | gone d => rw [exec]; exact runCommand_bad_g hs hi
  | ggen d => rw [exec]; exact runCommand_bad_g hs hi
  | grand d => rw [exec]; exact execGrand_of_bad hs hi
  | gisid a => rw [exec]; exact runCommand_bad_g hs hi
  | geq a b => rw [exec]; exact runCommand_bad_gg hs hi
  | gsubg a => rw [exec]; exact runCommand_bad_g hs hi
  | gmov d a => rw [exec]; exact runCommand_bad_gg hs hi
  | gld r off len => rw [exec]; exact runCommand_bad_g hs hi
  | gldu r off len => rw [exec]; exact runCommand_bad_g hs hi
  | gst r off len => rw [exec]; exact runCommand_bad_g hs hi
  | gcmpr d a => rw [exec]; exact runCommand_bad_tg hs hi
  | guncmpr d a => rw [exec]; exact runCommand_bad_gt hs hi
  | tld r off len => rw [exec]; exact runCommand_bad_t hs hi
  | tst r off len => rw [exec]; exact runCommand_bad_t hs hi
  | _ => cases hi

/-! ### The statements -/

/-- Settles O3: a word is ILLEGAL_OPCODE exactly where its OP has no row in the opcode map. -/
theorem unassignedOpcodesAreIllegal : Obligations.UnassignedOpcodesAreIllegal := by
  refine ⟨rfl, fun w => ⟨?_, fun s hs hw => runWord_endsError hs hw⟩⟩
  rw [decodeWord_eq_illegalOpcode_iff, opRow_eq_none_iff, opField_toNat]

/-- Settles O4: the row's mask finds a bit exactly where one of the fields that it covers is nonzero. -/
theorem nonzeroReservedFieldIsRefused : Obligations.NonzeroReservedFieldIsRefused := by
  refine fun row hrow w hop => ⟨?_, fun s hs hw => runWord_endsError hs hw⟩
  rw [decodeWord_eq_reservedField_iff hrow hop]
  split
  next hf => rw [OpRow.and_zeroMask_of_n w hf]
  next hf =>
    rw [OpRow.and_zeroMask_of_r w hf]
    simp only [not_and_or, Classical.not_imp, ne_eq]
  next hf => rw [OpRow.and_zeroMask_of_i12 w hf]
  next hf => rw [OpRow.and_zeroMask_of_i16 w hf]
  next hf => rw [OpRow.and_zeroMask_of_m w hf]

/-- Settles O10: a command with a register field out of range stops at check 4, before it reads anything. -/
theorem registerOutOfRangeIsBad : Obligations.RegisterOutOfRangeIsBad :=
  fun _ s hs hi => ⟨_, exec_of_not_wellFormed hs hi, s.complete_endsError (by decide)⟩

end Sys2Proof.Machine
end

section
/-! SUPPORT. The scalar codec of 42_scalar_codec.md: what each load and each store leaves when its checks pass, and the
round trips of R245 between them. -/

namespace Sys2Proof.Machine

/-! ### Byte ranges -/

/-- Storing a range's own bytes changes nothing. -/
theorem Memory.read_writeBytes_readBytes {m : Memory} {off n : Nat} (hm : m.wf = true) (hb : off + n ≤ dbufSize)
    (a : Nat) : Memory.read (Memory.writeBytes m off (Memory.readBytes m off n)) a = Memory.read m a := by
  have hlen := Memory.length_readBytes m off n
  by_cases ha : a < off ∨ off + n ≤ a
  · exact Memory.read_writeBytes_outside _ m off (by rwa [hlen])
  · obtain ⟨k, rfl⟩ := Nat.exists_eq_add_of_le (show off ≤ a by omega)
    have hk : k < (Memory.readBytes m off n).length := by omega
    rw [Memory.read_writeBytes_inside _ off k hk (by rwa [hlen]) hm, Memory.getElem_readBytes]

/-- A stored range reads back. -/
theorem Memory.readBytes_writeBytes {m : Memory} {off : Nat} {bs : List Byte} (hm : m.wf = true)
    (hb : off + bs.length ≤ dbufSize) : Memory.readBytes (Memory.writeBytes m off bs) off bs.length = bs :=
  Memory.readBytes_eq fun k hk => Memory.read_writeBytes_inside bs off k hk hb hm

theorem leBytes_leSum (m : Memory) (off n : Nat) : leBytes n (leSum m off n) = Memory.readBytes m off n := by
  have h := leBytes_leNat (Memory.readBytes m off n)
  rwa [Memory.length_readBytes, leNat_readBytes] at h

theorem beBytes_beSum (m : Memory) (off n : Nat) : beBytes n (beSum m off n) = Memory.readBytes m off n := by
  have h := beBytes_beNat (Memory.readBytes m off n)
  rwa [Memory.length_readBytes, beNat_readBytes] at h

theorem leSum_writeBytes_leBytes {m : Memory} {off n x : Nat} (hm : m.wf = true) (hb : off + n ≤ dbufSize)
    (hx : x < 256 ^ n) : leSum (Memory.writeBytes m off (leBytes n x)) off n = x := by
  have hlen := length_leBytes n x
  have h := Memory.readBytes_writeBytes (bs := leBytes n x) hm (by rwa [hlen])
  rw [hlen] at h
  rw [← leNat_readBytes, h, leNat_leBytes, Nat.mod_eq_of_lt hx]

/-- Zero bytes at the top do not count. -/
theorem leSum_eq_of_zero_tail {m : Memory} {off n w : Nat} (hnw : n ≤ w)
    (hz : ∀ k, n ≤ k → k < w → Memory.read m (off + k) = 0) : leSum m off w = leSum m off n := by
  refine (Finset.sum_subset (Finset.range_subset_range.2 hnw) fun k hk hkn => ?_).symm
  rw [hz k (by simpa using hkn) (Finset.mem_range.1 hk)]
  exact Nat.zero_mul _

/-! ### Registers -/

theorem lt_bytes_of_lt_modulus {q x : Nat} (h : ScalarModulusOk q) (hx : x < q) : x < 256 ^ 32 :=
  lt_trans hx (lt_of_lt_of_eq h.lt_container (by norm_num))

theorem State.writeScalar_valid (s : State) (i : Fin 16) (x : Nat) : (s.writeScalar i x).sv[i] = true :=
  Vector.getElem_set_self _

/-- A scalar that was written has the canonical value that was written (10_state.md R41). -/
theorem State.canonical_writeScalar {s : State} (hq : ScalarModulusOk s.q) (i : Fin 16) {x : Nat} (hx : x < s.q) :
    (s.writeScalar i x).canonical i = x := by
  have hreg : (s.writeScalar i x).sreg[i] = BitVec.ofNat 256 (res s.q x) := Vector.getElem_set_self _
  rw [State.canonical, State.writeScalar_q, hreg, toNat_ofNat_lt hq (res_lt hq x), val_res hq, Nat.mod_eq_of_lt hx]

@[simp] theorem State.canonical_complete (s : State) (out : Option Stop) (i : Fin 16) :
    (s.complete out).canonical i = s.canonical i := rfl

/-- Writing a register's own canonical value into it changes no scalar register. -/
theorem sameScalars_writeScalar_canonical {s : State} (hq : ScalarModulusOk s.q) {i : Fin 16} (hi : ReadyS s i) :
    SameScalars s (s.writeScalar i (s.canonical i)) [] := by
  have hres : res s.q (s.canonical i) = s.sreg[i].toNat := res_val hq hi.residue
  intro j _
  by_cases hj : j = i
  · subst hj
    have hreg : (s.writeScalar j (s.canonical j)).sreg[j] = BitVec.ofNat 256 (res s.q (s.canonical j)) :=
      Vector.getElem_set_self _
    rw [hreg, hres, BitVec.ofNat_toNat, BitVec.setWidth_eq, State.writeScalar_valid, hi.valid]
    exact ⟨rfl, rfl⟩
  · exact sameScalars_set s i _ j (by simpa using hj)

/-- The frame on scalars speaks of the residues and valid bits only. -/
theorem SameScalars.of_eq {s t u : State} {but : List (Fin 16)} (h : SameScalars s t but) (hreg : u.sreg = t.sreg)
    (hsv : u.sv = t.sv) : SameScalars s u but := by
  intro j hj
  rw [hreg, hsv]
  exact h j hj

/-! ### The commands where their checks pass -/

section

variable {s : State} {r : RegField} {off : BitVec 6} {len : BitVec 12} {o : Nat} (hs : s.status.halted = false)
include hs

theorem exec_sldle_ok (ho : bufferRange off len 32 = .ok o) (hx : leSum s.dbuf o 32 < s.q) :
    exec (.sldle r off len) s = .next ((s.writeScalar (sIndex r) (leSum s.dbuf o 32)).complete none) := by
  rw [exec, execSldle]
  refine runCommand_of_ok hs (bind_eq_ok.2 ⟨o, ho, ?_⟩)
  rw [leNat_readBytes, if_neg (Nat.not_le.2 hx)]
  rfl

theorem exec_sldbe_ok (ho : bufferRange off len 32 = .ok o) (hx : beSum s.dbuf o 32 < s.q) :
    exec (.sldbe r off len) s = .next ((s.writeScalar (sIndex r) (beSum s.dbuf o 32)).complete none) := by
  rw [exec, execSldbe]
  refine runCommand_of_ok hs (bind_eq_ok.2 ⟨o, ho, ?_⟩)
  rw [beNat_readBytes, if_neg (Nat.not_le.2 hx)]
  rfl

theorem exec_sstle_ok (ho : bufferRange off len 32 = .ok o) (hv : s.sv[sIndex r] = true) :
    exec (.sstle r off len) s = .next ((s.store o (leBytes 32 (s.canonical (sIndex r)))).complete none) := by
  rw [exec, execSstle]
  exact runCommand_of_ok hs (bind_eq_ok.2 ⟨_, State.scalar_ok hv, bind_eq_ok.2 ⟨o, ho, rfl⟩⟩)

theorem exec_sstbe_ok (ho : bufferRange off len 32 = .ok o) (hv : s.sv[sIndex r] = true) :
    exec (.sstbe r off len) s = .next ((s.store o (beBytes 32 (s.canonical (sIndex r)))).complete none) := by
  rw [exec, execSstbe]
  exact runCommand_of_ok hs (bind_eq_ok.2 ⟨_, State.scalar_ok hv, bind_eq_ok.2 ⟨o, ho, rfl⟩⟩)

/-- Convert-in reduces, so SLDRAW writes the integer modulo Q (42_scalar_codec.md R240, R241). -/
theorem exec_sldraw_ok (hq : ScalarModulusOk s.q) (ho : bufferRange off len 32 = .ok o) :
    exec (.sldraw r off len) s = .next ((s.writeScalar (sIndex r) (leSum s.dbuf o 32 % s.q)).complete none) := by
  rw [exec, execSldraw, writeScalar_eq, ← convertIn_eq_res hq, ← leNat_readBytes]
  exact runCommand_of_ok hs (bind_eq_ok.2 ⟨o, ho, rfl⟩)

theorem exec_sldwide_ok (ho : bufferRange off len 64 = .ok o) :
    exec (.sldwide r off len) s = .next ((s.writeScalar (sIndex r) (leSum s.dbuf o 64 % s.q)).complete none) := by
  rw [exec, execSldwide, ← leNat_readBytes]
  exact runCommand_of_ok hs (bind_eq_ok.2 ⟨o, ho, rfl⟩)

end

/-! ### The laws of R245 -/

section

variable {s : State} {r : RegField} {off : BitVec 6} {len : BitVec 12} {o : Nat}

/-- A command that stores the bytes that a range holds already leaves DBUF as it was. -/
theorem sameBuffer_store_readBytes (s' : State) (hm : s.dbuf.wf = true) (hdbuf : s'.dbuf = s.dbuf) {n : Nat}
    (hb : o + n ≤ dbufSize) : SameBuffer s ((s'.store o (Memory.readBytes s.dbuf o n)).complete none) := by
  intro a
  rw [State.complete_dbuf, State.store_dbuf, hdbuf]
  exact Memory.read_writeBytes_readBytes hm hb a

variable (hq : ScalarModulusOk s.q) (hs : s.status.halted = false) (ho : bufferRange off len 32 = .ok o)
include hq hs ho

/-- Law (a): SSTLE after SLDLE writes back the bytes that were loaded. -/
theorem sldle_sstle_sameBuffer (hm : s.dbuf.wf = true) (hx : leSum s.dbuf o 32 < s.q) :
    ∃ t u, exec (.sldle r off len) s = .next t ∧ exec (.sstle r off len) t = .next u ∧ DoneOk t u ∧
      SameBuffer s u := by
  refine ⟨_, _, exec_sldle_ok hs ho hx, exec_sstle_ok hs ho (s.writeScalar_valid _ (leSum s.dbuf o 32)),
    ⟨rfl, rfl⟩, ?_⟩
  rw [State.canonical_complete, State.canonical_writeScalar hq _ hx, leBytes_leSum]
  exact sameBuffer_store_readBytes _ hm rfl (bufferRange_bound ho)

/-- Law (b): the same for the big-endian pair. -/
theorem sldbe_sstbe_sameBuffer (hm : s.dbuf.wf = true) (hx : beSum s.dbuf o 32 < s.q) :
    ∃ t u, exec (.sldbe r off len) s = .next t ∧ exec (.sstbe r off len) t = .next u ∧ DoneOk t u ∧
      SameBuffer s u := by
  refine ⟨_, _, exec_sldbe_ok hs ho hx, exec_sstbe_ok hs ho (s.writeScalar_valid _ (beSum s.dbuf o 32)),
    ⟨rfl, rfl⟩, ?_⟩
  rw [State.canonical_complete, State.canonical_writeScalar hq _ hx, beBytes_beSum]
  exact sameBuffer_store_readBytes _ hm rfl (bufferRange_bound ho)

/-- Law (c): SLDLE after SSTLE returns the register's residue. -/
theorem sstle_sldle_sameScalars (hm : s.dbuf.wf = true) (hr : ReadyS s (sIndex r)) :
    ∃ t u, exec (.sstle r off len) s = .next t ∧ exec (.sldle r off len) t = .next u ∧ DoneOk t u ∧
      SameScalars s u [] := by
  have hlt : s.canonical (sIndex r) < s.q := val_lt hq _
  have hsum : leSum ((s.store o (leBytes 32 (s.canonical (sIndex r)))).complete none).dbuf o 32 =
      s.canonical (sIndex r) := by
    rw [State.complete_dbuf, State.store_dbuf]
    exact leSum_writeBytes_leBytes hm (bufferRange_bound ho) (lt_bytes_of_lt_modulus hq hlt)
  refine ⟨_, _, exec_sstle_ok hs ho hr.valid, exec_sldle_ok hs ho ?_, ⟨rfl, rfl⟩, ?_⟩
  · rwa [hsum, State.complete_q, State.store_q]
  · rw [hsum]
    exact (sameScalars_writeScalar_canonical hq hr).of_eq (by simp) (by simp)

/-- Law (d): below Q there is nothing to reduce. -/
theorem sldle_eq_sldraw (hx : leSum s.dbuf o 32 < s.q) : exec (.sldle r off len) s = exec (.sldraw r off len) s := by
  rw [exec_sldle_ok hs ho hx, exec_sldraw_ok hs hq ho, Nat.mod_eq_of_lt hx]

/-- Law (e), on any 64-byte range whose upper 32 bytes are zero. -/
theorem sldwide_eq_sldraw {wide : BitVec 12} (hw : bufferRange off wide 64 = .ok o)
    (hz : ∀ k, 32 ≤ k → k < 64 → Memory.read s.dbuf (o + k) = 0) :
    exec (.sldwide r off wide) s = exec (.sldraw r off len) s := by
  rw [exec_sldwide_ok hs hw, exec_sldraw_ok hs hq ho, leSum_eq_of_zero_tail (by decide) hz]

end

/-- Settles O37: in (a) to (c) the second command meets what the first one wrote; in (d) and (e) both loads are one write
of the same integer. -/
theorem scalarCodecRoundTrips : Obligations.ScalarCodecRoundTrips := by
  intro s r off len o hq hm hs ho
  refine ⟨sldle_sstle_sameBuffer hq hs ho hm, sldbe_sstbe_sameBuffer hq hs ho hm,
    sstle_sldle_sameScalars hq hs ho hm, fun hx => ?_, fun wide hw hz => ?_⟩
  · exact ⟨_, _, exec_sldle_ok hs ho hx, (sldle_eq_sldraw hq hs ho hx).symm.trans (exec_sldle_ok hs ho hx), rfl⟩
  · have hraw := exec_sldraw_ok (r := r) hs hq ho
    exact ⟨_, _, (sldwide_eq_sldraw hq hs ho hw hz).trans hraw, hraw, rfl⟩

end Sys2Proof.Machine
end

section
/-! SUPPORT. The exceptions of 60_exceptions.md: the halted block (R344), the length and bounds checks (R337 to R339) and
what an outcome other than ok leaves (R341). Every word but a GRAND is one `runCommand`, so what holds of `runCommand`
holds of the word. -/

namespace Sys2Proof.Machine

/-! ### Words as rules -/

/-- GRAND is the one command that is no `runCommand`, since a round may leave it pending (43_gt_group.md R280). -/
theorem exec_eq_runCommand_or_grand (i : Instr) :
    (∃ rule, ∀ s, exec i s = runCommand rule s) ∨ ∃ d, i = .grand d := by
  cases i with
  | grand d => exact .inr ⟨d, rfl⟩
  | _ => exact .inl ⟨_, fun _ => rfl⟩

theorem runWord_of_decode_ok {w : Word} {i : Instr} (hw : decodeWord w = .ok i) (s : State) :
    runWord w s = exec i s := by
  rw [runWord, hw]

theorem runWord_eq_runCommand_or_grand (w : Word) :
    (∃ rule, ∀ s, runWord w s = runCommand rule s) ∨ ∃ d, decodeWord w = .ok (.grand d) := by
  cases hw : decodeWord w with
  | error e => exact .inl ⟨_, fun s => by rw [runWord, hw]⟩
  | ok i =>
    obtain ⟨rule, hrule⟩ | ⟨d, rfl⟩ := exec_eq_runCommand_or_grand i
    · exact .inl ⟨rule, fun s => (runWord_of_decode_ok hw s).trans (hrule s)⟩
    · exact .inr ⟨d, rfl⟩

/-! ### Outcomes -/

theorem State.complete_endsNone (s : State) (r : Reason) : EndsNone s (s.complete (some (.none r))) r.code :=
  ⟨⟨rfl, rfl⟩, s.complete_onlyStatus _⟩

/-- Everything a GRAND can do. -/
theorem execGrand_cases {d : RegField} {s t : State} (h : execGrand d s = .next t) :
    (∃ e, t = s.complete (some e)) ∨ (∃ u : State, t = u.complete none) ∨ (s.drawFp12 = Fp12.zero ∧ t = s.drawn) := by
  rw [execGrand] at h
  split at h
  next => cases h; exact .inl ⟨_, rfl⟩
  next =>
    split at h
    next => cases h; exact .inl ⟨_, rfl⟩
    next =>
      cases h
      rw [grandRound]
      split
      next hzero => exact .inr (.inr ⟨hzero, rfl⟩)
      next => exact .inr (.inl ⟨_, rfl⟩)

/-- How a word can end: stopped, with nothing written before the completion; ok; or, for a GRAND whose draws were all
zero, not yet (60_exceptions.md R330, R341). -/
theorem runWord_cases {w : Word} {s t : State} (h : runWord w s = .next t) :
    (∃ e, t = s.complete (some e)) ∨ (∃ u : State, t = u.complete none) ∨
      ((∃ d, decodeWord w = .ok (.grand d)) ∧ s.drawFp12 = Fp12.zero ∧ t = s.drawn) := by
  obtain ⟨rule, hrule⟩ | ⟨d, hd⟩ := runWord_eq_runCommand_or_grand w
  · rw [hrule] at h
    obtain ⟨-, ht⟩ | ⟨-, e, -, ht⟩ | ⟨-, u, -, ht⟩ := runCommand_cases h
    · exact .inl ⟨_, ht⟩
    · exact .inl ⟨e, ht⟩
    · exact .inr (.inl ⟨u, ht⟩)
  · rw [runWord_of_decode_ok hd] at h
    obtain hstop | hok | hdrawn := execGrand_cases h
    · exact .inl hstop
    · exact .inr (.inl hok)
    · exact .inr (.inr ⟨⟨d, hd⟩, hdrawn⟩)

/-! ### The halted block -/

theorem execGrand_of_halted {s : State} (d : RegField) (hs : s.status.halted = true) :
    execGrand d s = .next (s.complete (some (.error .haltedReject))) := by
  rw [execGrand, if_pos hs]

/-- Check 1 of 60_exceptions.md R334 comes before the word is looked at. -/
theorem runWord_of_halted {s : State} (w : Word) (hs : s.status.halted = true) :
    runWord w s = .next (s.complete (some (.error .haltedReject))) := by
  obtain ⟨rule, hrule⟩ | ⟨d, hd⟩ := runWord_eq_runCommand_or_grand w
  · rw [hrule]; exact runCommand_of_halted rule hs
  · rw [runWord_of_decode_ok hd]; exact execGrand_of_halted d hs

/-- A write that reaches CMD is accepted into PEND and answered, whatever STATUS holds (20_memory.md R95). -/
theorem State.perform_write_cmd {s : State} {addr : Nat} {w : Word}
    (ha : s.addressed (.write addr .word w) = true) (hoff : addr % windowSize = 0x010) :
    s.perform (.write addr .word w) = { s with pend := some w, lastResp := some (writeResponse .cmd) } := by
  rw [State.perform_write ha, hoff]
  rfl

/-- Writing 1 to ERR clears ERR and ECODE and leaves HALTED to a reset (10_state.md R49). -/
theorem Status.writeOneToClear_err {st : Status} {data : Word} (hbit : data.getLsbD 4 = true) :
    (st.writeOneToClear data).err = false ∧ (st.writeOneToClear data).ecode = 0 ∧
      (st.writeOneToClear data).halted = st.halted := by
  simp [Status.writeOneToClear, hbit]

/-! ### The length and bounds checks -/

/-- A sequence fails where its first part does, or where its rest does. -/
theorem bind_eq_error {α β : Type} {x : Except Stop α} {f : α → Except Stop β} {e : Stop} :
    (x >>= f) = .error e ↔ x = .error e ∨ ∃ a, x = .ok a ∧ f a = .error e := by
  cases x with
  | error e' =>
    show Except.error e' = .error e ↔ _
    simp
  | ok a =>
    show f a = .error e ↔ _
    simp

section

variable {s : State} {r : RegField} {off : BitVec 6} {len : BitVec 12} {lreq : Nat} {e : Stop}
  (hs : s.status.halted = false) (hrange : bufferRange off len lreq = .error e)
include hs hrange

/-! One lemma for each list of checks that comes before the range in more than one command. -/

theorem runCommand_range_error {rest : State → Nat → Except Stop State} :
    runCommand (fun s => bufferRange off len lreq >>= rest s) s = .next (s.complete (some e)) :=
  runCommand_of_error hs (bind_eq_error.2 (.inl hrange))

theorem runCommand_scalar_range_error {rest : State → Nat → Nat → Except Stop State} (hv : s.sv[sIndex r] = true) :
    runCommand (fun s => s.scalar (sIndex r) >>= fun x => bufferRange off len lreq >>= rest s x) s =
      .next (s.complete (some e)) :=
  runCommand_of_error hs (bind_eq_error.2 (.inr ⟨_, State.scalar_ok hv, bind_eq_error.2 (.inl hrange)⟩))

theorem runCommand_g_range_error {rest : State → Fin 8 → Nat → Except Stop State} (hr : r.toNat < 8) :
    runCommand (fun s => gIndex r >>= fun i => bufferRange off len lreq >>= rest s i) s =
      .next (s.complete (some e)) :=
  runCommand_of_error hs (bind_eq_error.2 (.inr ⟨_, gIndex_ok hr, bind_eq_error.2 (.inl hrange)⟩))

end

/-- What `bufferRange` refuses, the command refuses, once checks 4 and 5 have passed: registers in range and sources
valid (60_exceptions.md R334, checks 6 and 7). -/
theorem exec_of_bufferRange_error {i : Instr} {s : State} {off : BitVec 6} {len : BitVec 12} {lreq : Nat} {e : Stop}
    (hbuf : i.buffer = some (off, len, lreq)) (hs : s.status.halted = false) (hi : i.wellFormed = true)
    (hv : s.SourcesValid i) (hrange : bufferRange off len lreq = .error e) :
    exec i s = .next (s.complete (some e)) := by
  obtain ⟨hsv, hgv, htv⟩ := hv
  cases i with
  | sldle r _ _ => cases hbuf; rw [exec]; exact runCommand_range_error hs hrange
  | sldbe r _ _ => cases hbuf; rw [exec]; exact runCommand_range_error hs hrange
  | sldraw r _ _ => cases hbuf; rw [exec]; exact runCommand_range_error hs hrange
  | sldwide r _ _ => cases hbuf; rw [exec]; exact runCommand_range_error hs hrange
  | sldokm r _ _ => cases hbuf; rw [exec]; exact runCommand_range_error hs hrange
  | sstle r _ _ =>
    cases hbuf; rw [exec]; exact runCommand_scalar_range_error hs hrange (hsv r (List.mem_singleton_self r))
  | sstbe r _ _ =>
    cases hbuf; rw [exec]; exact runCommand_scalar_range_error hs hrange (hsv r (List.mem_singleton_self r))
  | gld r _ _ => cases hbuf; rw [exec]; exact runCommand_g_range_error hs hrange (of_decide_eq_true hi)
  | gldu r _ _ => cases hbuf; rw [exec]; exact runCommand_g_range_error hs hrange (of_decide_eq_true hi)
  | gst r _ _ =>
    cases hbuf
    have hr : r.toNat < 8 := of_decide_eq_true hi
    have hvalid : s.gv[(⟨r.toNat, hr⟩ : Fin 8)] = true := hgv r (List.mem_singleton_self r) hr
    rw [exec, execGst]
    exact runCommand_of_error hs (bind_eq_error.2 (.inr ⟨_, gIndex_ok hr,
      bind_eq_error.2 (.inr ⟨_, State.gt_ok hvalid, bind_eq_error.2 (.inl hrange)⟩)⟩))
  | tld r _ _ =>
    cases hbuf
    have hr : r.toNat < 4 := of_decide_eq_true hi
    rw [exec, execTld]
    exact runCommand_of_error hs (bind_eq_error.2 (.inr ⟨_, tIndex_ok hr, bind_eq_error.2 (.inl hrange)⟩))
  | tst r _ _ =>
    cases hbuf
    have hr : r.toNat < 4 := of_decide_eq_true hi
    have hvalid : s.tv[(⟨r.toNat, hr⟩ : Fin 4)] = true := htv r (List.mem_singleton_self r) hr
    rw [exec, execTst]
    exact runCommand_of_error hs (bind_eq_error.2 (.inr ⟨_, tIndex_ok hr,
      bind_eq_error.2 (.inr ⟨_, State.torus_ok hvalid, bind_eq_error.2 (.inl hrange)⟩)⟩))
  | _ => cases hbuf

/-- The length is checked first: a wrong one is WRONG_LENGTH whatever the offset (60_exceptions.md R338). -/
theorem bufferRange_wrongLength (off : BitVec 6) {len : BitVec 12} {lreq : Nat} (h : len.toNat ≠ lreq) :
    bufferRange off len lreq = .error (.none .wrongLength) := by
  rw [bufferRange, if_pos h]

/-! ### The statements -/

/-- Settles O8: the check of HALTED comes before the decoder, acceptance does not look at STATUS, and writing 1s to
STATUS does not reach HALTED. -/
theorem haltedBlockRejectsEveryWord : Obligations.HaltedBlockRejectsEveryWord := by
  refine fun s w hs => ⟨?_, fun addr ha hoff => ?_, fun data hbit => ?_⟩
  · obtain ⟨hdone, honly⟩ := s.complete_endsError (e := .haltedReject) (by decide)
    rw [hs] at hdone
    exact ⟨_, runWord_of_halted w hs, hdone, honly⟩
  · rw [State.perform_write_cmd ha hoff]
    exact ⟨rfl, rfl⟩
  · obtain ⟨herr, hecode, hhalted⟩ := Status.writeOneToClear_err (st := s.status) hbit
    exact ⟨herr, hecode, hhalted.trans hs⟩

/-- Settles O11: `bufferRange` answers WRONG_LENGTH before it looks at the offset, and the command stops there. -/
theorem wrongLengthComesBeforeBounds : Obligations.WrongLengthComesBeforeBounds :=
  fun _ s off _ _ hbuf hs hi hv hlen =>
    ⟨_, exec_of_bufferRange_error hbuf hs hi hv (bufferRange_wrongLength off hlen), s.complete_endsNone .wrongLength⟩

/-- Settles O13: a word that is stopped has written nothing; one that ended ok has OK set, and a GRAND that goes on is
still pending. -/
theorem failuresChangeOnlyStatus : Obligations.FailuresChangeOnlyStatus := by
  intro w s t hpend hrun hdone hok
  obtain ⟨e, rfl⟩ | ⟨u, rfl⟩ | ⟨-, -, rfl⟩ := runWord_cases hrun
  · exact s.complete_onlyStatus _
  · rw [State.complete_status, Status.update_ok] at hok
    cases hok
  · rw [State.drawn_pend, hpend] at hdone
    cases hdone

end Sys2Proof.Machine
end

section
/-! SUPPORT. Encoding and decoding of command words (30_encoding.md R122 to R133): every command is built by a row of the
opcode map from fields, and its word is those fields in that row's format. The round trips follow from the rows. -/

namespace Sys2Proof

open Machine

/-! ### Words as numbers -/

theorem append_toNat {m n : Nat} (x : BitVec m) (y : BitVec n) : (x ++ y).toNat = x.toNat * 2 ^ n + y.toNat := by
  rw [BitVec.toNat_append, Nat.shiftLeft_eq, Nat.mul_comm, Nat.two_pow_add_eq_or_of_lt y.isLt]

/-- A field of a word is a digit of its number. -/
theorem extractLsb'_eq_iff {w : Word} {start len : Nat} {x : BitVec len} :
    w.extractLsb' start len = x ↔ w.toNat / 2 ^ start % 2 ^ len = x.toNat := by
  rw [← BitVec.toNat_inj, BitVec.extractLsb'_toNat, Nat.shiftRight_eq_div_pow]

section

variable (op : BitVec 8) (d a b : RegField) (imm12 : BitVec 12) (imm16 : BitVec 16) (off : BitVec 6)

theorem wordR_toNat :
    (wordR op d a b).toNat = op.toNat * 2 ^ 24 + d.toNat * 2 ^ 20 + a.toNat * 2 ^ 16 + b.toNat * 2 ^ 12 := by
  simp only [wordR, append_toNat, BitVec.toNat_ofNat]
  omega

theorem wordI12_toNat :
    (wordI12 op d a imm12).toNat = op.toNat * 2 ^ 24 + d.toNat * 2 ^ 20 + a.toNat * 2 ^ 16 + imm12.toNat := by
  simp only [wordI12, append_toNat, BitVec.toNat_ofNat]
  omega

theorem wordI16_toNat : (wordI16 op d imm16).toNat = op.toNat * 2 ^ 24 + d.toNat * 2 ^ 20 + imm16.toNat := by
  simp only [wordI16, append_toNat, BitVec.toNat_ofNat]
  omega

theorem wordM_toNat :
    (wordM op d off imm12).toNat = op.toNat * 2 ^ 24 + d.toNat * 2 ^ 20 + off.toNat * 2 ^ 12 + imm12.toNat := by
  simp only [wordM, append_toNat, BitVec.toNat_ofNat]
  omega

/-! The fields of each format's word. -/

@[simp] theorem fieldsOf_wordR_d : (fieldsOf (wordR op d a b)).d = d :=
  extractLsb'_eq_iff.2 (by rw [wordR_toNat]; omega)

@[simp] theorem fieldsOf_wordR_a : (fieldsOf (wordR op d a b)).a = a :=
  extractLsb'_eq_iff.2 (by rw [wordR_toNat]; omega)

@[simp] theorem fieldsOf_wordR_b : (fieldsOf (wordR op d a b)).b = b :=
  extractLsb'_eq_iff.2 (by rw [wordR_toNat]; omega)

@[simp] theorem fieldsOf_wordI12_d : (fieldsOf (wordI12 op d a imm12)).d = d :=
  extractLsb'_eq_iff.2 (by rw [wordI12_toNat]; omega)

@[simp] theorem fieldsOf_wordI12_a : (fieldsOf (wordI12 op d a imm12)).a = a :=
  extractLsb'_eq_iff.2 (by rw [wordI12_toNat]; omega)

@[simp] theorem fieldsOf_wordI12_imm12 : (fieldsOf (wordI12 op d a imm12)).imm12 = imm12 :=
  extractLsb'_eq_iff.2 (by rw [wordI12_toNat]; omega)

@[simp] theorem fieldsOf_wordI16_d : (fieldsOf (wordI16 op d imm16)).d = d :=
  extractLsb'_eq_iff.2 (by rw [wordI16_toNat]; omega)

@[simp] theorem fieldsOf_wordI16_imm16 : (fieldsOf (wordI16 op d imm16)).imm16 = imm16 :=
  extractLsb'_eq_iff.2 (by rw [wordI16_toNat]; omega)

@[simp] theorem fieldsOf_wordM_d : (fieldsOf (wordM op d off imm12)).d = d :=
  extractLsb'_eq_iff.2 (by rw [wordM_toNat]; omega)

@[simp] theorem fieldsOf_wordM_off : (fieldsOf (wordM op d off imm12)).off = off :=
  extractLsb'_eq_iff.2 (by rw [wordM_toNat]; omega)

@[simp] theorem fieldsOf_wordM_imm12 : (fieldsOf (wordM op d off imm12)).imm12 = imm12 :=
  extractLsb'_eq_iff.2 (by rw [wordM_toNat]; omega)

end

section

variable (w : Word)

theorem fieldsOf_d_toNat : (fieldsOf w).d.toNat = w.toNat / 2 ^ 20 % 2 ^ 4 := (extractLsb'_eq_iff.1 rfl).symm
theorem fieldsOf_a_toNat : (fieldsOf w).a.toNat = w.toNat / 2 ^ 16 % 2 ^ 4 := (extractLsb'_eq_iff.1 rfl).symm
theorem fieldsOf_b_toNat : (fieldsOf w).b.toNat = w.toNat / 2 ^ 12 % 2 ^ 4 := (extractLsb'_eq_iff.1 rfl).symm
theorem fieldsOf_imm12_toNat : (fieldsOf w).imm12.toNat = w.toNat % 2 ^ 12 := by
  rw [fieldsOf, ← extractLsb'_eq_iff.1 rfl, pow_zero, Nat.div_one]
theorem fieldsOf_imm16_toNat : (fieldsOf w).imm16.toNat = w.toNat % 2 ^ 16 := by
  rw [fieldsOf, ← extractLsb'_eq_iff.1 rfl, pow_zero, Nat.div_one]
theorem fieldsOf_off_toNat : (fieldsOf w).off.toNat = w.toNat / 2 ^ 12 % 2 ^ 6 := (extractLsb'_eq_iff.1 rfl).symm

/-! A word whose reserved field is zero is the word of its own fields. -/

theorem wordR_fieldsOf (h : w.extractLsb' 0 12 = 0) :
    wordR (opField w) (fieldsOf w).d (fieldsOf w).a (fieldsOf w).b = w := by
  have h0 : w.toNat / 2 ^ 0 % 2 ^ 12 = 0 := extractLsb'_eq_iff.1 h
  apply BitVec.eq_of_toNat_eq
  rw [wordR_toNat, opField_toNat, fieldsOf_d_toNat, fieldsOf_a_toNat, fieldsOf_b_toNat]
  omega

theorem wordI12_fieldsOf (h : w.extractLsb' 12 4 = 0) :
    wordI12 (opField w) (fieldsOf w).d (fieldsOf w).a (fieldsOf w).imm12 = w := by
  have h0 : w.toNat / 2 ^ 12 % 2 ^ 4 = 0 := extractLsb'_eq_iff.1 h
  apply BitVec.eq_of_toNat_eq
  rw [wordI12_toNat, opField_toNat, fieldsOf_d_toNat, fieldsOf_a_toNat, fieldsOf_imm12_toNat]
  omega

theorem wordI16_fieldsOf (h : w.extractLsb' 16 4 = 0) :
    wordI16 (opField w) (fieldsOf w).d (fieldsOf w).imm16 = w := by
  have h0 : w.toNat / 2 ^ 16 % 2 ^ 4 = 0 := extractLsb'_eq_iff.1 h
  apply BitVec.eq_of_toNat_eq
  rw [wordI16_toNat, opField_toNat, fieldsOf_d_toNat, fieldsOf_imm16_toNat]
  omega

theorem wordM_fieldsOf (h : w.extractLsb' 18 2 = 0) :
    wordM (opField w) (fieldsOf w).d (fieldsOf w).off (fieldsOf w).imm12 = w := by
  have h0 : w.toNat / 2 ^ 18 % 2 ^ 2 = 0 := extractLsb'_eq_iff.1 h
  apply BitVec.eq_of_toNat_eq
  rw [wordM_toNat, opField_toNat, fieldsOf_d_toNat, fieldsOf_off_toNat, fieldsOf_imm12_toNat]
  omega

theorem wordR_of_op (h : w.extractLsb' 0 24 = 0) : wordR (opField w) 0 0 0 = w := by
  have h0 : w.toNat / 2 ^ 0 % 2 ^ 24 = 0 := extractLsb'_eq_iff.1 h
  apply BitVec.eq_of_toNat_eq
  rw [wordR_toNat, opField_toNat]
  bv_omega

end

/-! ### Rows

A row's word holds only the fields that the row uses, so words and commands of a row are compared by their used fields. -/

/-- A register field as a row uses it: 0 where the row leaves it unused (30_encoding.md R127). -/
def FieldClass.keep : FieldClass → RegField → RegField
  | .unused, _ => 0
  | .s, f => f
  | .g, f => f
  | .t, f => f

/-- The fields that a row's format and classes use; the others are 0. -/
def OpRow.used (row : OpRow) (f : Fields) : Fields :=
  match row.format with
  | .n => ⟨0, 0, 0, 0, 0, 0⟩
  | .r => ⟨row.d.keep f.d, row.a.keep f.a, row.b.keep f.b, 0, 0, 0⟩
  | .i12 => ⟨f.d, f.a, 0, f.imm12, 0, 0⟩
  | .i16 => ⟨f.d, 0, 0, 0, f.imm16, 0⟩
  | .m => ⟨f.d, 0, 0, f.imm12, 0, f.off⟩

/-- The word of a row's command with the given fields. -/
def OpRow.word (row : OpRow) (f : Fields) : Word :=
  match row.format with
  | .n => wordR row.op 0 0 0
  | .r => wordR row.op (row.d.keep f.d) (row.a.keep f.a) (row.b.keep f.b)
  | .i12 => wordI12 row.op f.d f.a f.imm12
  | .i16 => wordI16 row.op f.d f.imm16
  | .m => wordM row.op f.d f.off f.imm12

@[simp] theorem FieldClass.keep_unused (f : RegField) : FieldClass.unused.keep f = 0 := rfl

@[simp] theorem FieldClass.keep_keep (c : FieldClass) (f : RegField) : c.keep (c.keep f) = c.keep f := by
  cases c <;> rfl

theorem FieldClass.keep_of_unused_zero {c : FieldClass} {f : RegField} (h : c = .unused → f = 0) : c.keep f = f := by
  cases c with
  | unused => exact (h rfl).symm
  | s | g | t => rfl

section

variable (row : OpRow) (f : Fields)

theorem OpRow.opField_word : opField (row.word f) = row.op := by
  rw [OpRow.word]
  split
  · exact opField_wordR ..
  · exact opField_wordR ..
  · exact opField_wordI12 ..
  · exact opField_wordI16 ..
  · exact opField_wordM ..

theorem OpRow.used_fieldsOf_word : row.used (fieldsOf (row.word f)) = row.used f := by
  rw [OpRow.used, OpRow.used, OpRow.word]
  cases row.format <;> simp

/-- A row's word has its reserved and unused fields zero (30_encoding.md R122, R127). -/
theorem OpRow.word_zeroMask : row.word f &&& row.zeroMask = 0 := by
  cases hf : row.format with
  | n =>
    rw [OpRow.and_zeroMask_of_n _ hf, OpRow.word, hf]
    exact extractLsb'_eq_iff.2 (by rw [wordR_toNat]; bv_omega)
  | r =>
    rw [OpRow.and_zeroMask_of_r _ hf, OpRow.word, hf]
    refine ⟨extractLsb'_eq_iff.2 (by rw [wordR_toNat]; bv_omega), fun h => ?_, fun h => ?_,
      fun h => ?_⟩
    · exact (fieldsOf_wordR_d ..).trans (by rw [h]; rfl)
    · exact (fieldsOf_wordR_a ..).trans (by rw [h]; rfl)
    · exact (fieldsOf_wordR_b ..).trans (by rw [h]; rfl)
  | i12 =>
    rw [OpRow.and_zeroMask_of_i12 _ hf, OpRow.word, hf]
    exact extractLsb'_eq_iff.2 (by rw [wordI12_toNat]; bv_omega)
  | i16 =>
    rw [OpRow.and_zeroMask_of_i16 _ hf, OpRow.word, hf]
    exact extractLsb'_eq_iff.2 (by rw [wordI16_toNat]; bv_omega)
  | m =>
    rw [OpRow.and_zeroMask_of_m _ hf, OpRow.word, hf]
    exact extractLsb'_eq_iff.2 (by rw [wordM_toNat]; bv_omega)

variable {row}

/-- A word that decodes by a row is that row's word of its own fields. -/
theorem OpRow.word_fieldsOf {w : Word} (hop : opField w = row.op) (hz : w &&& row.zeroMask = 0) :
    row.word (fieldsOf w) = w := by
  rw [OpRow.word, ← hop]
  cases hf : row.format with
  | n => exact wordR_of_op w ((OpRow.and_zeroMask_of_n w hf).1 hz)
  | r =>
    obtain ⟨hlow, hd, ha, hb⟩ := (OpRow.and_zeroMask_of_r w hf).1 hz
    show wordR _ _ _ _ = w
    change row.d = .unused → (fieldsOf w).d = 0 at hd
    change row.a = .unused → (fieldsOf w).a = 0 at ha
    change row.b = .unused → (fieldsOf w).b = 0 at hb
    rw [FieldClass.keep_of_unused_zero hd, FieldClass.keep_of_unused_zero ha, FieldClass.keep_of_unused_zero hb,
      wordR_fieldsOf w hlow]
  | i12 => exact wordI12_fieldsOf w ((OpRow.and_zeroMask_of_i12 w hf).1 hz)
  | i16 => exact wordI16_fieldsOf w ((OpRow.and_zeroMask_of_i16 w hf).1 hz)
  | m => exact wordM_fieldsOf w ((OpRow.and_zeroMask_of_m w hf).1 hz)

/-- What decodes does so by the row of its OP. -/
theorem decodeWord_eq_ok_iff {w : Word} {i : Instr} :
    decodeWord w = .ok i ↔
      ∃ row ∈ opRows, opField w = row.op ∧ w &&& row.zeroMask = 0 ∧ i = row.build (fieldsOf w) := by
  constructor
  · intro h
    rw [decodeWord] at h
    split at h
    next => cases h
    next row hrow =>
      split at h
      next hz =>
        cases h
        have hop : row.op = opField w := by simpa using List.find?_some hrow
        exact ⟨row, List.mem_of_find?_eq_some hrow, hop.symm, hz, rfl⟩
      next => cases h
  · rintro ⟨row, hrow, hop, hz, rfl⟩
    rw [decodeWord, hop, opRow_of_mem hrow]
    exact if_pos hz

end

/-! The facts about the rows, one by one through the opcode map. -/

/-- What holds of every row, from the list of the rows. -/
theorem forall_opRows {P : OpRow → Prop} (h : opRows.Forall P) : ∀ row ∈ opRows, P row :=
  List.forall_iff_forall_mem.1 h

theorem encode_build : ∀ row ∈ opRows, ∀ f, encode (row.build f) = row.word f := by
  apply forall_opRows
  repeat' apply And.intro
  all_goals exact fun _ => rfl

theorem build_used : ∀ row ∈ opRows, ∀ f, row.build (row.used f) = row.build f := by
  apply forall_opRows
  repeat' apply And.intro
  all_goals exact fun _ => rfl

/-- Every command is built by a row of the opcode map (30_encoding.md R128). -/
theorem exists_build (i : Instr) : ∃ row ∈ opRows, ∃ f, row.build f = i := by
  cases i with
  | nop => exact ⟨opRows[13], List.getElem_mem _, ⟨0, 0, 0, 0, 0, 0⟩, rfl⟩
  | sadd d a b => exact ⟨opRows[0], List.getElem_mem _, ⟨d, a, b, 0, 0, 0⟩, rfl⟩
  | ssub d a b => exact ⟨opRows[1], List.getElem_mem _, ⟨d, a, b, 0, 0, 0⟩, rfl⟩
  | smul d a b => exact ⟨opRows[2], List.getElem_mem _, ⟨d, a, b, 0, 0, 0⟩, rfl⟩
  | sneg d a => exact ⟨opRows[3], List.getElem_mem _, ⟨d, a, 0, 0, 0, 0⟩, rfl⟩
  | sdbl d a => exact ⟨opRows[4], List.getElem_mem _, ⟨d, a, 0, 0, 0, 0⟩, rfl⟩
  | ssqr d a => exact ⟨opRows[5], List.getElem_mem _, ⟨d, a, 0, 0, 0, 0⟩, rfl⟩
  | sinv d a => exact ⟨opRows[6], List.getElem_mem _, ⟨d, a, 0, 0, 0, 0⟩, rfl⟩
  | sdiv d a b => exact ⟨opRows[7], List.getElem_mem _, ⟨d, a, b, 0, 0, 0⟩, rfl⟩
  | spow d a b => exact ⟨opRows[8], List.getElem_mem _, ⟨d, a, b, 0, 0, 0⟩, rfl⟩
  | ssqrt d a => exact ⟨opRows[9], List.getElem_mem _, ⟨d, a, 0, 0, 0, 0⟩, rfl⟩
  | sleg a => exact ⟨opRows[10], List.getElem_mem _, ⟨0, a, 0, 0, 0, 0⟩, rfl⟩
  | sshl d a imm => exact ⟨opRows[11], List.getElem_mem _, ⟨d, a, 0, imm, 0, 0⟩, rfl⟩
  | sshr d a imm => exact ⟨opRows[12], List.getElem_mem _, ⟨d, a, 0, imm, 0, 0⟩, rfl⟩
  | seq a b => exact ⟨opRows[14], List.getElem_mem _, ⟨0, a, b, 0, 0, 0⟩, rfl⟩
  | scmp a b => exact ⟨opRows[15], List.getElem_mem _, ⟨0, a, b, 0, 0, 0⟩, rfl⟩
  | sisz a => exact ⟨opRows[16], List.getElem_mem _, ⟨0, a, 0, 0, 0, 0⟩, rfl⟩
  | ssel d a b => exact ⟨opRows[17], List.getElem_mem _, ⟨d, a, b, 0, 0, 0⟩, rfl⟩
  | smov d a => exact ⟨opRows[18], List.getElem_mem _, ⟨d, a, 0, 0, 0, 0⟩, rfl⟩
  | szero d => exact ⟨opRows[19], List.getElem_mem _, ⟨d, 0, 0, 0, 0, 0⟩, rfl⟩
  | sone d => exact ⟨opRows[20], List.getElem_mem _, ⟨d, 0, 0, 0, 0, 0⟩, rfl⟩
  | simm d imm => exact ⟨opRows[21], List.getElem_mem _, ⟨d, 0, 0, 0, imm, 0⟩, rfl⟩
  | snbits a => exact ⟨opRows[22], List.getElem_mem _, ⟨0, a, 0, 0, 0, 0⟩, rfl⟩
  | srand d => exact ⟨opRows[23], List.getElem_mem _, ⟨d, 0, 0, 0, 0, 0⟩, rfl⟩
  | sldle r off len => exact ⟨opRows[24], List.getElem_mem _, ⟨r, 0, 0, len, 0, off⟩, rfl⟩
  | sldbe r off len => exact ⟨opRows[25], List.getElem_mem _, ⟨r, 0, 0, len, 0, off⟩, rfl⟩
  | sstle r off len => exact ⟨opRows[26], List.getElem_mem _, ⟨r, 0, 0, len, 0, off⟩, rfl⟩
  | sstbe r off len => exact ⟨opRows[27], List.getElem_mem _, ⟨r, 0, 0, len, 0, off⟩, rfl⟩
  | sldraw r off len => exact ⟨opRows[28], List.getElem_mem _, ⟨r, 0, 0, len, 0, off⟩, rfl⟩
  | sldwide r off len => exact ⟨opRows[29], List.getElem_mem _, ⟨r, 0, 0, len, 0, off⟩, rfl⟩
  | sldokm r off len => exact ⟨opRows[30], List.getElem_mem _, ⟨r, 0, 0, len, 0, off⟩, rfl⟩
  | gadd d a b => exact ⟨opRows[31], List.getElem_mem _, ⟨d, a, b, 0, 0, 0⟩, rfl⟩
  | gsub d a b => exact ⟨opRows[32], List.getElem_mem _, ⟨d, a, b, 0, 0, 0⟩, rfl⟩
  | gneg d a => exact ⟨opRows[33], List.getElem_mem _, ⟨d, a, 0, 0, 0, 0⟩, rfl⟩
  | gdbl d a => exact ⟨opRows[34], List.getElem_mem _, ⟨d, a, 0, 0, 0, 0⟩, rfl⟩
  | gsmul d a b => exact ⟨opRows[35], List.getElem_mem _, ⟨d, a, b, 0, 0, 0⟩, rfl⟩
  | ginv d a => exact ⟨opRows[36], List.getElem_mem _, ⟨d, a, 0, 0, 0, 0⟩, rfl⟩
  | gone d => exact ⟨opRows[37], List.getElem_mem _, ⟨d, 0, 0, 0, 0, 0⟩, rfl⟩
  | ggen d => exact ⟨opRows[38], List.getElem_mem _, ⟨d, 0, 0, 0, 0, 0⟩, rfl⟩
  | grand d => exact ⟨opRows[39], List.getElem_mem _, ⟨d, 0, 0, 0, 0, 0⟩, rfl⟩
  | gisid a => exact ⟨opRows[40], List.getElem_mem _, ⟨0, a, 0, 0, 0, 0⟩, rfl⟩
  | geq a b => exact ⟨opRows[41], List.getElem_mem _, ⟨0, a, b, 0, 0, 0⟩, rfl⟩
  | gsubg a => exact ⟨opRows[42], List.getElem_mem _, ⟨0, a, 0, 0, 0, 0⟩, rfl⟩
  | gmov d a => exact ⟨opRows[43], List.getElem_mem _, ⟨d, a, 0, 0, 0, 0⟩, rfl⟩
  | gld r off len => exact ⟨opRows[44], List.getElem_mem _, ⟨r, 0, 0, len, 0, off⟩, rfl⟩
  | gldu r off len => exact ⟨opRows[45], List.getElem_mem _, ⟨r, 0, 0, len, 0, off⟩, rfl⟩
  | gst r off len => exact ⟨opRows[46], List.getElem_mem _, ⟨r, 0, 0, len, 0, off⟩, rfl⟩
  | gcmpr d a => exact ⟨opRows[47], List.getElem_mem _, ⟨d, a, 0, 0, 0, 0⟩, rfl⟩
  | guncmpr d a => exact ⟨opRows[48], List.getElem_mem _, ⟨d, a, 0, 0, 0, 0⟩, rfl⟩
  | tld r off len => exact ⟨opRows[49], List.getElem_mem _, ⟨r, 0, 0, len, 0, off⟩, rfl⟩
  | tst r off len => exact ⟨opRows[50], List.getElem_mem _, ⟨r, 0, 0, len, 0, off⟩, rfl⟩

theorem build_fieldsOf_word {row : OpRow} (hrow : row ∈ opRows) (f : Fields) :
    row.build (fieldsOf (row.word f)) = row.build f := by
  rw [← build_used row hrow f, ← row.used_fieldsOf_word f, build_used row hrow]

theorem decodeWord_word {row : OpRow} (hrow : row ∈ opRows) (f : Fields) : decodeWord (row.word f) = .ok (row.build f) :=
  decodeWord_eq_ok_iff.2 ⟨row, hrow, row.opField_word f, row.word_zeroMask f, (build_fieldsOf_word hrow f).symm⟩

/-- Settles O1: the row that builds the command gives back the fields that it was built from. -/
theorem decodeEncodeRoundTrip : Obligations.DecodeEncodeRoundTrip := by
  intro i
  obtain ⟨row, hrow, f, rfl⟩ := exists_build i
  rw [encode_build row hrow, decodeWord_word hrow]

/-- Settles O2: a word that decodes by a row is the row's word of its own fields, and so is the word of its command. -/
theorem encodeDecodeRoundTrip : Obligations.EncodeDecodeRoundTrip := by
  intro w i h
  obtain ⟨row, hrow, hop, hz, rfl⟩ := decodeWord_eq_ok_iff.1 h
  rw [encode_build row hrow, OpRow.word_fieldsOf hop hz]

/-- Settles O5, by evaluation. -/
theorem workedEncodingsDecode : Obligations.WorkedEncodingsDecode := by
  unfold Obligations.WorkedEncodingsDecode
  decide

/-! ### The assembler -/

/-- A register field that its class allows (30_encoding.md R125). -/
def FieldClass.fits : FieldClass → RegField → Bool
  | .unused, _ => true
  | .s, _ => true
  | .g, f => gField f
  | .t, f => tField f

theorem wellFormed_build : ∀ row ∈ opRows, ∀ f,
    (row.build f).wellFormed = (row.d.fits f.d && row.a.fits f.a && row.b.fits f.b) := by
  apply forall_opRows
  repeat' apply And.intro
  all_goals exact fun f => by simp [Instr.wellFormed, FieldClass.fits]

/-- What the assembler takes for a class is what that class's field is written as. -/
theorem takeReg_eq_some {c : FieldClass} {ops rest : List AsmOperand} {f : RegField}
    (h : takeReg c ops = some (f, rest)) : ops = writtenReg c f ++ rest ∧ c.fits f = true ∧ c.keep f = f := by
  cases c with
  | unused => cases h; exact ⟨rfl, rfl, rfl⟩
  | s =>
    match ops with
    | .s i :: _ =>
      obtain ⟨hi, h⟩ := Option.ite_none_right_eq_some.1 h
      cases h
      refine ⟨?_, rfl, rfl⟩
      simp [writtenReg, Nat.mod_eq_of_lt hi]
    | [] | .g _ :: _ | .t _ :: _ | .num _ :: _ | .mem _ :: _ => cases h
  | g =>
    match ops with
    | .g i :: _ =>
      obtain ⟨hi, h⟩ := Option.ite_none_right_eq_some.1 h
      cases h
      have hm : i % 16 = i := Nat.mod_eq_of_lt (by omega)
      refine ⟨?_, ?_, rfl⟩
      · simp [writtenReg, hm]
      · simp [FieldClass.fits, gField, hm, hi]
    | [] | .s _ :: _ | .t _ :: _ | .num _ :: _ | .mem _ :: _ => cases h
  | t =>
    match ops with
    | .t i :: _ =>
      obtain ⟨hi, h⟩ := Option.ite_none_right_eq_some.1 h
      cases h
      have hm : i % 16 = i := Nat.mod_eq_of_lt (by omega)
      refine ⟨?_, ?_, rfl⟩
      · simp [writtenReg, hm]
      · simp [FieldClass.fits, tField, hm, hi]
    | [] | .s _ :: _ | .g _ :: _ | .num _ :: _ | .mem _ :: _ => cases h

/-- A field that its class allows reads back as written. -/
theorem takeReg_writtenReg {c : FieldClass} {f : RegField} (h : c.fits f = true) (rest : List AsmOperand) :
    takeReg c (writtenReg c f ++ rest) = some (c.keep f, rest) := by
  cases c with
  | unused => rfl
  | s => simp [takeReg, writtenReg, FieldClass.keep, f.isLt]
  | g => simpa [takeReg, writtenReg, FieldClass.keep, FieldClass.fits, gField] using h
  | t => simpa [takeReg, writtenReg, FieldClass.keep, FieldClass.fits, tField] using h

theorem takeNum_eq_some {bits : Nat} {ops : List AsmOperand} {n : BitVec bits} (h : takeNum bits ops = some n) :
    ops = [.num n.toNat] := by
  unfold takeNum at h
  split at h
  next m =>
    obtain ⟨hm, h⟩ := Option.ite_none_right_eq_some.1 h
    cases h
    rw [BitVec.toNat_ofNat, Nat.mod_eq_of_lt hm]
  next => cases h

theorem takeNum_num {bits : Nat} (n : BitVec bits) : takeNum bits [.num n.toNat] = some n := by
  simp [takeNum, n.isLt]

theorem requiredLength_lt (op : BitVec 8) : requiredLength op < 4096 := by
  unfold requiredLength
  split_ifs <;> decide

/-- The buffer range is written in full, or without the length that the opcode fixes (30_encoding.md R131, R132). -/
theorem takeBuffer_eq_some {op : BitVec 8} {ops : List AsmOperand} {off : BitVec 6} {len : BitVec 12}
    (h : takeBuffer op ops = some (off, len)) :
    ops = [.mem (off.toNat * 16), .num len.toNat] ∨
      ops ++ [.num (requiredLength op)] = [.mem (off.toNat * 16), .num len.toNat] := by
  unfold takeBuffer at h
  split at h
  next o =>
    obtain ⟨⟨hmul, hle⟩, h⟩ := Option.ite_none_right_eq_some.1 h
    cases h
    have hoff : o / 16 % 2 ^ 6 * 16 = o := by omega
    right
    rw [BitVec.toNat_ofNat, hoff, BitVec.toNat_ofNat, Nat.mod_eq_of_lt (requiredLength_lt op)]
    rfl
  next o n =>
    obtain ⟨⟨hmul, hle, hn⟩, h⟩ := Option.ite_none_right_eq_some.1 h
    cases h
    have hoff : o / 16 % 2 ^ 6 * 16 = o := by omega
    left
    rw [BitVec.toNat_ofNat, hoff, BitVec.toNat_ofNat, Nat.mod_eq_of_lt hn]
  next => cases h

theorem takeBuffer_written (op : BitVec 8) (off : BitVec 6) (len : BitVec 12) :
    takeBuffer op [.mem (off.toNat * 16), .num len.toNat] = some (off, len) := by
  have hoff : off.toNat * 16 ≤ 1008 := by omega
  simp [takeBuffer, hoff, len.isLt]

/-- The number or the buffer range of a row's command, as written after the registers. -/
def OpRow.writtenTail (row : OpRow) (f : Fields) : List AsmOperand :=
  match row.format with
  | .n => []
  | .r => []
  | .i12 => [.num f.imm12.toNat]
  | .i16 => [.num f.imm16.toNat]
  | .m => [.mem (f.off.toNat * 16), .num f.imm12.toNat]

/-- The operands of a row's command, as written (30_encoding.md R131). -/
def OpRow.written (row : OpRow) (f : Fields) : List AsmOperand :=
  writtenReg row.d f.d ++ (writtenReg row.a f.a ++ (writtenReg row.b f.b ++ row.writtenTail f))

theorem writtenOperands_eq (row : OpRow) (w : Word) : writtenOperands row w = row.written (fieldsOf w) := by
  rw [writtenOperands, OpRow.written, List.append_assoc, List.append_assoc]
  rfl

/-- What is written of a command does not depend on fields that its row leaves unused. -/
theorem written_used : ∀ row ∈ opRows, ∀ f, row.written (row.used f) = row.written f := by
  apply forall_opRows
  repeat' apply And.intro
  all_goals exact fun _ => rfl

theorem writtenOperands_word {row : OpRow} (hrow : row ∈ opRows) (f : Fields) :
    writtenOperands row (row.word f) = row.written f := by
  rw [writtenOperands_eq, ← written_used row hrow f, ← row.used_fieldsOf_word f, written_used row hrow]

/-- The immediates and the buffer of a row's format go to registers that the row uses. -/
theorem used_of_format : ∀ row ∈ opRows,
    (row.format = .i12 → row.d ≠ .unused ∧ row.a ≠ .unused) ∧ (row.format = .i16 → row.d ≠ .unused) ∧
      (row.format = .m → row.d ≠ .unused) := by
  decide

theorem FieldClass.keep_of_used {c : FieldClass} (h : c ≠ .unused) (f : RegField) : c.keep f = f :=
  FieldClass.keep_of_unused_zero fun hc => absurd hc h

/-- The assembler makes a row's word of its operands as written. -/
theorem assembleRow_written {row : OpRow} (hrow : row ∈ opRows) {f : Fields} (hd : row.d.fits f.d = true)
    (ha : row.a.fits f.a = true) (hb : row.b.fits f.b = true) : assembleRow row (row.written f) = some (row.word f) := by
  obtain ⟨h12, h16, hm⟩ := used_of_format row hrow
  rw [assembleRow, OpRow.written, takeReg_writtenReg hd]
  simp only [Option.bind_eq_bind, Option.bind_some, takeReg_writtenReg ha, takeReg_writtenReg hb]
  rw [OpRow.writtenTail, OpRow.word]
  cases hf : row.format with
  | n | r => rfl
  | i12 =>
    rw [FieldClass.keep_of_used (h12 hf).1, FieldClass.keep_of_used (h12 hf).2]
    simp only [takeNum_num, Option.bind_some]
  | i16 =>
    rw [FieldClass.keep_of_used (h16 hf)]
    simp only [takeNum_num, Option.bind_some]
  | m =>
    rw [FieldClass.keep_of_used (hm hf)]
    simp only [takeBuffer_written, Option.bind_some]

/-- Whatever the assembler makes is a row's word of the fields that it took, which are those written. -/
theorem assembleRow_eq_some {row : OpRow} {ops : List AsmOperand} {w : Word} (h : assembleRow row ops = some w) :
    ∃ f, w = row.word f ∧ (row.d.fits f.d && row.a.fits f.a && row.b.fits f.b) = true ∧
      (ops = row.written f ∨ (row.format = .m ∧ ops ++ [.num (requiredLength row.op)] = row.written f)) := by
  simp only [assembleRow, Option.bind_eq_bind, Option.bind_eq_some_iff, Prod.exists] at h
  obtain ⟨d, _, htd, a, _, hta, b, tail, htb, h⟩ := h
  obtain ⟨rfl, hd, hkd⟩ := takeReg_eq_some htd
  obtain ⟨rfl, ha, hka⟩ := takeReg_eq_some hta
  obtain ⟨rfl, hb, hkb⟩ := takeReg_eq_some htb
  have hfits : (row.d.fits d && row.a.fits a && row.b.fits b) = true := by rw [hd, ha, hb]; rfl
  simp only [OpRow.word, OpRow.written, OpRow.writtenTail]
  cases hf : row.format with
  | n =>
    rw [hf] at h
    obtain ⟨rfl, h⟩ := Option.ite_none_right_eq_some.1 h
    exact ⟨⟨d, a, b, 0, 0, 0⟩, (Option.some.inj h).symm, hfits, .inl rfl⟩
  | r =>
    rw [hf] at h
    obtain ⟨rfl, h⟩ := Option.ite_none_right_eq_some.1 h
    refine ⟨⟨d, a, b, 0, 0, 0⟩, ?_, hfits, .inl rfl⟩
    simp only [hkd, hka, hkb]
    exact (Option.some.inj h).symm
  | i12 =>
    rw [hf] at h
    obtain ⟨n, hn, hw⟩ := Option.bind_eq_some_iff.1 h
    obtain rfl := takeNum_eq_some hn
    exact ⟨⟨d, a, b, n, 0, 0⟩, (Option.some.inj hw).symm, hfits, .inl rfl⟩
  | i16 =>
    rw [hf] at h
    obtain ⟨n, hn, hw⟩ := Option.bind_eq_some_iff.1 h
    obtain rfl := takeNum_eq_some hn
    exact ⟨⟨d, a, b, 0, n, 0⟩, (Option.some.inj hw).symm, hfits, .inl rfl⟩
  | m =>
    rw [hf] at h
    obtain ⟨⟨off, len⟩, hn, h⟩ := Option.bind_eq_some_iff.1 h
    refine ⟨⟨d, a, b, len, 0, off⟩, (Option.some.inj h).symm, hfits, ?_⟩
    obtain rfl | htail := takeBuffer_eq_some hn
    · exact .inl rfl
    · right
      simp only [List.append_assoc, htail, and_self]

theorem opRows_mnemonic_nodup : (opRows.map OpRow.mnemonic).Nodup := by decide +kernel

/-- A row's mnemonic is no pseudo-instruction and is in upper case (30_encoding.md R132). -/
theorem expandMnemonic_mnemonic : ∀ row ∈ opRows, expandMnemonic row.mnemonic.toUpper = row.mnemonic := by
  decide +kernel

theorem assemble_eq_some {mnemonic : String} {ops : List AsmOperand} {w : Word} (h : assemble mnemonic ops = some w) :
    ∃ row ∈ opRows, row.mnemonic = expandMnemonic mnemonic.toUpper ∧ assembleRow row ops = some w := by
  rw [assemble] at h
  split at h
  next => cases h
  next row hrow => exact ⟨row, List.mem_of_find?_eq_some hrow, by simpa using List.find?_some hrow, h⟩

theorem assemble_mnemonic {row : OpRow} (hrow : row ∈ opRows) (ops : List AsmOperand) :
    assemble row.mnemonic ops = assembleRow row ops := by
  rw [assemble, expandMnemonic_mnemonic row hrow]
  cases hfound : opRows.find? fun r => r.mnemonic == row.mnemonic with
  | none => exact absurd (List.find?_eq_none.1 hfound row hrow) (by simp)
  | some found =>
    have hm : found.mnemonic = row.mnemonic := by simpa using List.find?_some hfound
    rw [List.inj_on_of_nodup_map opRows_mnemonic_nodup (List.mem_of_find?_eq_some hfound) hrow hm]

/-- Settles O6: the assembler's word is a row's word of the fields written, and the other way round. -/
theorem assembledWordsAreWellFormed : Obligations.AssembledWordsAreWellFormed := by
  refine ⟨fun mnemonic ops w h => ?_, fun row hrow w i hop hdec hwf => ?_⟩
  · obtain ⟨row, hrow, hm, h⟩ := assemble_eq_some h
    obtain ⟨f, rfl, hfits, hops⟩ := assembleRow_eq_some h
    refine ⟨row, hrow, hm, row.opField_word f, ?_, ?_, ?_⟩
    · rw [build_fieldsOf_word hrow, decodeWord_word hrow]
    · rw [build_fieldsOf_word hrow, wellFormed_build row hrow, hfits]
    · rwa [writtenOperands_word hrow]
  · obtain ⟨row', hrow', hop', hz, rfl⟩ := decodeWord_eq_ok_iff.1 hdec
    obtain rfl := List.inj_on_of_nodup_map opRows_op_nodup hrow' hrow (hop'.symm.trans hop)
    rw [wellFormed_build row' hrow', Bool.and_eq_true, Bool.and_eq_true] at hwf
    obtain ⟨⟨hd, ha⟩, hb⟩ := hwf
    rw [assemble_mnemonic hrow, writtenOperands_eq, assembleRow_written hrow hd ha hb, OpRow.word_fieldsOf hop hz]

end Sys2Proof
end

section
/-! SUPPORT. The invariant (10_state.md R41, R44, R45, R55, R60): each write keeps it, so every shape of a command's
successor does, every host access, and every level of rst_n. -/

namespace Sys2Proof.Machine

/-! ### STATUS -/

/-- What the invariant says of STATUS: only codes that exist, and none where there is nothing to report. -/
structure Status.Coded (st : Status) : Prop where
  reason : st.reason.toNat ≤ 5
  ecode : st.ecode.toNat ≤ 7
  errClear : st.err = false → st.ecode = 0
  okReason : st.ok = true → st.reason = 0

theorem Status.coded_reset : Status.reset.Coded := ⟨by decide, by decide, fun _ => rfl, fun _ => rfl⟩

theorem Reason.code_le (r : Reason) : r.code.toNat ≤ 5 := by cases r <;> decide

theorem ErrorCode.code_le (e : ErrorCode) : e.code.toNat ≤ 7 := by cases e <;> decide

theorem Status.Coded.update {st : Status} (h : st.Coded) (o : Option Stop) : (st.update o).Coded := by
  match o with
  | none => exact ⟨by simp [Status.update_ok], h.ecode, h.errClear, fun _ => rfl⟩
  | some (.none r) => exact ⟨Reason.code_le r, h.ecode, h.errClear, nofun⟩
  | some (.error e) => exact ⟨by simp [Status.update_error], ErrorCode.code_le e, nofun, fun _ => rfl⟩

theorem Status.Coded.writeOneToClear {st : Status} (h : st.Coded) (data : Word) : (st.writeOneToClear data).Coded := by
  refine ⟨h.reason, ?_, fun herr => ?_, h.okReason⟩
  · simp only [Status.writeOneToClear]
    split
    · decide
    · exact h.ecode
  · by_cases hbit : data.getLsbD 4 = true
    · exact (Status.writeOneToClear_err hbit).2.1
    · simp only [Status.writeOneToClear, hbit] at herr ⊢
      exact h.errClear (by simpa using herr)

theorem State.Inv.coded {s : State} (hI : s.Inv) : s.status.Coded := ⟨hI.reason, hI.ecode, hI.errClear, hI.okReason⟩

/-! ### Register files

A file of registers with its valid bits, of which a write replaces one register and sets its bit. -/

section

variable {α : Type} {n : Nat} {regs : Vector α n} {bits : Vector Bool n}

theorem valid_set {P : α → Prop} (h : ∀ i : Fin n, bits[i] = true → P regs[i]) (d : Fin n) {x : α} (hx : P x) :
    ∀ i : Fin n, (bits.set d true)[i] = true → P (regs.set d x)[i] := by
  intro i hi
  simp only [Fin.getElem_fin, Vector.getElem_set] at hi ⊢
  split
  next => exact hx
  next hne => exact h i (by simpa [hne] using hi)

theorem invalid_set {z : α} (h : ∀ i : Fin n, bits[i] = false → regs[i] = z) (d : Fin n) (x : α) :
    ∀ i : Fin n, (bits.set d true)[i] = false → (regs.set d x)[i] = z := by
  intro i hi
  simp only [Fin.getElem_fin, Vector.getElem_set] at hi ⊢
  split
  next heq => simp [heq] at hi
  next hne => exact h i (by simpa [hne] using hi)

end

/-! ### Writes of a command

Outside reset the clauses on rst_n have nothing to say, and each write touches what one or two of the others speak of. -/

section

variable {s : State} (hI : s.Inv) (hr : s.rstN = true)
include hI hr

theorem State.Inv.complete (o : Option Stop) : (s.complete o).Inv :=
  have hc := hI.coded.update o
  { hI with
    reason := hc.reason, ecode := hc.ecode, errClear := hc.errClear, okReason := hc.okReason
    inReset := fun h => absurd (hr.symm.trans h) nofun }

theorem State.Inv.setS (d : Fin 16) {m : Nat} (hm : m < s.q) : (s.setS d m).Inv :=
  { hI with
    scalars := valid_set (P := fun x : ScalarWord => x.toNat < s.q) hI.scalars d (by rwa [toNat_ofNat_lt hI.usable.scalar hm])
    scalarsClear := invalid_set hI.scalarsClear d _
    inReset := fun h => absurd (hr.symm.trans h) nofun }

theorem State.Inv.setG (d : Fin 8) {a : Fp12} (ha : a.inRange s.p = true) : (s.setG d a).Inv :=
  { hI with
    gts := valid_set (P := fun x : Fp12 => x.inRange s.p = true) hI.gts d ha
    gtsClear := invalid_set hI.gtsClear d _
    inReset := fun h => absurd (hr.symm.trans h) nofun }

theorem State.Inv.setT (d : Fin 4) {x : Fp6} (hx : x.inRange s.p = true) : (s.setT d x).Inv :=
  { hI with
    tori := valid_set (P := fun x : Fp6 => x.inRange s.p = true) hI.tori d hx
    toriClear := invalid_set hI.toriClear d _
    inReset := fun h => absurd (hr.symm.trans h) nofun }

theorem State.Inv.drawn : s.drawn.Inv := { hI with inReset := fun h => absurd (hr.symm.trans h) nofun }

theorem State.Inv.setResult (v : Word) : (s.setResult v).Inv :=
  { hI with inReset := fun h => absurd (hr.symm.trans h) nofun }

theorem State.Inv.store {off : Nat} {bs : List Byte} (hb : off + bs.length ≤ dbufSize) : (s.store off bs).Inv :=
  { hI with
    buffer := Memory.wf_writeBytes bs off hb hI.buffer
    inReset := fun h => absurd (hr.symm.trans h) nofun }

/-- Every shape of a command's successor keeps the invariant. -/
theorem State.Inv.execShape {t : State} (h : ExecShape s t) : t.Inv := by
  cases h with
  | completed o => exact hI.complete hr o
  | scalar d m hm => exact (hI.setS hr d hm).complete hr none
  | drawnScalar d m hm => exact ((hI.drawn hr).setS hr d hm).complete hr none
  | gt d a ha => exact (hI.setG hr d ha).complete hr none
  | drawnGt d a ha => exact ((hI.drawn hr).setG hr d ha).complete hr none
  | torus d x hx => exact (hI.setT hr d hx).complete hr none
  | result v => exact (hI.setResult hr v).complete hr none
  | stored off bs hb => exact (hI.store hr hb).complete hr none
  | drawn => exact hI.drawn hr

end

/-! ### The host's side -/

section

variable {s : State} (hI : s.Inv)
include hI

/-- What waits, what is to come and what was answered are no part of the invariant, but that nothing waits in reset. -/
theorem State.Inv.hostSide (inputs : List Input) {held : List Access} (resp : Option BusResponse)
    (hh : s.rstN = false → held = []) : ({ s with inputs := inputs, held := held, lastResp := resp } : State).Inv :=
  { hI with
    inReset := fun h => congrArg (fun u : State => { u with inputs := inputs, held := held, lastResp := resp })
      (hI.inReset h)
    noneHeld := hh }

/-- Both resets (10_state.md R60). -/
theorem State.Inv.cleared_with {held : List Access} {level : Bool} (hh : level = false → held = []) :
    ({ s.cleared with held := held, rstN := level } : State).Inv where
  usable := hI.usable
  scalars i hv := by simp [State.reset] at hv
  gts i hv := by simp [State.reset] at hv
  tori i hv := by simp [State.reset] at hv
  scalarsClear i _ := by simp [State.reset]
  gtsClear i _ := by simp [State.reset]
  toriClear i _ := by simp [State.reset]
  buffer := rfl
  reason := Status.coded_reset.reason
  ecode := Status.coded_reset.ecode
  errClear := Status.coded_reset.errClear
  okReason := Status.coded_reset.okReason
  inReset _ := rfl
  noneHeld := hh

theorem State.Inv.setRstN (level : Bool) : (s.setRstN level).Inv := by
  rw [State.setRstN]
  split
  · exact hI
  · exact hI.cleared_with fun _ => rfl

theorem State.Inv.writeCtrl (hr : s.rstN = true) (data : Word) : (s.writeCtrl data).Inv := by
  rw [State.writeCtrl]
  split
  · exact hI.cleared_with hI.noneHeld
  · exact { hI with inReset := fun h => absurd (hr.symm.trans h) nofun }

theorem State.Inv.writeTarget (hr : s.rstN = true) {addr : Nat} (width : Width) (data : Word) :
    (s.writeTarget width data (targetAt (addr % windowSize) width)).Inv := by
  have hrelease : ∀ {u : State}, u.rstN = s.rstN → u.rstN = false → u.cleared = u :=
    fun hu h => absurd ((hu.trans hr).symm.trans h) nofun
  cases htarget : targetAt (addr % windowSize) width with
  | id | result | error => exact hI
  | ctrl => exact hI.writeCtrl hr data
  | status =>
    have hc := hI.coded.writeOneToClear data
    exact { hI with
      reason := hc.reason, ecode := hc.ecode, errClear := hc.errClear, okReason := hc.okReason
      inReset := hrelease rfl }
  | cmd => exact { hI with inReset := hrelease rfl }
  | dbuf off => exact hI.store hr (by rw [length_leBytes]; exact target_in_dbuf htarget)

theorem State.Inv.perform (a : Access) : (s.perform a).Inv := by
  by_cases ha : s.addressed a = true
  · have hr := addressed_rstN ha
    cases a with
    | read addr width =>
      rw [State.perform_read ha]
      exact hI.hostSide s.inputs _ hI.noneHeld
    | write addr width data =>
      rw [State.perform_write ha]
      have hw := hI.writeTarget hr (addr := addr) width data
      exact hw.hostSide _ _ hw.noneHeld
  · rw [State.perform_of_not_addressed (Bool.eq_false_iff.2 ha)]
    exact hI.hostSide s.inputs none hI.noneHeld

/-! ### The engine -/

theorem State.Inv.runWord {t : State} {w : Word} (hr : s.rstN = true) (h : runWord w s = .next t) : t.Inv := by
  cases hw : decodeWord w with
  | ok i =>
    rw [runWord_of_decode_ok hw] at h
    exact hI.execShape hr (exec_shape hI i h)
  | error e =>
    rw [Machine.runWord, hw] at h
    exact hI.execShape hr (shape_of_rule h fun _ hu => by cases hu)

/-- In reset no command is pending, so the engine has nothing to do there. -/
theorem State.Inv.engineTurn {t : State} (h : engineTurn s = .next t) : t.Inv := by
  cases hp : s.pend with
  | none =>
    rw [Machine.engineTurn, hp] at h
    cases h
    exact hI
  | some w =>
    rw [Machine.engineTurn, hp] at h
    refine hI.runWord ?_ h
    by_contra hr
    have hclear := congrArg State.pend (hI.inReset (Bool.eq_false_iff.2 hr))
    rw [State.cleared_pend, hp] at hclear
    cases hclear

end

/-- An access is held only while rst_n is released. -/
theorem rstN_of_holds {s : State} {a : Access} (hI : s.Inv) (h : s.holds a = true) : s.rstN = true := by
  by_contra hr
  rw [Bool.not_eq_true] at hr
  simp [State.holds, State.mustWait, State.addressed, hI.noneHeld hr, hr] at h

/-! ### The statements -/

/-- Settles O16: nothing is valid after reset, and the parameters of reset are usable. -/
theorem invHoldsAtReset : Obligations.InvHoldsAtReset where
  usable := recommended_usable
  scalars i hv := by simp [State.reset] at hv
  gts i hv := by simp [State.reset] at hv
  tori i hv := by simp [State.reset] at hv
  scalarsClear i _ := by simp [State.reset]
  gtsClear i _ := by simp [State.reset]
  toriClear i _ := by simp [State.reset]
  buffer := rfl
  reason := Status.coded_reset.reason
  ecode := Status.coded_reset.ecode
  errClear := Status.coded_reset.errClear
  okReason := Status.coded_reset.okReason
  inReset := nofun
  noneHeld _ := rfl

/-- Settles O17, by what a step can be: a level of rst_n, an access performed or held, or the engine's turn. -/
theorem everyStepKeepsInv : Obligations.EveryStepKeepsInv := by
  intro s t hI h
  obtain ⟨level, rest, -, rfl⟩ | ⟨a, waiting, -, hh, -, rfl⟩ | ⟨-, h⟩ := step_cases h
  · exact (hI.hostSide rest s.lastResp hI.noneHeld).setRstN level
  · refine (hI.hostSide s.inputs (held := waiting) s.lastResp fun hr => ?_).perform a
    have hnil := hI.noneHeld hr
    rw [hh] at hnil
    cases hnil
  · obtain ⟨-, h⟩ | ⟨rest, -, h⟩ | ⟨a, rest, -, hhold, rfl⟩ | ⟨a, rest, -, -, rfl⟩ := h
    · exact hI.engineTurn h
    · exact (hI.hostSide rest s.lastResp hI.noneHeld).engineTurn h
    · exact hI.hostSide rest s.lastResp fun hr => absurd ((rstN_of_holds hI hhold).symm.trans hr) nofun
    · exact (hI.hostSide rest s.lastResp hI.noneHeld).perform a

end Sys2Proof.Machine
end

section
/-! SUPPORT. What a command may write (10_state.md R48, R50, R55, 60_exceptions.md R330): one write of its own kind, in any
state, and nothing where it is stopped. -/

namespace Sys2Proof

/-- The four commands that store to DBUF (20_memory.md R81). -/
def Instr.Stores (i : Instr) : Prop :=
  ∃ r off len, i = .sstle r off len ∨ i = .sstbe r off len ∨ i = .gst r off len ∨ i = .tst r off len

end Sys2Proof

namespace Sys2Proof.Machine

/-! ### One write of a command -/

/-- What the rule of a command may make of a state before it completes with ok: nothing, or one write to what the command
names, after a draw or not. -/
inductive Wrote (i : Instr) (s : State) : State → Prop
  | nothing : Wrote i s s
  | scalar {f : RegField} (h : i.dest = some (.s f)) (m : Nat) : Wrote i s (s.setS (sIndex f) m)
  | drawnScalar {f : RegField} (h : i.dest = some (.s f)) (m : Nat) : Wrote i s (s.drawn.setS (sIndex f) m)
  | gt {f : RegField} (h : i.dest = some (.g f)) (hf : f.toNat < 8) (a : Fp12) : Wrote i s (s.setG ⟨f.toNat, hf⟩ a)
  | drawnGt {f : RegField} (h : i.dest = some (.g f)) (hf : f.toNat < 8) (a : Fp12) :
    Wrote i s (s.drawn.setG ⟨f.toNat, hf⟩ a)
  | torus {f : RegField} (h : i.dest = some (.t f)) (hf : f.toNat < 4) (x : Fp6) : Wrote i s (s.setT ⟨f.toNat, hf⟩ x)
  | result (h : i.writesResult = true) (v : Word) : Wrote i s (s.setResult v)
  | stored (h : i.Stores) (off : Nat) (bs : List Byte) : Wrote i s (s.store off bs)

/-- A rule, or the rest of one, that leaves a state of the given kind wherever it gives a result. -/
def Leaves (P : State → Prop) (x : Except Stop State) : Prop := ∀ u, x = .ok u → P u

section

variable {P : State → Prop} {α : Type}

theorem Leaves.pure {u : State} (h : P u) : Leaves P (Pure.pure u) := fun _ hu => pure_eq_ok.1 hu ▸ h

theorem Leaves.throw {e : Stop} : Leaves P (MonadExcept.throw e) := fun _ hu => (throw_ne_ok hu).elim

theorem Leaves.bind {x : Except Stop α} {f : α → Except Stop State} (h : ∀ a, Leaves P (f a)) : Leaves P (x >>= f) := by
  intro u hu
  obtain ⟨a, -, hu⟩ := bind_eq_ok.1 hu
  exact h a u hu

theorem Leaves.ite {c : Prop} [Decidable c] {x y : Except Stop State} (hx : Leaves P x) (hy : Leaves P y) :
    Leaves P (if c then x else y) := by
  split
  · exact hx
  · exact hy

theorem Leaves.gIndex {f : RegField} {rest : Fin 8 → Except Stop State}
    (h : ∀ hf : f.toNat < 8, Leaves P (rest ⟨f.toNat, hf⟩)) : Leaves P (gIndex f >>= rest) := by
  intro u hu
  obtain ⟨i, hi, hu⟩ := bind_eq_ok.1 hu
  have hf : f.toNat < 8 := by rw [gIndex_eq_ok.1 hi]; exact i.isLt
  cases (gIndex_ok hf).symm.trans hi
  exact h hf u hu

theorem Leaves.tIndex {f : RegField} {rest : Fin 4 → Except Stop State}
    (h : ∀ hf : f.toNat < 4, Leaves P (rest ⟨f.toNat, hf⟩)) : Leaves P (tIndex f >>= rest) := by
  intro u hu
  obtain ⟨i, hi, hu⟩ := bind_eq_ok.1 hu
  have hf : f.toNat < 4 := by rw [tIndex_eq_ok.1 hi]; exact i.isLt
  cases (tIndex_ok hf).symm.trans hi
  exact h hf u hu

end

/-- Every command but GRAND is a rule that leaves at most its one write. -/
theorem rule_wrote (i : Instr) :
    (∃ rule, (∀ s, exec i s = runCommand rule s) ∧ ∀ s, Leaves (Wrote i s) (rule s)) ∨ ∃ d, i = .grand d := by
  cases i with
  | nop => exact .inl ⟨_, fun _ => rfl, fun _ => .pure .nothing⟩
  | sadd d a b => exact .inl ⟨_, fun _ => rfl, fun _ => .bind fun _ => .bind fun _ => .pure (.scalar rfl _)⟩
  | ssub d a b => exact .inl ⟨_, fun _ => rfl, fun _ => .bind fun _ => .bind fun _ => .pure (.scalar rfl _)⟩
  | smul d a b => exact .inl ⟨_, fun _ => rfl, fun _ => .bind fun _ => .bind fun _ => .pure (.scalar rfl _)⟩
  | sneg d a => exact .inl ⟨_, fun _ => rfl, fun _ => .bind fun _ => .pure (.scalar rfl _)⟩
  | sdbl d a => exact .inl ⟨_, fun _ => rfl, fun _ => .bind fun _ => .pure (.scalar rfl _)⟩
  | ssqr d a => exact .inl ⟨_, fun _ => rfl, fun _ => .bind fun _ => .pure (.scalar rfl _)⟩
  | sinv d a => exact .inl ⟨_, fun _ => rfl, fun _ => .bind fun _ => .ite .throw (.pure (.scalar rfl _))⟩
  | sdiv d a b =>
    exact .inl ⟨_, fun _ => rfl, fun _ => .bind fun _ => .bind fun _ => .ite .throw (.pure (.scalar rfl _))⟩
  | spow d a b => exact .inl ⟨_, fun _ => rfl, fun _ => .bind fun _ => .bind fun _ => .pure (.scalar rfl _)⟩
  | ssqrt d a =>
    exact .inl ⟨_, fun _ => rfl, fun _ => .bind fun _ => .ite (.pure (.scalar rfl _)) (.ite .throw (.pure (.drawnScalar rfl _)))⟩
  | sleg a => exact .inl ⟨_, fun _ => rfl, fun _ => .bind fun _ => .pure (.result rfl _)⟩
  | sshl d a imm => exact .inl ⟨_, fun _ => rfl, fun _ => .bind fun _ => .pure (.scalar rfl _)⟩
  | sshr d a imm => exact .inl ⟨_, fun _ => rfl, fun _ => .bind fun _ => .pure (.scalar rfl _)⟩
  | seq a b => exact .inl ⟨_, fun _ => rfl, fun _ => .bind fun _ => .bind fun _ => .pure (.result rfl _)⟩
  | scmp a b => exact .inl ⟨_, fun _ => rfl, fun _ => .bind fun _ => .bind fun _ => .pure (.result rfl _)⟩
  | sisz a => exact .inl ⟨_, fun _ => rfl, fun _ => .bind fun _ => .pure (.result rfl _)⟩
  | ssel d a b => exact .inl ⟨_, fun _ => rfl, fun _ => .bind fun _ => .bind fun _ => .pure (.scalar rfl _)⟩
  | smov d a => exact .inl ⟨_, fun _ => rfl, fun _ => .bind fun _ => .pure (.scalar rfl _)⟩
  | szero d => exact .inl ⟨_, fun _ => rfl, fun _ => .pure (.scalar rfl _)⟩
  | sone d => exact .inl ⟨_, fun _ => rfl, fun _ => .pure (.scalar rfl _)⟩
  | simm d imm => exact .inl ⟨_, fun _ => rfl, fun _ => .pure (.scalar rfl _)⟩
  | snbits a => exact .inl ⟨_, fun _ => rfl, fun _ => .bind fun _ => .pure (.result rfl _)⟩
  | srand d => exact .inl ⟨_, fun _ => rfl, fun _ => .pure (.drawnScalar rfl _)⟩
  | sldle r off len => exact .inl ⟨_, fun _ => rfl, fun _ => .bind fun _ => .ite .throw (.pure (.scalar rfl _))⟩
  | sldbe r off len => exact .inl ⟨_, fun _ => rfl, fun _ => .bind fun _ => .ite .throw (.pure (.scalar rfl _))⟩
  | sstle r off len =>
    exact .inl ⟨_, fun _ => rfl, fun _ => .bind fun _ => .bind fun _ => .pure (.stored (by simp [Instr.Stores]) _ _)⟩
  | sstbe r off len =>
    exact .inl ⟨_, fun _ => rfl, fun _ => .bind fun _ => .bind fun _ => .pure (.stored (by simp [Instr.Stores]) _ _)⟩
  | sldraw r off len => exact .inl ⟨_, fun _ => rfl, fun _ => .bind fun _ => .pure (.scalar rfl _)⟩
  | sldwide r off len => exact .inl ⟨_, fun _ => rfl, fun _ => .bind fun _ => .pure (.scalar rfl _)⟩
  | sldokm r off len => exact .inl ⟨_, fun _ => rfl, fun _ => .bind fun _ => .pure (.scalar rfl _)⟩
  | gadd d a b =>
    exact .inl ⟨_, fun _ => rfl, fun _ => .gIndex fun _ => .bind fun _ => .bind fun _ => .bind fun _ => .bind fun _ => .pure (.gt rfl _ _)⟩
  | gsub d a b =>
    exact .inl ⟨_, fun _ => rfl, fun _ => .gIndex fun _ => .bind fun _ => .bind fun _ => .bind fun _ => .bind fun _ => .pure (.gt rfl _ _)⟩
  | gneg d a =>
    exact .inl ⟨_, fun _ => rfl, fun _ => .gIndex fun _ => .bind fun _ => .bind fun _ => .pure (.gt rfl _ _)⟩
  | gdbl d a =>
    exact .inl ⟨_, fun _ => rfl, fun _ => .gIndex fun _ => .bind fun _ => .bind fun _ => .pure (.gt rfl _ _)⟩
  | gsmul d a b =>
    exact .inl ⟨_, fun _ => rfl, fun _ => .gIndex fun _ => .bind fun _ => .bind fun _ => .bind fun _ => .pure (.gt rfl _ _)⟩
  | ginv d a => exact .inl ⟨_, fun _ => rfl, fun _ => .gIndex fun _ => .bind fun _ => .bind fun _ => by
      split
      · exact .throw
      · exact .pure (.gt rfl _ _)⟩
  | gone d => exact .inl ⟨_, fun _ => rfl, fun _ => .gIndex fun _ => .pure (.gt rfl _ _)⟩
  | ggen d => exact .inl ⟨_, fun _ => rfl, fun _ => .gIndex fun _ => .pure (.gt rfl _ _)⟩
  | grand d => exact .inr ⟨d, rfl⟩
  | gisid a => exact .inl ⟨_, fun _ => rfl, fun _ => .bind fun _ => .bind fun _ => .pure (.result rfl _)⟩
  | geq a b =>
    exact .inl ⟨_, fun _ => rfl, fun _ => .bind fun _ => .bind fun _ => .bind fun _ => .bind fun _ => .pure (.result rfl _)⟩
  | gsubg a => exact .inl ⟨_, fun _ => rfl, fun _ => .bind fun _ => .bind fun _ => .pure (.result rfl _)⟩
  | gmov d a =>
    exact .inl ⟨_, fun _ => rfl, fun _ => .gIndex fun _ => .bind fun _ => .bind fun _ => .pure (.gt rfl _ _)⟩
  | gld r off len => exact .inl ⟨_, fun _ => rfl, fun _ => .gIndex fun _ => .bind fun _ => by
      split
      · exact .throw
      · exact .ite (.pure (.gt rfl _ _)) .throw⟩
  | gldu r off len => exact .inl ⟨_, fun _ => rfl, fun _ => .gIndex fun _ => .bind fun _ => by
      split
      · exact .throw
      · exact .pure (.gt rfl _ _)⟩
  | gst r off len =>
    exact .inl ⟨_, fun _ => rfl, fun _ => .bind fun _ => .bind fun _ => .bind fun _ => .pure (.stored (by simp [Instr.Stores]) _ _)⟩
  | gcmpr d a => exact .inl ⟨_, fun _ => rfl, fun _ => .tIndex fun _ => .bind fun _ => .bind fun _ => by
      split
      · exact .throw
      · exact .pure (.torus rfl _ _)⟩
  | guncmpr d a =>
    exact .inl ⟨_, fun _ => rfl, fun _ => .gIndex fun _ => .bind fun _ => .bind fun _ => .bind fun _ => .pure (.gt rfl _ _)⟩
  | tld r off len => exact .inl ⟨_, fun _ => rfl, fun _ => .tIndex fun _ => .bind fun _ => by
      split
      · exact .throw
      · exact .pure (.torus rfl _ _)⟩
  | tst r off len =>
    exact .inl ⟨_, fun _ => rfl, fun _ => .bind fun _ => .bind fun _ => .bind fun _ => .pure (.stored (by simp [Instr.Stores]) _ _)⟩

/-! ### How a command ends -/

/-- Everything a command can do, in any state: it is stopped and has written nothing, or it ends with ok after its one
write, or it is a GRAND whose draws were all zero. -/
theorem exec_cases {i : Instr} {s t : State} (h : exec i s = .next t) :
    (∃ e, t = s.complete (some e)) ∨ (∃ u, Wrote i s u ∧ t = u.complete none) ∨
      ((∃ d, i = .grand d) ∧ s.drawFp12 = Fp12.zero ∧ t = s.drawn) := by
  obtain ⟨rule, hrule, hwrote⟩ | ⟨d, rfl⟩ := rule_wrote i
  · rw [hrule] at h
    obtain ⟨-, rfl⟩ | ⟨-, e, -, rfl⟩ | ⟨-, u, hu, rfl⟩ := runCommand_cases h
    · exact .inl ⟨_, rfl⟩
    · exact .inl ⟨e, rfl⟩
    · exact .inr (.inl ⟨u, hwrote s u hu, rfl⟩)
  · change execGrand d s = .next t at h
    by_cases hs : s.status.halted = true
    · rw [execGrand_of_halted d hs] at h
      cases h
      exact .inl ⟨_, rfl⟩
    rw [execGrand, if_neg hs] at h
    by_cases hd : d.toNat < 8
    · rw [gIndex_ok hd] at h
      cases h
      rw [grandRound]
      split
      next hz => exact .inr (.inr ⟨⟨d, rfl⟩, hz, rfl⟩)
      next => exact .inr (.inl ⟨_, .drawnGt rfl hd _, rfl⟩)
    · rw [gIndex_bad (by omega)] at h
      cases h
      exact .inl ⟨_, rfl⟩

/-- Every command answers with a next state. -/
theorem exec_next (i : Instr) (s : State) : ∃ t, exec i s = .next t := by
  obtain ⟨rule, hrule⟩ | ⟨d, rfl⟩ := exec_eq_runCommand_or_grand i
  · exact ⟨_, hrule s⟩
  · show ∃ t, execGrand d s = .next t
    rw [execGrand]
    split
    · exact ⟨_, rfl⟩
    · split <;> exact ⟨_, rfl⟩

/-- How a word can end: as its command does, or stopped because it is no command. -/
theorem runWord_next (w : Word) (s : State) : ∃ t, runWord w s = .next t := by
  cases hw : decodeWord w with
  | ok i =>
    rw [runWord_of_decode_ok hw]
    exact exec_next i s
  | error e =>
    rw [runWord, hw]
    exact ⟨_, rfl⟩

/-! ### What one write leaves unchanged -/

section

variable {i : Instr} {s u : State} (h : Wrote i s u)
include h

theorem Wrote.status : u.status = s.status := by cases h <;> rfl

theorem Wrote.hostSide : SameHostSide s u := by cases h <;> exact ⟨rfl, rfl, rfl, rfl, rfl, rfl⟩

theorem Wrote.draws_le : s.draws ≤ u.draws := by cases h <;> simp

theorem Wrote.result_eq (hi : i.writesResult = false) : u.result = s.result := by
  cases h with
  | result hq v => exact absurd (hq.symm.trans hi) nofun
  | _ => rfl

theorem Wrote.sameBuffer (hi : ¬ i.Stores) : SameBuffer s u := by
  cases h with
  | stored hst off bs => exact absurd hst hi
  | _ => exact fun _ => rfl

/-- The S registers but the destination are as they were. -/
theorem Wrote.sameScalar (k : Fin 16) (hk : i.dest ≠ some (.s (BitVec.ofNat 4 k))) :
    u.sreg[k] = s.sreg[k] ∧ u.sv[k] = s.sv[k] := by
  have hne : ∀ {f : RegField}, i.dest = some (.s f) → k ∉ [sIndex f] := fun {f} hd hmem => by
    obtain rfl := List.mem_singleton.1 hmem
    exact hk (by rw [hd]; simp [sIndex])
  cases h with
  | scalar hd m => exact sameScalars_set s _ m k (hne hd)
  | drawnScalar hd m => exact sameScalars_set s.drawn _ m k (hne hd)
  | _ => exact ⟨rfl, rfl⟩

/-- The G registers but the destination are as they were. -/
theorem Wrote.sameGt (k : Fin 8) (hk : i.dest ≠ some (.g (BitVec.ofNat 4 k))) :
    u.greg[k] = s.greg[k] ∧ u.gv[k] = s.gv[k] := by
  have hne : ∀ {f : RegField} (hf : f.toNat < 8), i.dest = some (.g f) → k ∉ [(⟨f.toNat, hf⟩ : Fin 8)] :=
    fun {f} hf hd hmem => by
      obtain rfl := List.mem_singleton.1 hmem
      exact hk (by rw [hd]; simp)
  cases h with
  | gt hd hf a => exact sameGts_set s _ a k (hne hf hd)
  | drawnGt hd hf a => exact sameGts_set s.drawn _ a k (hne hf hd)
  | _ => exact ⟨rfl, rfl⟩

/-- The T registers but the destination are as they were. -/
theorem Wrote.sameTorus (k : Fin 4) (hk : i.dest ≠ some (.t (BitVec.ofNat 4 k))) :
    u.treg[k] = s.treg[k] ∧ u.tv[k] = s.tv[k] := by
  cases h with
  | torus hd hf x =>
    refine sameTori_set s _ x k fun hmem => hk ?_
    obtain rfl := List.mem_singleton.1 hmem
    rw [hd]
    simp
  | _ => exact ⟨rfl, rfl⟩

end

/-- Setting a valid bit invalidates no register. -/
theorem getElem_set_true {n : Nat} {bits : Vector Bool n} (d k : Fin n) (h : bits[k] = true) :
    (bits.set d true)[k] = true := by
  simp only [Fin.getElem_fin, Vector.getElem_set] at h ⊢
  split
  · rfl
  · exact h

section

variable {i : Instr} {s u : State} (h : Wrote i s u)
include h

theorem Wrote.sv (k : Fin 16) (hk : s.sv[k] = true) : u.sv[k] = true := by
  cases h with
  | scalar | drawnScalar => exact getElem_set_true _ k hk
  | _ => exact hk

theorem Wrote.gv (k : Fin 8) (hk : s.gv[k] = true) : u.gv[k] = true := by
  cases h with
  | gt | drawnGt => exact getElem_set_true _ k hk
  | _ => exact hk

theorem Wrote.tv (k : Fin 4) (hk : s.tv[k] = true) : u.tv[k] = true := by
  cases h with
  | torus => exact getElem_set_true _ k hk
  | _ => exact hk

end

/-! ### The statements -/

/-- Settles O15: a command that is stopped wrote nothing, and each of the writes of one that is not is its own. -/
theorem commandsKeepWhatIsNotTheirs : Obligations.CommandsKeepWhatIsNotTheirs := by
  intro i s t h
  obtain ⟨e, rfl⟩ | ⟨u, hu, rfl⟩ | ⟨-, -, rfl⟩ := exec_cases h
  · exact ⟨⟨rfl, rfl, rfl, rfl, rfl, rfl⟩, fun _ _ => ⟨rfl, rfl⟩, fun _ _ => ⟨rfl, rfl⟩, fun _ _ => ⟨rfl, rfl⟩,
      fun _ => id, fun _ => id, fun _ => id, fun _ => rfl, fun _ _ => rfl⟩
  · refine ⟨hu.hostSide, hu.sameScalar, hu.sameGt, hu.sameTorus, hu.sv, hu.gv, hu.tv, hu.result_eq, fun hi => ?_⟩
    refine hu.sameBuffer ?_
    rintro ⟨r, off, len, hst⟩
    obtain ⟨h1, h2, h3, h4⟩ := hi r off len
    obtain rfl | rfl | rfl | rfl := hst <;> contradiction
  · exact ⟨⟨rfl, rfl, rfl, rfl, rfl, rfl⟩, fun _ _ => ⟨rfl, rfl⟩, fun _ _ => ⟨rfl, rfl⟩, fun _ _ => ⟨rfl, rfl⟩,
      fun _ => id, fun _ => id, fun _ => id, fun _ => rfl, fun _ _ => rfl⟩

/-- How a word can end: stopped, or as the command that it decodes to. -/
theorem runWord_ends {w : Word} {s t : State} (h : runWord w s = .next t) :
    (∃ e, t = s.complete (some e)) ∨ (∃ i u, Wrote i s u ∧ t = u.complete none) ∨
      (∃ d, decodeWord w = .ok (.grand d) ∧ s.drawFp12 = Fp12.zero ∧ t = s.drawn) := by
  cases hw : decodeWord w with
  | ok i =>
    rw [runWord_of_decode_ok hw] at h
    obtain hstop | ⟨u, hu, rfl⟩ | ⟨⟨d, rfl⟩, hz, rfl⟩ := exec_cases h
    · exact .inl hstop
    · exact .inr (.inl ⟨i, u, hu, rfl⟩)
    · exact .inr (.inr ⟨d, rfl, hz, rfl⟩)
  | error e =>
    rw [runWord, hw] at h
    obtain ⟨-, rfl⟩ | ⟨-, e, -, rfl⟩ | ⟨-, u, hu, -⟩ := runCommand_cases h
    · exact .inl ⟨_, rfl⟩
    · exact .inl ⟨e, rfl⟩
    · cases hu

/-- Settles O14, by how a word can end. -/
theorem everyWordHasOneOutcome : Obligations.EveryWordHasOneOutcome := by
  intro w s
  obtain ⟨t, ht⟩ := runWord_next w s
  refine ⟨t, ht, ?_⟩
  obtain ⟨e, rfl⟩ | ⟨i, u, hu, rfl⟩ | hdrawn := runWord_ends ht
  · cases e with
    | none r => exact .inr (.inl ⟨r, rfl, rfl⟩)
    | error c => exact .inr (.inr (.inl ⟨c, rfl, rfl⟩))
  · refine .inl ⟨?_, rfl⟩
    rw [State.complete_status, Status.update_ok, hu.status]
  · exact .inr (.inr (.inr hdrawn))

/-! ### The parameters -/

/-- A step keeps the parameters and takes back no draw. -/
def Keeps (s t : State) : Prop := t.platform = s.platform ∧ s.draws ≤ t.draws

theorem runWord_keeps {w : Word} {s t : State} (h : runWord w s = .next t) : Keeps s t := by
  obtain ⟨e, rfl⟩ | ⟨i, u, hu, rfl⟩ | ⟨d, -, -, rfl⟩ := runWord_ends h
  · exact ⟨rfl, le_rfl⟩
  · obtain ⟨-, hplatform, -⟩ := hu.hostSide
    exact ⟨hplatform, hu.draws_le⟩
  · exact ⟨rfl, Nat.le_succ _⟩

theorem engineTurn_next (s : State) : ∃ t, engineTurn s = .next t := by
  rw [engineTurn]
  cases s.pend with
  | none => exact ⟨s, rfl⟩
  | some w => exact runWord_next w s

theorem engineTurn_keeps {s t : State} (h : engineTurn s = .next t) : Keeps s t := by
  rw [engineTurn] at h
  cases hp : s.pend with
  | none =>
    rw [hp] at h
    cases h
    exact ⟨rfl, le_rfl⟩
  | some w =>
    rw [hp] at h
    exact runWord_keeps h

theorem State.perform_keeps (s : State) (a : Access) : Keeps s (s.perform a) := by
  by_cases ha : s.addressed a = true
  · cases a with
    | read addr width =>
      rw [State.perform_read ha]
      exact ⟨rfl, le_rfl⟩
    | write addr width data =>
      rw [State.perform_write ha]
      cases targetAt (addr % windowSize) width with
      | ctrl =>
        show Keeps s { s.writeCtrl data with lastResp := _ }
        rw [State.writeCtrl]
        split <;> exact ⟨rfl, le_rfl⟩
      | _ => exact ⟨rfl, le_rfl⟩
  · rw [State.perform_of_not_addressed (Bool.eq_false_iff.2 ha)]
    exact ⟨rfl, le_rfl⟩

theorem State.setRstN_keeps (s : State) (level : Bool) : Keeps s (s.setRstN level) := by
  rw [State.setRstN]
  split <;> exact ⟨rfl, le_rfl⟩

theorem step_next (s : State) : ∃ t, step s = .next t := by
  rw [step]
  split
  · exact engineTurn_next _
  · exact ⟨_, rfl⟩
  · exact ⟨_, rfl⟩
  · exact ⟨_, rfl⟩

/-- Settles O18, by what a step can be. -/
theorem everyStepAnswersAndKeepsParameters : Obligations.EveryStepAnswersAndKeepsParameters := by
  intro s
  obtain ⟨t, h⟩ := step_next s
  refine ⟨t, h, ?_⟩
  obtain ⟨level, rest, -, rfl⟩ | ⟨a, waiting, -, -, -, rfl⟩ | ⟨-, h⟩ := step_cases h
  · exact State.setRstN_keeps { s with inputs := rest } level
  · exact State.perform_keeps { s with held := waiting } a
  · obtain ⟨-, h⟩ | ⟨rest, -, h⟩ | ⟨a, rest, -, -, rfl⟩ | ⟨a, rest, -, -, rfl⟩ := h
    · exact engineTurn_keeps h
    · exact (engineTurn_keeps h : Keeps { s with inputs := rest } t)
    · exact ⟨rfl, le_rfl⟩
    · exact State.perform_keeps { s with inputs := rest } a

end Sys2Proof.Machine
end

section
/-! SUPPORT. Check 5 of 60_exceptions.md R334 (R336): a command reads its sources right after its range checks, so one
invalid source stops it with UNINIT; and the errors BOUNDS (R339) and DIV_BY_ZERO (R343). -/

namespace Sys2Proof.Machine

/-! ### Invalid sources -/

/-- A rule, or the rest of one, that is stopped with UNINIT. -/
def Uninit {α : Type} (x : Except Stop α) : Prop := x = .error (.error .uninit)

section

variable {s : State} {α : Type}

theorem Uninit.gIndex {f : RegField} {rest : Fin 8 → Except Stop α} (hf : f.toNat < 8)
    (h : Uninit (rest ⟨f.toNat, hf⟩)) : Uninit (gIndex f >>= rest) := by
  rw [Uninit, gIndex_ok hf]
  exact h

theorem Uninit.tIndex {f : RegField} {rest : Fin 4 → Except Stop α} (hf : f.toNat < 4)
    (h : Uninit (rest ⟨f.toNat, hf⟩)) : Uninit (tIndex f >>= rest) := by
  rw [Uninit, tIndex_ok hf]
  exact h

/-! A read of a register stops the rule, or the register is valid and the rest stops it. -/

theorem Uninit.residue {f : RegField} {rest : Nat → Except Stop α} (h : s.sv[sIndex f] = true → ∀ m, Uninit (rest m)) :
    Uninit (s.residue (sIndex f) >>= rest) := by
  cases hv : s.sv[sIndex f] with
  | false => rw [Uninit, State.residue_uninit hv]; rfl
  | true => rw [Uninit, State.residue_ok hv]; exact h hv _

theorem Uninit.scalar {f : RegField} {rest : Nat → Except Stop α} (h : s.sv[sIndex f] = true → ∀ x, Uninit (rest x)) :
    Uninit (s.scalar (sIndex f) >>= rest) := by
  cases hv : s.sv[sIndex f] with
  | false => rw [Uninit, State.scalar_uninit hv]; rfl
  | true => rw [Uninit, State.scalar_ok hv]; exact h hv _

theorem Uninit.gt {f : RegField} {hf : f.toNat < 8} {rest : Fp12 → Except Stop α}
    (h : s.gv[f.toNat] = true → ∀ x, Uninit (rest x)) : Uninit (s.gt ⟨f.toNat, hf⟩ >>= rest) := by
  cases hv : s.gv[(⟨f.toNat, hf⟩ : Fin 8)] with
  | false => rw [Uninit, State.gt_uninit hv]; rfl
  | true => rw [Uninit, State.gt_ok hv]; exact h hv _

theorem Uninit.torus {f : RegField} {hf : f.toNat < 4} {rest : Fp6 → Except Stop α}
    (h : s.tv[f.toNat] = true → ∀ x, Uninit (rest x)) : Uninit (s.torus ⟨f.toNat, hf⟩ >>= rest) := by
  cases hv : s.tv[(⟨f.toNat, hf⟩ : Fin 4)] with
  | false => rw [Uninit, State.torus_uninit hv]; rfl
  | true => rw [Uninit, State.torus_ok hv]; exact h hv _

end

/-- The sources of a command, as the conjunction over its lists. -/
theorem sourcesValid_iff {s : State} {i : Instr} : s.SourcesValid i ↔
    (i.sSources.Forall fun f => s.sv[f.toFin] = true) ∧
    (i.gSources.Forall fun f => ∀ h : f.toNat < 8, s.gv[f.toNat] = true) ∧
    (i.tSources.Forall fun f => ∀ h : f.toNat < 4, s.tv[f.toNat] = true) := by
  simp only [State.SourcesValid, List.forall_iff_forall_mem]

/-- Where the sources are not all valid, the reads do not all succeed. -/
theorem exec_of_invalid_source {i : Instr} {s : State} (hs : s.status.halted = false) (hi : i.wellFormed = true)
    (hv : ¬ s.SourcesValid i) : exec i s = .next (s.complete (some (.error .uninit))) := by
  rw [sourcesValid_iff] at hv
  cases i with
  | sadd d a b | ssub d a b | sdiv d a b | spow d a b =>
    rw [exec]
    exact runCommand_of_error hs (Uninit.scalar fun ha _ => .scalar fun hb _ => absurd ⟨⟨ha, hb⟩, trivial, trivial⟩ hv)
  | scmp a b =>
    rw [exec]
    exact runCommand_of_error hs (Uninit.scalar fun ha _ => .scalar fun hb _ => absurd ⟨⟨ha, hb⟩, trivial, trivial⟩ hv)
  | smul d a b | ssel d a b =>
    rw [exec]
    exact runCommand_of_error hs (Uninit.residue fun ha _ => .residue fun hb _ => absurd ⟨⟨ha, hb⟩, trivial, trivial⟩ hv)
  | seq a b =>
    rw [exec]
    exact runCommand_of_error hs (Uninit.residue fun ha _ => .residue fun hb _ => absurd ⟨⟨ha, hb⟩, trivial, trivial⟩ hv)
  | sneg d a | sdbl d a | sinv d a | ssqrt d a =>
    rw [exec]
    exact runCommand_of_error hs (Uninit.scalar fun ha _ => absurd ⟨ha, trivial, trivial⟩ hv)
  | sleg a | sisz a | snbits a =>
    rw [exec]
    exact runCommand_of_error hs (Uninit.scalar fun ha _ => absurd ⟨ha, trivial, trivial⟩ hv)
  | sstle r off len | sstbe r off len =>
    rw [exec]
    exact runCommand_of_error hs (Uninit.scalar fun hr _ => absurd ⟨hr, trivial, trivial⟩ hv)
  | ssqr d a | smov d a =>
    rw [exec]
    exact runCommand_of_error hs (Uninit.residue fun ha _ => absurd ⟨ha, trivial, trivial⟩ hv)
  | sshl d a n | sshr d a n =>
    rw [exec]
    exact runCommand_of_error hs (Uninit.residue fun ha _ => absurd ⟨ha, trivial, trivial⟩ hv)
  | gadd d a b | gsub d a b =>
    simp only [Instr.wellFormed, gField, Bool.and_eq_true, decide_eq_true_eq] at hi
    obtain ⟨⟨hd, ha⟩, hb⟩ := hi
    rw [exec]
    exact runCommand_of_error hs (Uninit.gIndex hd (.gIndex ha (.gIndex hb (.gt fun ha _ => .gt fun hb _ =>
      absurd ⟨trivial, ⟨fun _ => ha, fun _ => hb⟩, trivial⟩ hv))))
  | gneg d a | gdbl d a | ginv d a | gmov d a =>
    simp only [Instr.wellFormed, gField, Bool.and_eq_true, decide_eq_true_eq] at hi
    rw [exec]
    exact runCommand_of_error hs (Uninit.gIndex hi.1 (.gIndex hi.2 (.gt fun ha _ =>
      absurd ⟨trivial, fun _ => ha, trivial⟩ hv)))
  | gsmul d a b =>
    simp only [Instr.wellFormed, gField, Bool.and_eq_true, decide_eq_true_eq] at hi
    rw [exec]
    exact runCommand_of_error hs (Uninit.gIndex hi.1 (.gIndex hi.2 (.gt fun ha _ => .scalar fun hb _ =>
      absurd ⟨hb, fun _ => ha, trivial⟩ hv)))
  | gisid a | gsubg a =>
    rw [exec]
    exact runCommand_of_error hs (Uninit.gIndex (of_decide_eq_true hi) (.gt fun ha _ =>
      absurd ⟨trivial, fun _ => ha, trivial⟩ hv))
  | geq a b =>
    simp only [Instr.wellFormed, gField, Bool.and_eq_true, decide_eq_true_eq] at hi
    rw [exec]
    exact runCommand_of_error hs (Uninit.gIndex hi.1 (.gIndex hi.2 (.gt fun ha _ => .gt fun hb _ =>
      absurd ⟨trivial, ⟨fun _ => ha, fun _ => hb⟩, trivial⟩ hv)))
  | gst r off len =>
    rw [exec]
    exact runCommand_of_error hs (Uninit.gIndex (of_decide_eq_true hi) (.gt fun hr _ =>
      absurd ⟨trivial, fun _ => hr, trivial⟩ hv))
  | gcmpr d a =>
    simp only [Instr.wellFormed, gField, tField, Bool.and_eq_true, decide_eq_true_eq] at hi
    rw [exec]
    exact runCommand_of_error hs (Uninit.tIndex hi.1 (.gIndex hi.2 (.gt fun ha _ =>
      absurd ⟨trivial, fun _ => ha, trivial⟩ hv)))
  | guncmpr d a =>
    simp only [Instr.wellFormed, gField, tField, Bool.and_eq_true, decide_eq_true_eq] at hi
    rw [exec]
    exact runCommand_of_error hs (Uninit.gIndex hi.1 (.tIndex hi.2 (.torus fun ha _ =>
      absurd ⟨trivial, trivial, fun _ => ha⟩ hv)))
  | tst r off len =>
    rw [exec]
    exact runCommand_of_error hs (Uninit.tIndex (of_decide_eq_true hi) (.torus fun hr _ =>
      absurd ⟨trivial, trivial, fun _ => hr⟩ hv))
  | _ => exact absurd ⟨trivial, trivial, trivial⟩ hv

/-- Settles O9: the reads come right after the range checks. -/
theorem invalidSourceIsUninit : Obligations.InvalidSourceIsUninit :=
  fun _ s hs hi hv => ⟨_, exec_of_invalid_source hs hi hv, s.complete_endsError (by decide)⟩

/-! ### Ranges past the end of DBUF -/

theorem bufferRange_bounds {off : BitVec 6} {len : BitVec 12} {lreq : Nat} (hlen : len.toNat = lreq)
    (h : dbufSize < off.toNat * 16 + lreq) : bufferRange off len lreq = .error (.error .bounds) := by
  rw [bufferRange, if_neg (not_not.2 hlen), if_pos h]

/-- Settles O12: `bufferRange` answers BOUNDS, and the command stops there. -/
theorem rangePastDbufIsBounds : Obligations.RangePastDbufIsBounds :=
  fun _ s _ _ _ hbuf hs hi hv hlen h =>
    ⟨_, exec_of_bufferRange_error hbuf hs hi hv (bufferRange_bounds hlen h), s.complete_endsError (by decide)⟩

/-! ### The halted block -/

theorem exec_sdiv_zero {s : State} {d a b : RegField} (hs : s.status.halted = false) (ha : s.sv[sIndex a] = true)
    (hb : s.sv[sIndex b] = true) (hz : s.canonical (sIndex b) = 0) :
    exec (.sdiv d a b) s = .next (s.complete (some (.error .divByZero))) := by
  rw [exec, execSdiv]
  refine runCommand_of_error hs (bind_eq_error.2 (.inr ⟨_, State.scalar_ok ha, bind_eq_error.2 (.inr
    ⟨_, State.scalar_ok hb, ?_⟩)⟩))
  rw [if_pos hz]
  rfl

/-- A reset leaves the block running, and what resets it is SRST or a level of rst_n that is an event. -/
theorem State.setRstN_halted {s : State} {level : Bool} (h : level = true → s.rstN = false) :
    (s.setRstN level).status.halted = false := by
  rw [State.setRstN_of_reset h]
  rfl

theorem State.writeCtrl_srst_halted (s : State) {data : Word} (h : data.getLsbD 1 = true) :
    (s.writeCtrl data).status.halted = false := by
  rw [State.writeCtrl, if_pos h]
  rfl

theorem DoneError.of_halted {s : State} (w : Word) (hs : s.status.halted = true) :
    ∃ u, runWord w s = .next u ∧ DoneError s u 7 true ∧ OnlyStatus s u := by
  obtain ⟨h, -⟩ := haltedBlockRejectsEveryWord s w hs
  exact h

theorem engineTurn_halted {s : State} (hs : s.status.halted = true) :
    ∃ t, engineTurn s = .next t ∧ t.status.halted = true := by
  rw [engineTurn]
  cases s.pend with
  | none => exact ⟨s, rfl, hs⟩
  | some w =>
    obtain ⟨u, hu, hdone, -⟩ := DoneError.of_halted w hs
    exact ⟨u, hu, by rw [hdone.1]⟩

/-- Only a 4-byte access to 0x004 reaches CTRL (20_memory.md R85, R88). -/
theorem targetAt_eq_ctrl {o : Nat} {w : Width} (h : targetAt o w = .ctrl) : w = .word ∧ o = 0x004 := by
  rcases Nat.lt_or_ge o 0x014 with hlow | hhigh
  · interval_cases o <;> cases w <;> revert h <;> decide
  · rcases Nat.lt_or_ge o 0x400 with hres | hbuf
    · rw [targetAt_reserved hhigh hres] at h
      cases h
    · rw [targetAt_high hbuf] at h
      split at h <;> cases h

/-- An access leaves HALTED as it is, unless it is a write to CTRL with SRST. -/
theorem State.perform_halted {s : State} (hs : s.status.halted = true) (a : Access) :
    (s.perform a).status.halted = true ∨
      ∃ addr data, a = .write addr .word data ∧ addr % 0x800 = 0x004 ∧ data.getLsbD 1 = true ∧
        s.addressed (.write addr .word data) = true := by
  by_cases ha : s.addressed a = true
  · cases a with
    | read addr width =>
      rw [State.perform_read ha]
      exact .inl hs
    | write addr width data =>
      rw [State.perform_write ha]
      cases htarget : targetAt (addr % windowSize) width with
      | ctrl =>
        obtain ⟨rfl, hoff⟩ := targetAt_eq_ctrl htarget
        by_cases hbit : data.getLsbD 1 = true
        · exact .inr ⟨addr, data, rfl, hoff, hbit, ha⟩
        · left
          show (s.writeCtrl data).status.halted = true
          rw [State.writeCtrl, if_neg hbit]
          exact hs
      | _ => exact .inl hs
  · rw [State.perform_of_not_addressed (Bool.eq_false_iff.2 ha)]
    exact .inl hs

/-- A write that reaches the block need not wait only where no command is pending (20_memory.md R93). -/
theorem State.busy_of_not_mustWait {s : State} {addr : Nat} {data : Word}
    (ha : s.addressed (.write addr .word data) = true) (h : s.mustWait (.write addr .word data) = false) :
    s.busy = false := by
  simpa [State.mustWait, ha, Access.neverHeld] using h

/-- Settles O24: a halted block turns every word away, so what ends its halt is a reset or a write to CTRL with SRST. -/
theorem divisionByZeroHalts : Obligations.DivisionByZeroHalts := by
  refine ⟨fun s d a b _ hs ha hb hz => ?_, fun s hs => ?_⟩
  · have hhalted : (s.complete (some (.error .divByZero))).status.halted = true := by simp [Status.update_error]
    refine ⟨_, exec_sdiv_zero hs ha.valid hb.valid hz, ⟨?_, rfl⟩, s.complete_onlyStatus _,
      fun w => DoneError.of_halted w hhalted, fun data => State.writeCtrl_srst_halted _,
      fun level hl => State.setRstN_halted hl⟩
    rw [State.complete_status, Status.update_error, hs]
    rfl
  · obtain ⟨t, h⟩ := step_next s
    refine ⟨t, h, ?_⟩
    obtain ⟨level, rest, hin, rfl⟩ | ⟨a, waiting, hwait, hheld, -, rfl⟩ | ⟨-, h⟩ := step_cases h
    · by_cases hevent : level = true → s.rstN = false
      · exact .inr (.inl ⟨level, rest, hin, hevent⟩)
      · obtain ⟨rfl, hr⟩ : level = true ∧ s.rstN = true := by simpa using hevent
        rw [State.setRstN_of_released (s := { s with inputs := rest }) hr]
        exact .inl hs
    · obtain hkeep | ⟨addr, data, rfl, hoff, hbit, ha⟩ :=
        State.perform_halted (s := { s with held := waiting }) hs a
      · exact .inl hkeep
      · exact .inr (.inr ⟨addr, data, hoff, hbit, State.busy_of_not_mustWait ha hwait, ha, .inr ⟨waiting, hheld⟩⟩)
    · obtain ⟨-, h⟩ | ⟨rest, -, h⟩ | ⟨a, rest, -, -, rfl⟩ | ⟨a, rest, hin, hhold, rfl⟩ := h
      · obtain ⟨u, hu, hh⟩ := engineTurn_halted hs
        cases hu.symm.trans h
        exact .inl hh
      · obtain ⟨u, hu, hh⟩ := engineTurn_halted (s := { s with inputs := rest }) hs
        cases hu.symm.trans h
        exact .inl hh
      · exact .inl hs
      · obtain hkeep | ⟨addr, data, rfl, hoff, hbit, ha⟩ :=
          State.perform_halted (s := { s with inputs := rest }) hs a
        · exact .inl hkeep
        · have hwait : s.mustWait (.write addr .word data) = false := (Bool.or_eq_false_iff.1 hhold).2
          exact .inr (.inr ⟨addr, data, hoff, hbit, State.busy_of_not_mustWait ha hwait, ha, .inl ⟨rest, hin⟩⟩)

end Sys2Proof.Machine
end

section
/-! SUPPORT. Scalar arithmetic (40_scalar_arith.md R166 to R176, R179, R180): what each command writes, and what that is
on canonical values, by casts to ZMod Q. -/

namespace Sys2Proof.Machine

/-! ### Completed writes of a scalar -/

section

variable {s : State} (hq : ScalarModulusOk s.q) (d : Fin 16)
include hq

/-- A completed write of a residue of Q. -/
theorem okScalar_residue {m : Nat} (hm : m < s.q) : OkScalar s ((s.setS d m).complete none) d m 0 :=
  okScalar_setS s d (lt_trans hm hq.lt_container)

/-- A completed write of a canonical value. -/
theorem okScalar_writeScalar (x : Nat) : OkScalar s ((s.writeScalar d x).complete none) d (res s.q x) 0 :=
  okScalar_residue hq d (res_lt hq x)

theorem canonical_setS {m : Nat} (hm : m < s.q) : (s.setS d m).canonical d = val s.q m := by
  have hreg : (s.setS d m).sreg[d] = BitVec.ofNat 256 m := Vector.getElem_set_self _
  rw [State.canonical, State.setS_q, hreg, toNat_ofNat_lt hq hm]

theorem canonical_lt (i : Fin 16) : s.canonical i < s.q := val_lt hq _

theorem res_canonical {i : Fin 16} (hi : ReadyS s i) : res s.q (s.canonical i) = s.sreg[i].toNat := res_val hq hi.residue

end

/-! ### Modular operations as operations of ZMod Q -/

section

variable {q : Nat}

theorem cast_modulus_sub {a : Nat} (ha : a ≤ q) : ((q - a : Nat) : ZMod q) = -a := by
  rw [Nat.cast_sub ha, ZMod.natCast_self, zero_sub]

theorem modAdd_lt {a b : Nat} (ha : a < q) (hb : b < q) : modAdd q a b < q := by
  simp only [modAdd]
  split <;> omega

theorem modAdd_cast (a b : Nat) : (modAdd q a b : ZMod q) = a + b := by
  simp only [modAdd]
  split
  next h => rw [Nat.cast_sub h, ZMod.natCast_self, sub_zero, Nat.cast_add]
  next => rw [Nat.cast_add]

theorem modSub_lt {a b : Nat} (ha : a < q) (hb : b < q) : modSub q a b < q := by
  rw [modSub]
  split <;> omega

theorem modSub_cast {a b : Nat} (hb : b < q) : (modSub q a b : ZMod q) = a - b := by
  rw [modSub]
  split
  next => rw [Nat.cast_sub (by omega), Nat.cast_add, ZMod.natCast_self, add_zero]
  next h => rw [Nat.cast_sub (by omega)]

theorem modNeg_lt {a : Nat} (hq : 0 < q) : modNeg q a < q := by
  rw [modNeg]
  split <;> omega

theorem modNeg_cast {a : Nat} (ha : a < q) : (modNeg q a : ZMod q) = -a := by
  rw [modNeg]
  split
  next h => rw [h, Nat.cast_zero, neg_zero]
  next => exact cast_modulus_sub ha.le

/-- The difference of two numbers, reduced as an integer. -/
theorem toNat_sub_emod_cast (hq : 0 < q) (x y : Nat) :
    ((((x : Int) - (y : Int)) % (q : Int)).toNat : ZMod q) = x - y := by
  have hnonneg : 0 ≤ ((x : Int) - y) % q := Int.emod_nonneg _ (by omega)
  rw [← Int.cast_natCast, Int.toNat_of_nonneg hnonneg, ZMod.intCast_mod, Int.cast_sub, Int.cast_natCast,
    Int.cast_natCast]

theorem toNat_sub_emod_lt (hq : 0 < q) (x y : Nat) : (((x : Int) - (y : Int)) % (q : Int)).toNat < q := by
  have hlt : ((x : Int) - y) % q < q := Int.emod_lt_of_pos _ (by omega)
  omega

/-- The residue form of a number is the residue that stands for it. -/
theorem res_eq_of_cast (h : ScalarModulusOk q) {x m : Nat} (hm : m < q) (hx : (x : ZMod q) = val q m) : res q x = m := by
  rw [← res_val h hm]
  refine eq_of_cast_eq (res_lt h _) (res_lt h _) ?_
  rw [res_cast, res_cast, hx]

theorem val_modAdd (h : ScalarModulusOk q) (a b : Nat) : (val q (modAdd q a b) : ZMod q) = val q a + val q b := by
  rw [val_cast h, val_cast h, val_cast h, modAdd_cast, add_mul]

theorem val_modSub (h : ScalarModulusOk q) {a b : Nat} (hb : b < q) :
    (val q (modSub q a b) : ZMod q) = val q a - val q b := by
  rw [val_cast h, val_cast h, val_cast h, modSub_cast hb, sub_mul]

theorem val_modNeg (h : ScalarModulusOk q) {a : Nat} (ha : a < q) : (val q (modNeg q a) : ZMod q) = -val q a := by
  rw [val_cast h, val_cast h, modNeg_cast ha, neg_mul]

/-- Multiplying a residue by a number multiplies its canonical value (40_scalar_arith.md R179). -/
theorem val_mul_mod (h : ScalarModulusOk q) (m n : Nat) : val q (m * n % q) = val q m * n % q := by
  refine eq_of_cast_eq (val_lt h _) (Nat.mod_lt _ h.pos) ?_
  rw [val_cast h, cast_mod, cast_mod, Nat.cast_mul, Nat.cast_mul, val_cast h]
  ring

/-- A halving is undone by a doubling (40_scalar_arith.md R180). -/
theorem halve_mul_two (h : ScalarModulusOk q) {m : Nat} (hm : m < q) : halve q m * 2 % q = m := by
  have hodd := h.odd
  rw [halve]
  split
  · rw [show (m + q) / 2 * 2 = m + q by omega, Nat.add_mod_right, Nat.mod_eq_of_lt hm]
  · rw [show m / 2 * 2 = m by omega, Nat.mod_eq_of_lt hm]

theorem halveTimes_mul_pow (h : ScalarModulusOk q) (n : Nat) {m : Nat} (hm : m < q) :
    halveTimes q n m * 2 ^ n % q = m := by
  induction n generalizing m with
  | zero => rw [halveTimes, pow_zero, mul_one, Nat.mod_eq_of_lt hm]
  | succ n ih =>
    rw [halveTimes, pow_succ, ← mul_assoc, Nat.mul_mod, ih (halve_lt hm), Nat.mod_eq_of_lt h.two_lt,
      halve_mul_two h hm]

theorem mul_invMod (h : ScalarModulusOk q) {x : Nat} (h0 : x ≠ 0) (hx : x < q) : x * invMod q x % q = 1 := by
  have : Fact q.Prime := ⟨h.prime⟩
  have hne : (x : ZMod q) ≠ 0 := fun hz => h0 (eq_of_cast_eq hx h.pos (by rw [hz, Nat.cast_zero]))
  refine eq_of_cast_eq (Nat.mod_lt _ h.pos) h.prime.one_lt ?_
  rw [cast_mod, Nat.cast_mul, invMod_cast h, mul_inv_cancel₀ hne, Nat.cast_one]

end

/-! ### The commands where their checks pass -/

section

variable {s : State} {d a b : RegField} (hs : s.status.halted = false)
include hs

section

variable (ha : s.sv[sIndex a] = true)
include ha

theorem exec_sneg_ok :
    exec (.sneg d a) s =
      .next ((s.writeScalar (sIndex d) ((s.q - s.canonical (sIndex a)) % s.q)).complete none) := by
  rw [exec, execSneg]
  exact runCommand_of_ok hs (bind_eq_ok.2 ⟨_, State.scalar_ok ha, rfl⟩)

theorem exec_sdbl_ok :
    exec (.sdbl d a) s = .next ((s.writeScalar (sIndex d) (2 * s.canonical (sIndex a) % s.q)).complete none) := by
  rw [exec, execSdbl]
  exact runCommand_of_ok hs (bind_eq_ok.2 ⟨_, State.scalar_ok ha, rfl⟩)

theorem exec_ssqr_ok :
    exec (.ssqr d a) s =
      .next ((s.setS (sIndex d) (montMul s.q s.sreg[sIndex a].toNat s.sreg[sIndex a].toNat)).complete none) := by
  rw [exec, execSsqr]
  exact runCommand_of_ok hs (bind_eq_ok.2 ⟨_, State.residue_ok ha, rfl⟩)

theorem exec_sinv_ok (h0 : s.canonical (sIndex a) ≠ 0) :
    exec (.sinv d a) s = .next ((s.writeScalar (sIndex d) (invMod s.q (s.canonical (sIndex a)))).complete none) := by
  rw [exec, execSinv]
  refine runCommand_of_ok hs (bind_eq_ok.2 ⟨_, State.scalar_ok ha, ?_⟩)
  rw [if_neg h0]
  rfl

theorem exec_sinv_zero (h0 : s.canonical (sIndex a) = 0) :
    exec (.sinv d a) s = .next (s.complete (some (.none .nonInvertible))) := by
  rw [exec, execSinv]
  refine runCommand_of_error hs (bind_eq_error.2 (.inr ⟨_, State.scalar_ok ha, ?_⟩))
  rw [if_pos h0]
  rfl

theorem exec_sshl_ok (n : BitVec 12) :
    exec (.sshl d a n) s =
      .next ((s.setS (sIndex d) (s.sreg[sIndex a].toNat * 2 ^ n.toNat % s.q)).complete none) := by
  rw [exec, execSshl]
  exact runCommand_of_ok hs (bind_eq_ok.2 ⟨_, State.residue_ok ha, rfl⟩)

theorem exec_sshr_ok (n : BitVec 12) :
    exec (.sshr d a n) s =
      .next ((s.setS (sIndex d) (halveTimes s.q n.toNat s.sreg[sIndex a].toNat)).complete none) := by
  rw [exec, execSshr]
  exact runCommand_of_ok hs (bind_eq_ok.2 ⟨_, State.residue_ok ha, rfl⟩)

variable (hb : s.sv[sIndex b] = true)
include hb

theorem exec_sadd_ok :
    exec (.sadd d a b) s = .next ((s.writeScalar (sIndex d)
      ((s.canonical (sIndex a) + s.canonical (sIndex b)) % s.q)).complete none) := by
  rw [exec, execSadd]
  exact runCommand_of_ok hs (bind_eq_ok.2 ⟨_, State.scalar_ok ha, bind_eq_ok.2 ⟨_, State.scalar_ok hb, rfl⟩⟩)

theorem exec_ssub_ok :
    exec (.ssub d a b) s = .next ((s.writeScalar (sIndex d)
      (((s.canonical (sIndex a) : Int) - (s.canonical (sIndex b) : Int)) % (s.q : Int)).toNat).complete none) := by
  rw [exec, execSsub]
  exact runCommand_of_ok hs (bind_eq_ok.2 ⟨_, State.scalar_ok ha, bind_eq_ok.2 ⟨_, State.scalar_ok hb, rfl⟩⟩)

theorem exec_smul_ok :
    exec (.smul d a b) s =
      .next ((s.setS (sIndex d) (montMul s.q s.sreg[sIndex a].toNat s.sreg[sIndex b].toNat)).complete none) := by
  rw [exec, execSmul]
  exact runCommand_of_ok hs (bind_eq_ok.2 ⟨_, State.residue_ok ha, bind_eq_ok.2 ⟨_, State.residue_ok hb, rfl⟩⟩)

theorem exec_sdiv_ok (h0 : s.canonical (sIndex b) ≠ 0) :
    exec (.sdiv d a b) s = .next ((s.writeScalar (sIndex d)
      (s.canonical (sIndex a) * invMod s.q (s.canonical (sIndex b)) % s.q)).complete none) := by
  rw [exec, execSdiv]
  refine runCommand_of_ok hs (bind_eq_ok.2 ⟨_, State.scalar_ok ha, bind_eq_ok.2 ⟨_, State.scalar_ok hb, ?_⟩⟩)
  rw [if_neg h0]
  rfl

theorem exec_spow_ok :
    exec (.spow d a b) s = .next ((s.writeScalar (sIndex d)
      (powMod s.q (s.canonical (sIndex a)) (s.canonical (sIndex b)))).complete none) := by
  rw [exec, execSpow]
  exact runCommand_of_ok hs (bind_eq_ok.2 ⟨_, State.scalar_ok ha, bind_eq_ok.2 ⟨_, State.scalar_ok hb, rfl⟩⟩)

end

end

/-! ### The statements -/

/-- Settles O19: the canonical values are written reduced, and their residue form is ModAdd and ModSub of the residues. -/
theorem scalarAddAndSubtract : Obligations.ScalarAddAndSubtract := by
  intro s d a b hq hs ha hb
  have hpos := hq.pos
  refine ⟨⟨_, exec_sadd_ok hs ha.valid hb.valid, ?_, ?_⟩, ⟨_, exec_ssub_ok hs ha.valid hb.valid, ?_, ?_⟩⟩
  · rw [← res_eq_of_cast hq (modAdd_lt ha.residue hb.residue) (x := (s.canonical (sIndex a) + s.canonical (sIndex b)) % s.q)]
    · exact okScalar_writeScalar hq _ _
    · rw [val_modAdd hq, cast_mod, Nat.cast_add]; rfl
  · rw [State.canonical_complete, State.canonical_writeScalar hq _ (Nat.mod_lt _ hpos)]
  · rw [← res_eq_of_cast hq (modSub_lt ha.residue hb.residue)]
    · exact okScalar_writeScalar hq _ _
    · rw [val_modSub hq hb.residue, toNat_sub_emod_cast hpos]; rfl
  · rw [State.canonical_complete, State.canonical_writeScalar hq _ (toNat_sub_emod_lt hpos _ _),
      Int.toNat_of_nonneg (Int.emod_nonneg _ (by omega))]

/-- Settles O20. -/
theorem scalarNegateAndDouble : Obligations.ScalarNegateAndDouble := by
  intro s d a hq hs ha
  have hpos := hq.pos
  have hlt := canonical_lt hq (sIndex a)
  refine ⟨⟨_, exec_sneg_ok hs ha.valid, ?_, ?_⟩, ⟨_, exec_sdbl_ok hs ha.valid, ?_, ?_⟩⟩
  · rw [← res_eq_of_cast hq (modNeg_lt hpos) (x := (s.q - s.canonical (sIndex a)) % s.q)]
    · exact okScalar_writeScalar hq _ _
    · rw [val_modNeg hq ha.residue, cast_mod, cast_modulus_sub hlt.le]; rfl
  · rw [State.canonical_complete, State.canonical_writeScalar hq _ (Nat.mod_lt _ hpos), Nat.mod_add_mod,
      Nat.sub_add_cancel hlt.le, Nat.mod_self]
  · rw [← res_eq_of_cast hq (modAdd_lt ha.residue ha.residue) (x := 2 * s.canonical (sIndex a) % s.q)]
    · exact okScalar_writeScalar hq _ _
    · rw [val_modAdd hq, cast_mod, two_mul, Nat.cast_add]; rfl
  · rw [State.canonical_complete, State.canonical_writeScalar hq _ (Nat.mod_lt _ hpos)]

/-- Settles O21: the Montgomery product stands for the product. -/
theorem scalarMultiplyAndSquare : Obligations.ScalarMultiplyAndSquare := by
  intro s d a b hq hs ha hb
  refine ⟨⟨_, exec_smul_ok hs ha.valid hb.valid, okScalar_residue hq _ (montMul_lt hq _ _), ?_⟩,
    ⟨_, exec_ssqr_ok hs ha.valid, okScalar_residue hq _ (montMul_lt hq _ _), ?_⟩⟩
  · rw [State.canonical_complete, canonical_setS hq _ (montMul_lt hq _ _), val_montMul hq]; rfl
  · rw [State.canonical_complete, canonical_setS hq _ (montMul_lt hq _ _), val_montMul hq, sq]; rfl

/-- Settles O22. -/
theorem scalarInversion : Obligations.ScalarInversion := by
  intro s d a hq hs ha
  refine ⟨fun h0 => ⟨_, _, exec_sinv_ok hs ha.valid h0, okScalar_writeScalar hq _ _, res_lt hq _, ?_⟩,
    fun h0 => ⟨_, exec_sinv_zero hs ha.valid h0, s.complete_endsNone .nonInvertible⟩⟩
  rw [State.canonical_complete, State.canonical_writeScalar hq _ (invMod_lt hq _),
    mul_invMod hq h0 (canonical_lt hq _)]

/-- Settles O23. -/
theorem scalarDivision : Obligations.ScalarDivision := by
  intro s d a b hq hs ha hb h0
  refine ⟨_, _, exec_sdiv_ok hs ha.valid hb.valid h0, okScalar_writeScalar hq _ _, res_lt hq _, ?_⟩
  have hinv := mul_invMod hq h0 (canonical_lt hq _)
  rw [State.canonical_complete, State.canonical_writeScalar hq _ (Nat.mod_lt _ hq.pos), Nat.mod_mul_mod, mul_assoc,
    mul_comm (invMod _ _), Nat.mul_mod, hinv, mul_one, Nat.mod_mod, Nat.mod_eq_of_lt (canonical_lt hq _)]

/-- Settles O25: the exponent, a canonical value, is below 2^256. -/
theorem scalarPower : Obligations.ScalarPower := by
  intro s d a b hq hs ha hb
  refine ⟨_, _, exec_spow_ok hs ha.valid hb.valid, okScalar_writeScalar hq _ _, res_lt hq _, ?_⟩
  rw [State.canonical_complete, State.canonical_writeScalar hq _ (powMod_lt hq.prime.one_lt _ _),
    powMod_eq hq.prime.one_lt _ (lt_trans (canonical_lt hq _) hq.lt_container)]

/-- Settles O28: a power of two multiplies residues and canonical values alike. -/
theorem scalarShifts : Obligations.ScalarShifts := by
  intro s d a n hq hs ha
  have hhalf := halveTimes_mul_pow hq n.toNat ha.residue
  have hlt := halveTimes_lt n.toNat ha.residue
  refine ⟨⟨_, exec_sshl_ok hs ha.valid n, okScalar_residue hq _ (Nat.mod_lt _ hq.pos), ?_⟩,
    ⟨_, _, exec_sshr_ok hs ha.valid n, okScalar_residue hq _ hlt, hlt, hhalf, ?_⟩⟩
  · rw [State.canonical_complete, canonical_setS hq _ (Nat.mod_lt _ hq.pos), val_mul_mod hq]; rfl
  · rw [State.canonical_complete, canonical_setS hq _ hlt, ← val_mul_mod hq, hhalf]; rfl

end Sys2Proof.Machine
end

section
/-! SUPPORT. Squares modulo Q (40_scalar_arith.md R177, R178): Euler's criterion for `eulerPower`, and that `smallerRoot`
finds the smaller of the two roots of a nonzero square, whichever of its two ways it takes (log entry 11). -/

namespace Sys2Proof.Machine

/-! ### Euler's criterion -/

section

variable {q : Nat} (h : ScalarModulusOk q)
include h

/-- Squares as the statements name them are the squares of ZMod Q. -/
theorem isSquare_cast_iff {x : Nat} (hx : x < q) : IsSquare (x : ZMod q) ↔ ∃ y, y * y % q = x := by
  have : NeZero q := ⟨h.pos.ne'⟩
  constructor
  · rintro ⟨r, hr⟩
    refine ⟨r.val, eq_of_cast_eq (Nat.mod_lt _ h.pos) hx ?_⟩
    rw [cast_mod, Nat.cast_mul, ZMod.natCast_zmod_val, hr]
  · rintro ⟨y, rfl⟩
    exact ⟨y, by rw [cast_mod, Nat.cast_mul]⟩

theorem eulerPower_cast (x : Nat) : (eulerPower q x : ZMod q) = (x : ZMod q) ^ (q / 2) := by
  have hodd := h.odd
  rw [eulerPower, powMod_cast x (lt_of_le_of_lt ((Nat.div_le_self _ _).trans (Nat.sub_le _ _)) h.lt_container),
    show (q - 1) / 2 = q / 2 by omega]

theorem eulerPower_lt (x : Nat) : eulerPower q x < q := powMod_lt h.prime.one_lt _ _

theorem cast_ne_zero_of_lt {x : Nat} (h0 : x ≠ 0) (hx : x < q) : (x : ZMod q) ≠ 0 := fun hz =>
  h0 (eq_of_cast_eq hx h.pos (by rw [hz, Nat.cast_zero]))

theorem eulerPower_zero : eulerPower q 0 = 0 := by
  have h2 := h.two_lt
  refine eq_of_cast_eq (eulerPower_lt h 0) h.pos ?_
  rw [eulerPower_cast h, Nat.cast_zero, zero_pow (by omega)]

/-- Euler's criterion (40_scalar_arith.md R177). -/
theorem eulerPower_eq_one_iff {x : Nat} (h0 : x ≠ 0) (hx : x < q) : eulerPower q x = 1 ↔ ∃ y, y * y % q = x := by
  have : Fact q.Prime := ⟨h.prime⟩
  rw [← isSquare_cast_iff h hx, ZMod.euler_criterion q (cast_ne_zero_of_lt h h0 hx), ← eulerPower_cast h]
  constructor
  · intro he
    rw [he, Nat.cast_one]
  · intro he
    exact eq_of_cast_eq (eulerPower_lt h x) h.prime.one_lt (by rw [he, Nat.cast_one])

theorem eulerPower_ne_zero {x : Nat} (h0 : x ≠ 0) (hx : x < q) : eulerPower q x ≠ 0 := by
  have : Fact q.Prime := ⟨h.prime⟩
  intro he
  have hpow := eulerPower_cast h x
  rw [he, Nat.cast_zero] at hpow
  exact pow_ne_zero _ (cast_ne_zero_of_lt h h0 hx) hpow.symm

/-! ### The smaller root -/

/-- The negative of a root is a root. -/
theorem neg_root {r : Nat} (hr : r ≤ q) : (q - r) * (q - r) % q = r * r % q := by
  refine eq_of_cast_eq (Nat.mod_lt _ h.pos) (Nat.mod_lt _ h.pos) ?_
  rw [cast_mod, cast_mod, Nat.cast_mul, Nat.cast_mul, cast_modulus_sub hr, neg_mul_neg]

omit h in
theorem tonelliLoop_lt (hq : 0 < q) : ∀ (k r b c : Nat), r < q → tonelliLoop q k r b c < q
  | 0, _, _, _, hr => hr
  | k + 1, r, b, c, hr => by
    simp only [tonelliLoop]
    split
    · exact tonelliLoop_lt hq k _ _ _ hr
    · exact tonelliLoop_lt hq k _ _ _ (Nat.mod_lt _ hq)

theorem tonelli_lt (x : Nat) : tonelli q x < q := tonelliLoop_lt h.pos _ _ _ _ (powMod_lt h.prime.one_lt _ _)

omit h in
/-- The search finds the least root from where it starts, if there is one within its rounds. -/
theorem leastRoot_spec {x : Nat} : ∀ (k r : Nat), (∃ y, r ≤ y ∧ y < r + k ∧ y * y % q = x) →
    leastRoot q x k r * leastRoot q x k r % q = x ∧ r ≤ leastRoot q x k r ∧
      ∀ y, r ≤ y → y * y % q = x → leastRoot q x k r ≤ y
  | 0, _, ⟨_, hr, hy, _⟩ => absurd hy (by omega)
  | k + 1, r, ⟨y, hr, hy, hroot⟩ => by
    rw [leastRoot]
    split
    next hx => exact ⟨hx, le_rfl, fun _ hy _ => hy⟩
    next hx =>
      have hne : ∀ z, r ≤ z → z * z % q = x → r + 1 ≤ z := fun z hz hzx =>
        Nat.lt_of_le_of_ne hz fun he => hx (he ▸ hzx)
      obtain ⟨hroot', hle, hleast⟩ := leastRoot_spec k (r + 1) ⟨y, hne y hr hroot, by omega, hroot⟩
      exact ⟨hroot', by omega, fun z hz hzx => hleast z (hne z hz hzx) hzx⟩

/-- `r0` of 40_scalar_arith.md R178. -/
theorem smallerRoot_spec {x : Nat} (h0 : x ≠ 0) (hsq : ∃ y, y * y % q = x) :
    0 < smallerRoot q x ∧ smallerRoot q x < q - smallerRoot q x ∧ smallerRoot q x * smallerRoot q x % q = x := by
  have hodd := h.odd
  have hpos : ∀ r, r * r % q = x → 0 < r := fun r hr => Nat.pos_of_ne_zero fun hz => h0 (by rw [← hr, hz, zero_mul, Nat.zero_mod])
  simp only [smallerRoot]
  split
  next hroot =>
    have hlt := tonelli_lt h x
    have hr := hpos _ hroot
    refine ⟨by omega, by omega, ?_⟩
    rcases min_choice (tonelli q x) (q - tonelli q x) with hm | hm
    · rw [hm, hroot]
    · rw [hm, neg_root h hlt.le, hroot]
  next =>
    obtain ⟨y, hy⟩ := hsq
    have hy' : y % q * (y % q) % q = x := by rw [← Nat.mul_mod, hy]
    have hylt := Nat.mod_lt y h.pos
    obtain ⟨hroot, hone, hleast⟩ := leastRoot_spec q 1 ⟨y % q, hpos _ hy', by omega, hy'⟩
    have hle := hleast _ (hpos _ hy') hy'
    have hneg := hleast (q - leastRoot q x q 1) (by omega) (by rw [neg_root h (by omega), hroot])
    exact ⟨hone, by omega, hroot⟩

end

/-! ### The commands where their checks pass -/

section

variable {s : State} {d a : RegField} (hs : s.status.halted = false) (ha : s.sv[sIndex a] = true)
include hs ha

theorem exec_sleg_ok :
    exec (.sleg a) s = .next ((s.setResult (legendreWord s.q (s.canonical (sIndex a)))).complete none) := by
  rw [exec, execSleg]
  exact runCommand_of_ok hs (bind_eq_ok.2 ⟨_, State.scalar_ok ha, rfl⟩)

theorem exec_ssqrt_zero (h0 : s.canonical (sIndex a) = 0) :
    exec (.ssqrt d a) s = .next ((s.writeScalar (sIndex d) 0).complete none) := by
  rw [exec, execSsqrt]
  refine runCommand_of_ok hs (bind_eq_ok.2 ⟨_, State.scalar_ok ha, ?_⟩)
  rw [if_pos h0]
  rfl

theorem exec_ssqrt_ok (h0 : s.canonical (sIndex a) ≠ 0) (hsq : eulerPower s.q (s.canonical (sIndex a)) = 1) :
    exec (.ssqrt d a) s = .next ((s.drawn.writeScalar (sIndex d)
      (if s.drawSqrtPick then s.q - smallerRoot s.q (s.canonical (sIndex a))
        else smallerRoot s.q (s.canonical (sIndex a)))).complete none) := by
  rw [exec, execSsqrt]
  refine runCommand_of_ok hs (bind_eq_ok.2 ⟨_, State.scalar_ok ha, ?_⟩)
  rw [if_neg h0, if_neg (not_not.2 hsq)]
  rfl

theorem exec_ssqrt_nonResidue (h0 : s.canonical (sIndex a) ≠ 0) (hsq : eulerPower s.q (s.canonical (sIndex a)) ≠ 1) :
    exec (.ssqrt d a) s = .next (s.complete (some (.none .nonResidue))) := by
  rw [exec, execSsqrt]
  refine runCommand_of_error hs (bind_eq_error.2 (.inr ⟨_, State.scalar_ok ha, ?_⟩))
  rw [if_neg h0, if_pos hsq]
  rfl

end

/-! ### The statements -/

/-- Zero is a square. -/
theorem ne_zero_of_not_square {q x : Nat} (hsq : ¬ ∃ y, y * y % q = x) : x ≠ 0 :=
  fun h0 => hsq ⟨0, by rw [h0, zero_mul, Nat.zero_mod]⟩

/-- Settles O26, by Euler's criterion. -/
theorem legendreSymbol : Obligations.LegendreSymbol := by
  intro s a hq hs ha
  have hlt := canonical_lt hq (sIndex a)
  refine ⟨fun h0 => ⟨_, exec_sleg_ok hs ha.valid, ?_⟩, fun h0 hsq => ⟨_, exec_sleg_ok hs ha.valid, ?_⟩,
    fun hsq => ⟨_, exec_sleg_ok hs ha.valid, ?_⟩⟩
  · rw [legendreWord, h0, if_pos (eulerPower_zero hq)]
    exact okResult_setResult s _
  · rw [legendreWord, if_neg (eulerPower_ne_zero hq h0 hlt), if_pos ((eulerPower_eq_one_iff hq h0 hlt).2 hsq)]
    exact okResult_setResult s _
  · have h0 := ne_zero_of_not_square hsq
    rw [legendreWord, if_neg (eulerPower_ne_zero hq h0 hlt), if_neg (mt (eulerPower_eq_one_iff hq h0 hlt).1 hsq)]
    exact okResult_setResult s _

/-- Settles O27: the root written is the smaller one or its negative. -/
theorem squareRoot : Obligations.SquareRoot := by
  intro s d a hq hs ha
  have hlt := canonical_lt hq (sIndex a)
  refine ⟨fun h0 => ⟨_, exec_ssqrt_zero hs ha.valid h0, ?_⟩, fun h0 hsq => ?_, fun hsq => ?_⟩
  · have hres : res s.q 0 = 0 := by rw [res, zero_mul, Nat.zero_mod]
    rw [← hres]
    exact okScalar_writeScalar hq _ _
  · obtain ⟨hpos, hless, hroot⟩ := smallerRoot_spec hq h0 hsq
    have hpick : (if s.drawSqrtPick then s.q - smallerRoot s.q (s.canonical (sIndex a))
        else smallerRoot s.q (s.canonical (sIndex a))) < s.q := by split <;> omega
    refine ⟨_, _, _, exec_ssqrt_ok hs ha.valid h0 ((eulerPower_eq_one_iff hq h0 hlt).2 hsq),
      okScalar_drawn_setS s _ (lt_trans (res_lt hq _) hq.lt_container), res_lt hq _, hpos, hless, hroot, ?_, ?_⟩
    · rw [State.canonical_complete, State.canonical_writeScalar (s := s.drawn) hq _ hpick]
    · rw [State.canonical_complete, State.canonical_writeScalar (s := s.drawn) hq _ hpick, sq]
      split
      · rw [neg_root hq (by omega), hroot]
      · exact hroot
  · have h0 := ne_zero_of_not_square hsq
    exact ⟨_, exec_ssqrt_nonResidue hs ha.valid h0 (mt (eulerPower_eq_one_iff hq h0 hlt).1 hsq),
      s.complete_endsNone .nonResidue⟩

end Sys2Proof.Machine
end

section
/-! SUPPORT. Scalar comparison, selection, constants and draws (41_scalar_cmp_move.md), and the scalar loads and stores
(42_scalar_codec.md R230 to R244). -/

namespace Sys2Proof.Machine

/-! ### Byte-wise comparison and bit length -/

theorem beNat_cons (x : Byte) (xs : List Byte) : beNat (x :: xs) = x.toNat * 256 ^ xs.length + beNat xs := by
  rw [beNat, List.reverse_cons, leNat_append, List.length_reverse, leNat, leNat, beNat]
  ring

theorem beNat_lt (bs : List Byte) : beNat bs < 256 ^ bs.length := by
  rw [beNat, ← List.length_reverse]
  exact leNat_lt _

/-- The comparison from the most significant byte on is that of the integers (41_scalar_cmp_move.md R201). -/
theorem compareBytes_eq : ∀ {xs ys : List Byte}, xs.length = ys.length →
    compareBytes xs ys =
      if beNat xs < beNat ys then 0xFFFFFFFF else if beNat ys < beNat xs then 0x00000001 else 0x00000000
  | [], [], _ => rfl
  | x :: xs, y :: ys, h => by
    have hlen : xs.length = ys.length := Nat.succ.inj h
    have hx := beNat_lt xs
    have hy := beNat_lt ys
    rw [compareBytes, beNat_cons, beNat_cons, hlen]
    rw [hlen] at hx
    set n := 256 ^ ys.length
    rcases Nat.lt_trichotomy x.toNat y.toNat with hlt | heq | hgt
    · have hmul : (x.toNat + 1) * n ≤ y.toNat * n := Nat.mul_le_mul_right n hlt
      rw [Nat.add_mul] at hmul
      rw [if_pos hlt, if_pos (by omega)]
    · rw [heq, if_neg (lt_irrefl _), if_neg (lt_irrefl _), compareBytes_eq hlen]
      simp only [Nat.add_lt_add_iff_left]
    · have hmul : (y.toNat + 1) * n ≤ x.toNat * n := Nat.mul_le_mul_right n hgt
      rw [Nat.add_mul] at hmul
      rw [if_neg (Nat.not_lt.2 hgt.le), if_pos hgt, if_neg (by omega), if_pos (by omega)]

theorem bitlen_eq_size (x : Nat) : bitlen x = x.size := by
  rw [bitlen]
  split
  next h => rw [h, Nat.size_zero]
  next h =>
    refine le_antisymm (Nat.lt_size.2 (Nat.log2_self_le h)) (Nat.size_le.2 Nat.lt_log2_self)

/-- Whole bytes below a nonzero number count 8 bits each. -/
theorem size_mul_add {x n r : Nat} (hx : x ≠ 0) (hr : r < 256 ^ n) : (x * 256 ^ n + r).size = 8 * n + x.size := by
  have hpow : 256 ^ n = 2 ^ (8 * n) := by rw [pow_mul]; norm_num
  have hsize : 0 < x.size := Nat.size_pos.2 (Nat.pos_of_ne_zero hx)
  rw [hpow] at hr ⊢
  apply le_antisymm
  · refine Nat.size_le.2 ?_
    have hlt : x + 1 ≤ 2 ^ x.size := Nat.lt_size_self x
    calc x * 2 ^ (8 * n) + r < (x + 1) * 2 ^ (8 * n) := by rw [Nat.add_mul]; omega
      _ ≤ 2 ^ x.size * 2 ^ (8 * n) := Nat.mul_le_mul_right _ hlt
      _ = 2 ^ (8 * n + x.size) := by rw [← pow_add, add_comm]
  · have hle : 2 ^ (x.size - 1) ≤ x := Nat.lt_size.1 (by omega)
    have hlow : 2 ^ (8 * n + (x.size - 1)) ≤ x * 2 ^ (8 * n) + r :=
      calc 2 ^ (8 * n + (x.size - 1)) = 2 ^ (x.size - 1) * 2 ^ (8 * n) := by rw [← pow_add, add_comm]
        _ ≤ x * 2 ^ (8 * n) := Nat.mul_le_mul_right _ hle
        _ ≤ x * 2 ^ (8 * n) + r := Nat.le_add_right _ _
    have := Nat.lt_size.2 hlow
    omega

/-- The bit length by bytes is that of the integer (41_scalar_cmp_move.md R208). -/
theorem bitLengthBytes_eq : ∀ bs : List Byte, bitLengthBytes bs = (beNat bs).size
  | [] => rfl
  | x :: xs => by
    rw [bitLengthBytes, beNat_cons]
    split
    next h => simp [h, bitLengthBytes_eq xs]
    next h =>
      have hx : x.toNat ≠ 0 := fun hz => h (BitVec.eq_of_toNat_eq hz)
      rw [size_mul_add hx (beNat_lt xs), bitlen_eq_size]

/-- The bytes of a scalar are those of an integer below 2^256. -/
theorem beNat_beBytes_scalar {q x : Nat} (h : ScalarModulusOk q) (hx : x < q) : beNat (beBytes 32 x) = x := by
  rw [beNat_beBytes, Nat.mod_eq_of_lt (lt_bytes_of_lt_modulus h hx)]

/-- The integer of a list of drawn bytes. -/
theorem leNat_map_range (f : Nat → Byte) (n : Nat) :
    leNat ((List.range n).map f) = ∑ k ∈ Finset.range n, (f k).toNat * 256 ^ k := by
  induction n with
  | zero => rfl
  | succ n ih =>
    rw [List.range_succ, List.map_append, leNat_append, ih, Finset.sum_range_succ, List.length_map, List.length_range]
    simp [leNat, mul_comm]

/-! ### The commands where their checks pass -/

section

variable {s : State} {d a b : RegField} (hs : s.status.halted = false)
include hs

theorem exec_nop_ok : exec .nop s = .next (s.complete none) := runCommand_of_ok hs rfl

theorem exec_szero_ok : exec (.szero d) s = .next ((s.writeScalar (sIndex d) 0).complete none) := by
  rw [exec, execSzero]
  exact runCommand_of_ok hs rfl

theorem exec_sone_ok : exec (.sone d) s = .next ((s.writeScalar (sIndex d) 1).complete none) := by
  rw [exec, execSone]
  exact runCommand_of_ok hs rfl

theorem exec_simm_ok (n : BitVec 16) :
    exec (.simm d n) s = .next ((s.writeScalar (sIndex d) n.toNat).complete none) := by
  rw [exec, execSimm]
  exact runCommand_of_ok hs rfl

theorem exec_srand_ok :
    exec (.srand d) s = .next ((s.drawn.writeScalar (sIndex d) (leNat s.drawBytes % s.q)).complete none) := by
  rw [exec, execSrand]
  exact runCommand_of_ok hs rfl

section

variable (ha : s.sv[sIndex a] = true)
include ha

theorem exec_sisz_ok :
    exec (.sisz a) s = .next ((s.setResult (if s.canonical (sIndex a) = 0 then 1 else 0)).complete none) := by
  rw [exec, execSisz]
  exact runCommand_of_ok hs (bind_eq_ok.2 ⟨_, State.scalar_ok ha, rfl⟩)

theorem exec_snbits_ok :
    exec (.snbits a) s = .next ((s.setResult
      (BitVec.ofNat 32 (bitLengthBytes (beBytes 32 (s.canonical (sIndex a)))))).complete none) := by
  rw [exec, execSnbits]
  exact runCommand_of_ok hs (bind_eq_ok.2 ⟨_, State.scalar_ok ha, rfl⟩)

theorem exec_smov_ok :
    exec (.smov d a) s = .next ((s.setS (sIndex d) s.sreg[sIndex a].toNat).complete none) := by
  rw [exec, execSmov]
  exact runCommand_of_ok hs (bind_eq_ok.2 ⟨_, State.residue_ok ha, rfl⟩)

variable (hb : s.sv[sIndex b] = true)
include hb

theorem exec_seq_ok :
    exec (.seq a b) s = .next ((s.setResult
      (if s.sreg[sIndex a].toNat = s.sreg[sIndex b].toNat then 1 else 0)).complete none) := by
  rw [exec, execSeq]
  exact runCommand_of_ok hs (bind_eq_ok.2 ⟨_, State.residue_ok ha, bind_eq_ok.2 ⟨_, State.residue_ok hb, rfl⟩⟩)

theorem exec_scmp_ok :
    exec (.scmp a b) s = .next ((s.setResult (compareBytes (beBytes 32 (s.canonical (sIndex a)))
      (beBytes 32 (s.canonical (sIndex b))))).complete none) := by
  rw [exec, execScmp]
  exact runCommand_of_ok hs (bind_eq_ok.2 ⟨_, State.scalar_ok ha, bind_eq_ok.2 ⟨_, State.scalar_ok hb, rfl⟩⟩)

theorem exec_ssel_ok :
    exec (.ssel d a b) s = .next ((s.setS (sIndex d)
      (if s.result.getLsbD 0 then s.sreg[sIndex b].toNat else s.sreg[sIndex a].toNat)).complete none) := by
  rw [exec, execSsel]
  exact runCommand_of_ok hs (bind_eq_ok.2 ⟨_, State.residue_ok ha, bind_eq_ok.2 ⟨_, State.residue_ok hb, rfl⟩⟩)

end

variable {r : RegField} {off : BitVec 6} {len : BitVec 12} {o : Nat}

theorem exec_sldokm_ok (ho : bufferRange off len 48 = .ok o) :
    exec (.sldokm r off len) s = .next ((s.writeScalar (sIndex r) (beSum s.dbuf o 48 % s.q)).complete none) := by
  rw [exec, execSldokm, ← beNat_readBytes]
  exact runCommand_of_ok hs (bind_eq_ok.2 ⟨o, ho, rfl⟩)

theorem exec_sldle_notCanonical (ho : bufferRange off len 32 = .ok o) (hx : s.q ≤ leSum s.dbuf o 32) :
    exec (.sldle r off len) s = .next (s.complete (some (.none .notCanonical))) := by
  rw [exec, execSldle]
  refine runCommand_of_error hs (bind_eq_error.2 (.inr ⟨o, ho, ?_⟩))
  rw [leNat_readBytes, if_pos hx]
  rfl

theorem exec_sldbe_notCanonical (ho : bufferRange off len 32 = .ok o) (hx : s.q ≤ beSum s.dbuf o 32) :
    exec (.sldbe r off len) s = .next (s.complete (some (.none .notCanonical))) := by
  rw [exec, execSldbe]
  refine runCommand_of_error hs (bind_eq_error.2 (.inr ⟨o, ho, ?_⟩))
  rw [beNat_readBytes, if_pos hx]
  rfl

end

/-! ### The statements -/

/-- Canonical values are equal exactly where the residues are (41_scalar_cmp_move.md R200). -/
theorem canonical_eq_iff {s : State} (hq : ScalarModulusOk s.q) {i j : Fin 16} (hi : ReadyS s i) (hj : ReadyS s j) :
    s.canonical i = s.canonical j ↔ s.sreg[i].toNat = s.sreg[j].toNat := by
  constructor
  · intro h
    rw [← res_canonical hq hi, ← res_canonical hq hj, h]
  · intro h
    rw [State.canonical, State.canonical, h]

/-- Settles O29. -/
theorem scalarEqualityTests : Obligations.ScalarEqualityTests := by
  intro s a b hq hs ha hb
  refine ⟨⟨_, exec_seq_ok hs ha.valid hb.valid, ?_⟩, ⟨_, exec_sisz_ok hs ha.valid, okResult_setResult s _⟩⟩
  simp only [canonical_eq_iff hq ha hb]
  exact okResult_setResult s _

/-- Settles O30. -/
theorem scalarOrderAndBitLength : Obligations.ScalarOrderAndBitLength := by
  intro s a b hq hs ha hb
  have hsize : (s.canonical (sIndex a)).size ≤ 255 := Nat.size_le.2 (lt_trans (canonical_lt hq _) hq.high)
  refine ⟨⟨_, exec_scmp_ok hs ha.valid hb.valid, ?_⟩, ⟨_, exec_snbits_ok hs ha.valid, ?_, ?_⟩⟩
  · rw [compareBytes_eq (by rw [length_beBytes, length_beBytes]), beNat_beBytes_scalar hq (canonical_lt hq _),
      beNat_beBytes_scalar hq (canonical_lt hq _)]
    exact okResult_setResult s _
  · rw [bitLengthBytes_eq, beNat_beBytes_scalar hq (canonical_lt hq _)]
    exact okResult_setResult s _
  · rw [State.complete_result, State.setResult_result, bitLengthBytes_eq,
      beNat_beBytes_scalar hq (canonical_lt hq _), BitVec.toNat_ofNat]
    exact (Nat.mod_le _ _).trans hsize

/-- Settles O31: bit 0 of RESULT is its parity. -/
theorem scalarSelectAndMove : Obligations.ScalarSelectAndMove := by
  intro s d a b hs ha hb
  refine ⟨⟨_, exec_ssel_ok hs ha hb, ?_⟩, ⟨_, exec_smov_ok hs ha, okScalar_setS s _ (BitVec.isLt _)⟩⟩
  have hbit : s.result.getLsbD 0 = decide (s.result.toNat % 2 = 1) := by
    rw [BitVec.getLsbD, Nat.testBit_zero]
  simp only [hbit, decide_eq_true_eq]
  refine okScalar_setS s _ ?_
  split <;> exact BitVec.isLt _

/-- Settles O32: 0, 1 and a 16-bit immediate are below Q. -/
theorem scalarConstants : Obligations.ScalarConstants := by
  intro s d n hq hs
  have hn : n.toNat < s.q := lt_trans n.isLt (lt_trans (by norm_num) hq.low)
  have hzero : res s.q 0 = 0 := by rw [res, zero_mul, Nat.zero_mod]
  have hone : res s.q 1 = 2 ^ 256 % s.q := by rw [res, one_mul, Config.R]
  refine ⟨⟨_, exec_szero_ok hs, ?_, ?_⟩, ⟨_, exec_sone_ok hs, ?_, ?_⟩, ⟨_, exec_simm_ok hs n, ?_, ?_⟩⟩
  · rw [← hzero]
    exact okScalar_writeScalar hq _ _
  · rw [State.canonical_complete, State.canonical_writeScalar hq _ hq.pos]
  · rw [← hone]
    exact okScalar_writeScalar hq _ _
  · rw [State.canonical_complete, State.canonical_writeScalar hq _ hq.prime.one_lt]
  · exact okScalar_writeScalar hq _ _
  · rw [State.canonical_complete, State.canonical_writeScalar hq _ hn]

/-- Settles O33. -/
theorem nopAndRandomScalar : Obligations.NopAndRandomScalar := by
  intro s d hq hs
  refine ⟨⟨_, exec_nop_ok hs, ⟨rfl, rfl⟩, s.complete_onlyStatus _⟩, ⟨_, _, exec_srand_ok hs,
    okScalar_drawn_setS s _ (lt_trans (res_lt hq _) hq.lt_container), res_lt hq _, ?_⟩⟩
  have hlt : leNat s.drawBytes % s.q < s.drawn.q := Nat.mod_lt _ hq.pos
  rw [State.canonical_complete, State.canonical_writeScalar (s := s.drawn) hq _ hlt, State.drawBytes, leNat_map_range]

/-- Settles O34. -/
theorem canonicalScalarLoads : Obligations.CanonicalScalarLoads := by
  intro s r off len o hq hs ho
  refine ⟨fun hx => ⟨_, _, exec_sldle_ok hs ho hx, okScalar_writeScalar hq _ _, res_lt hq _, ?_⟩,
    fun hx => ⟨_, exec_sldle_notCanonical hs ho hx, s.complete_endsNone .notCanonical⟩,
    fun hx => ⟨_, _, exec_sldbe_ok hs ho hx, okScalar_writeScalar hq _ _, res_lt hq _, ?_⟩,
    fun hx => ⟨_, exec_sldbe_notCanonical hs ho hx, s.complete_endsNone .notCanonical⟩⟩
  · rw [State.canonical_complete, State.canonical_writeScalar hq _ hx]
  · rw [State.canonical_complete, State.canonical_writeScalar hq _ hx]

/-- Settles O35. -/
theorem reducingScalarLoads : Obligations.ReducingScalarLoads := by
  intro s r off len o hq hs
  refine ⟨fun ho => ⟨_, _, exec_sldraw_ok hs hq ho, okScalar_writeScalar hq _ _, res_lt hq _, ?_⟩,
    fun ho => ⟨_, _, exec_sldwide_ok hs ho, okScalar_writeScalar hq _ _, res_lt hq _, ?_⟩,
    fun ho => ⟨_, _, exec_sldokm_ok hs ho, okScalar_writeScalar hq _ _, res_lt hq _, ?_⟩⟩
  all_goals rw [State.canonical_complete, State.canonical_writeScalar hq _ (Nat.mod_lt _ hq.pos)]

/-- Settles O36. -/
theorem scalarStores : Obligations.ScalarStores := by
  intro s r off len o hm hs hv ho
  have hb := bufferRange_bound ho
  refine ⟨⟨_, exec_sstle_ok hs ho hv, ?_⟩, ⟨_, exec_sstbe_ok hs ho hv, ?_⟩⟩
  · rw [← leBytes_eq]
    exact okBuffer_store s o _ hm (by rwa [length_leBytes])
  · rw [← beBytes_eq]
    exact okBuffer_store s o _ hm (by rwa [length_beBytes])

end Sys2Proof.Machine
end

section
/-! SUPPORT. The target group (43_gt_group.md R266 to R282, 70_reset_and_hazards.md R388): the values in range of a lawful
tower are a commutative monoid under TW_MUL12, in which GSMUL is a power and the members are the elements whose power Q is
ONE12. -/

namespace Sys2Proof

/-! ### Powers over a lawful tower -/

theorem Fp12.one_ne_zero : Fp12.one ≠ Fp12.zero := by decide +kernel

theorem Fp12.comps_injective : Function.Injective Fp12.comps := by
  rintro ⟨⟨⟨a0, a1⟩, ⟨a2, a3⟩, ⟨a4, a5⟩⟩, ⟨⟨a6, a7⟩, ⟨a8, a9⟩, ⟨a10, a11⟩⟩⟩
    ⟨⟨⟨b0, b1⟩, ⟨b2, b3⟩, ⟨b4, b5⟩⟩, ⟨⟨b6, b7⟩, ⟨b8, b9⟩, ⟨b10, b11⟩⟩⟩ h
  simpa [Fp12.comps, Fp6.comps, and_assoc] using h

/-- The values of Fp12 with components in [0, P) (43_gt_group.md R261). -/
abbrev Fp12.Ranged (p : Nat) : Type := { a : Fp12 // a.inRange p = true }

/-- Law L1 of 43_gt_group.md R263: what Mathlib knows of powers then holds of `Tower.pow` (`Tower.Lawful.pow_eq`). -/
abbrev Tower.Lawful.commMonoid {q p : Nat} {tw : Tower} (h : tw.Lawful q p) (hp : 1 < p) :
    CommMonoid (Fp12.Ranged p) where
  mul a b := ⟨tw.mul12 a b, h.mul12 _ _ a.2 b.2⟩
  one := ⟨Fp12.one, Fp12.one_inRange hp⟩
  mul_assoc a b c := Subtype.ext (h.mulAssoc _ _ _ a.2 b.2 c.2)
  mul_comm a b := Subtype.ext (h.mulComm _ _ a.2 b.2)
  mul_one a := Subtype.ext (h.mulOne _ a.2)
  one_mul a := Subtype.ext ((h.mulComm _ _ (Fp12.one_inRange hp) a.2).trans (h.mulOne _ a.2))

section Powers

variable {q p : Nat} {tw : Tower} (h : tw.Lawful q p) (hp : 1 < p)
include h hp

theorem Tower.Lawful.pow_eq (a : Fp12.Ranged p) (n : Nat) : tw.pow a n = (h.commMonoid hp).npow n a := by
  let := h.commMonoid hp
  induction n with
  | zero => rfl
  | succ n ih => exact congrArg (tw.mul12 · a) ih |>.trans (congrArg Subtype.val (pow_succ a n)).symm

theorem Tower.Lawful.pow_inRange {a : Fp12} (ha : a.inRange p = true) (n : Nat) : (tw.pow a n).inRange p = true := by
  rw [h.pow_eq hp ⟨a, ha⟩]
  exact ((h.commMonoid hp).npow n ⟨a, ha⟩).2

theorem Tower.Lawful.pow_one12 (n : Nat) : tw.pow Fp12.one n = Fp12.one := by
  let := h.commMonoid hp
  exact (h.pow_eq hp 1 n).trans (congrArg Subtype.val (one_pow n))

theorem Tower.Lawful.pow_mul12 {a b : Fp12} (ha : a.inRange p = true) (hb : b.inRange p = true) (n : Nat) :
    tw.pow (tw.mul12 a b) n = tw.mul12 (tw.pow a n) (tw.pow b n) := by
  let := h.commMonoid hp
  rw [h.pow_eq hp ⟨a, ha⟩, h.pow_eq hp ⟨b, hb⟩]
  exact (h.pow_eq hp (⟨a, ha⟩ * ⟨b, hb⟩) n).trans (congrArg Subtype.val (mul_pow _ _ n))

theorem Tower.Lawful.pow_pow {a : Fp12} (ha : a.inRange p = true) (m n : Nat) :
    tw.pow (tw.pow a m) n = tw.pow a (m * n) := by
  let := h.commMonoid hp
  rw [h.pow_eq hp ⟨a, ha⟩, h.pow_eq hp ⟨a, ha⟩]
  exact (h.pow_eq hp (⟨a, ha⟩ ^ m) n).trans (congrArg Subtype.val (pow_mul _ m n).symm)

theorem Tower.Lawful.pow_mod {a : Fp12} (ha : a.inRange p = true) {m : Nat} (hm : tw.pow a m = Fp12.one) (n : Nat) :
    tw.pow a (n % m) = tw.pow a n := by
  let := h.commMonoid hp
  rw [h.pow_eq hp ⟨a, ha⟩] at hm
  rw [h.pow_eq hp ⟨a, ha⟩, h.pow_eq hp ⟨a, ha⟩]
  exact congrArg Subtype.val (pow_eq_pow_mod n (Subtype.ext hm : (⟨a, ha⟩ : Fp12.Ranged p) ^ m = 1)).symm

/-- Inverses under TW_MUL12 are unique. -/
theorem Tower.Lawful.inverse_unique {a b c : Fp12} (ha : a.inRange p = true) (hb : b.inRange p = true)
    (hc : c.inRange p = true) (hab : tw.mul12 a b = Fp12.one) (hac : tw.mul12 a c = Fp12.one) : b = c := by
  let := h.commMonoid hp
  have hba : (⟨b, hb⟩ * ⟨a, ha⟩ : Fp12.Ranged p) = 1 := Subtype.ext ((h.mulComm _ _ hb ha).trans hab)
  exact congrArg Subtype.val (left_inv_eq_right_inv hba (Subtype.ext hac : (⟨a, ha⟩ * ⟨c, hc⟩ : Fp12.Ranged p) = 1))

/-- The double-and-add loop over the low n bits of the scalar (43_gt_group.md R270). -/
theorem Tower.Lawful.gsmulLoop_eq (g acc : Fp12.Ranged p) (x n : Nat) :
    Machine.gsmulLoop tw g x n acc = tw.mul12 (tw.pow acc (2 ^ n)) (tw.pow g (x % 2 ^ n)) := by
  let := h.commMonoid hp
  rw [h.pow_eq hp, h.pow_eq hp]
  change _ = (acc ^ 2 ^ n * g ^ (x % 2 ^ n)).1
  induction n generalizing acc with
  | zero => simp [Machine.gsmulLoop, Nat.mod_one]
  | succ n ih =>
    have hround : (if x.testBit n then tw.mul12 (tw.sqr12 acc) g else tw.sqr12 acc) =
        (acc * acc * g ^ (x.testBit n).toNat).1 := by
      rw [h.sqr _ acc.2]
      cases x.testBit n with
      | false => exact congrArg Subtype.val (mul_one (acc * acc)).symm
      | true => exact congrArg (fun b => (acc * acc * b).1) (pow_one g).symm
    rw [Machine.gsmulLoop, hround, ih, Nat.mod_pow_succ, ← Nat.toNat_testBit, ← sq, mul_pow, ← pow_mul, ← pow_mul,
      mul_assoc, ← pow_add, ← pow_succ', add_comm (x % 2 ^ n), mul_comm (2 ^ n)]

theorem Tower.Lawful.gsmul_eq_pow {g : Fp12} (hg : g.inRange p = true) (x : Nat) :
    Machine.gsmul tw g x = tw.pow g (x % 2 ^ 255) := by
  have hr := h.pow_inRange hp hg (x % 2 ^ 255)
  rw [Machine.gsmul, h.gsmulLoop_eq hp ⟨g, hg⟩ ⟨Fp12.one, Fp12.one_inRange hp⟩, h.pow_one12 hp,
    h.mulComm _ _ (Fp12.one_inRange hp) hr, h.mulOne _ hr]

end Powers

/-! ### Members (43_gt_group.md R263, R278) -/

section Members

variable {q p : Nat} {tw : Tower} (h : tw.Lawful q p) (hq : 0 < q) (hp : 1 < p)
include h hq hp

/-- Law L5 without its first half: ZERO12 has no power ONE12. -/
theorem Tower.Lawful.subg_iff {a : Fp12} (ha : a.inRange p = true) : tw.subg a = true ↔ tw.pow a q = Fp12.one := by
  rw [h.subgIff a ha, and_iff_right_iff_imp]
  rintro hpow rfl
  obtain ⟨n, rfl⟩ := Nat.exists_eq_succ_of_ne_zero hq.ne'
  rw [Tower.pow, h.mulZero _ (h.pow_inRange hp ha n)] at hpow
  exact Fp12.one_ne_zero hpow.symm

theorem Tower.Lawful.subg_one : tw.subg Fp12.one = true :=
  (h.subg_iff hq hp (Fp12.one_inRange hp)).2 (h.pow_one12 hp q)

theorem Tower.Lawful.subg_mul {a b : Fp12} (ha : a.inRange p = true) (hb : b.inRange p = true) (hsa : tw.subg a = true)
    (hsb : tw.subg b = true) : tw.subg (tw.mul12 a b) = true := by
  rw [h.subg_iff hq hp ha] at hsa
  rw [h.subg_iff hq hp hb] at hsb
  rw [h.subg_iff hq hp (h.mul12 _ _ ha hb), h.pow_mul12 hp ha hb, hsa, hsb, h.mulOne _ (Fp12.one_inRange hp)]

theorem Tower.Lawful.subg_sqr {a : Fp12} (ha : a.inRange p = true) (hsa : tw.subg a = true) :
    tw.subg (tw.sqr12 a) = true := by
  rw [h.sqr a ha]
  exact h.subg_mul hq hp ha ha hsa hsa

theorem Tower.Lawful.subg_pow {a : Fp12} (ha : a.inRange p = true) (hsa : tw.subg a = true) (n : Nat) :
    tw.subg (tw.pow a n) = true := by
  rw [h.subg_iff hq hp ha] at hsa
  rw [h.subg_iff hq hp (h.pow_inRange hp ha n), h.pow_pow hp ha, mul_comm, ← h.pow_pow hp ha, hsa, h.pow_one12 hp]

theorem Tower.Lawful.subg_gsmul {a : Fp12} (ha : a.inRange p = true) (hsa : tw.subg a = true) (x : Nat) :
    tw.subg (Machine.gsmul tw a x) = true := by
  rw [h.gsmul_eq_pow hp ha]
  exact h.subg_pow hq hp ha hsa _

/-- The inverse of a member is its power Q - 1. -/
theorem Tower.Lawful.pow_sub_one {a : Fp12} (ha : a.inRange p = true) (hsa : tw.subg a = true) :
    tw.pow a (q - 1) = tw.conj12 a := by
  have hpow := h.pow_inRange hp ha (q - 1)
  have hmul : tw.mul12 (tw.pow a (q - 1)) a = Fp12.one := by
    rw [← (h.subg_iff hq hp ha).1 hsa]
    conv_rhs => rw [← Nat.sub_add_cancel hq]
    rfl
  exact h.inverse_unique hp ha hpow (h.conj12 _ ha) ((h.mulComm _ _ ha hpow).trans hmul) (h.unitary a ha hsa)

theorem Tower.Lawful.subg_conj {a : Fp12} (ha : a.inRange p = true) (hsa : tw.subg a = true) :
    tw.subg (tw.conj12 a) = true := by
  rw [← h.pow_sub_one hq hp ha hsa]
  exact h.subg_pow hq hp ha hsa _

omit hq in
/-- Inversion of a member is conjugation (43_gt_group.md R272). -/
theorem Tower.Lawful.inv12_eq_conj {a : Fp12} (ha : a.inRange p = true) (hsa : tw.subg a = true) :
    tw.inv12 a = some (tw.conj12 a) := by
  obtain ⟨hne, -⟩ := (h.subgIff a ha).1 hsa
  obtain ⟨b, hb, hab⟩ := h.invMul a ha hne
  rw [hb, h.inverse_unique hp ha (h.inv12 _ _ ha hb) (h.conj12 _ ha) hab (h.unitary a ha hsa)]

end Members

namespace Machine

/-! ### The counting tower (70_reset_and_hazards.md R388) -/

theorem gsmulLoop_counting (g acc : Fp12) (x n : Nat) :
    (gsmulLoop countingTower g x n acc).hi.c0.c0 = acc.hi.c0.c0 + BitVec.ofNat 384 n ∧
      (gsmulLoop countingTower g x n acc).hi.c0.c1 =
        acc.hi.c0.c1 + BitVec.ofNat 384 ((List.range n).filter x.testBit).length := by
  induction n generalizing acc with
  | zero => simp [gsmulLoop]
  | succ n ih =>
    obtain ⟨hsqr, hmul⟩ := ih (if x.testBit n then countingTower.mul12 (countingTower.sqr12 acc) g
      else countingTower.sqr12 acc)
    rw [gsmulLoop, hsqr, hmul, List.range_succ, List.filter_append, List.length_append]
    have hcomm (k : Nat) (c : FpWord) : c + 1#384 + BitVec.ofNat 384 k = c + BitVec.ofNat 384 (k + 1) := by
      rw [BitVec.ofNat_add]; ac_rfl
    cases hx : x.testBit n <;> simp [countingTower, hx, hcomm]

/-- Settles O41. -/
theorem gsmulTowerCalls : Obligations.GsmulTowerCalls := by
  intro g x
  obtain ⟨hsqr, hmul⟩ := gsmulLoop_counting g Fp12.one x 255
  have hlen : ((List.range 255).filter x.testBit).length ≤ 255 :=
    (List.length_filter_le _ _).trans_eq List.length_range
  refine ⟨by rw [gsmul, hsqr]; rfl, ?_⟩
  rw [gsmul, hmul]
  change ((0 : FpWord) + BitVec.ofNat 384 _).toNat = _
  rw [zero_add, BitVec.toNat_ofNat, Nat.mod_eq_of_lt (by omega)]

/-- Settles O40: below 2^255 GSMUL is the power, of a member the power by the scalar modulo Q, of ONE12 always ONE12. -/
theorem gsmulLaws : Obligations.GsmulLaws := by
  intro q p tw g hqok hpok h hg
  have hp := hpok.prime.one_lt
  have hlow : ∀ x < q, gsmul tw g x = tw.pow g x := fun x hx => by
    rw [h.gsmul_eq_pow hp hg, Nat.mod_eq_of_lt (lt_trans hx hqok.high)]
  refine ⟨hlow, fun hs x y hx hy => ?_, fun hs => ?_, fun x => ?_⟩
  · have hord := (h.subg_iff hqok.pos hp hg).1 hs
    rw [hlow x hx, hlow _ (Nat.mod_lt _ hqok.pos), h.gsmul_eq_pow hp (h.pow_inRange hp hg x),
      Nat.mod_eq_of_lt (lt_trans hy hqok.high), h.pow_pow hp hg, h.pow_mod hp hg hord]
  · rw [hlow _ (Nat.sub_lt hqok.pos Nat.one_pos), h.pow_sub_one hqok.pos hp hg hs]
  · rw [h.gsmul_eq_pow hp (Fp12.one_inRange hp), h.pow_one12 hp]

/-! ### The commands where their checks pass -/

section

variable {s : State} {d a b : RegField} (hs : s.status.halted = false)
include hs

section

variable (hd : d.toNat < 8)
include hd

theorem exec_gone_ok : exec (.gone d) s = .next ((s.setG ⟨d.toNat, hd⟩ Fp12.one).complete none) := by
  rw [exec, execGone]
  exact runCommand_of_ok hs (bind_eq_ok.2 ⟨_, gIndex_ok hd, rfl⟩)

theorem exec_ggen_ok : exec (.ggen d) s = .next ((s.setG ⟨d.toNat, hd⟩ s.platform.gtGen).complete none) := by
  rw [exec, execGgen]
  exact runCommand_of_ok hs (bind_eq_ok.2 ⟨_, gIndex_ok hd, rfl⟩)

theorem exec_grand_ok : exec (.grand d) s = .next (grandRound s ⟨d.toNat, hd⟩) := by
  rw [exec, execGrand, hs, gIndex_ok hd]
  rfl

end

variable (ha : a.toNat < 8) (hva : s.gv[a.toNat] = true)
include ha hva

theorem exec_gisid_ok :
    exec (.gisid a) s = .next ((s.setResult (if s.greg[a.toNat] = Fp12.one then 1 else 0)).complete none) := by
  rw [exec, execGisid]
  exact runCommand_of_ok hs (bind_eq_ok.2 ⟨_, gIndex_ok ha, bind_eq_ok.2 ⟨_, State.gt_ok hva, rfl⟩⟩)

theorem exec_gsubg_ok :
    exec (.gsubg a) s = .next ((s.setResult (if s.tower.subg s.greg[a.toNat] then 1 else 0)).complete none) := by
  rw [exec, execGsubg]
  exact runCommand_of_ok hs (bind_eq_ok.2 ⟨_, gIndex_ok ha, bind_eq_ok.2 ⟨_, State.gt_ok hva, rfl⟩⟩)

theorem exec_geq_ok (hb : b.toNat < 8) (hvb : s.gv[b.toNat] = true) :
    exec (.geq a b) s =
      .next ((s.setResult (if s.greg[a.toNat] = s.greg[b.toNat] then 1 else 0)).complete none) := by
  rw [exec, execGeq]
  exact runCommand_of_ok hs (bind_eq_ok.2 ⟨_, gIndex_ok ha, bind_eq_ok.2 ⟨_, gIndex_ok hb,
    bind_eq_ok.2 ⟨_, State.gt_ok hva, bind_eq_ok.2 ⟨_, State.gt_ok hvb, rfl⟩⟩⟩⟩)

variable (hd : d.toNat < 8)
include hd

theorem exec_gneg_ok :
    exec (.gneg d a) s = .next ((s.setG ⟨d.toNat, hd⟩ (s.tower.conj12 s.greg[a.toNat])).complete none) := by
  rw [exec, execGneg]
  exact runCommand_of_ok hs (bind_eq_ok.2 ⟨_, gIndex_ok hd, bind_eq_ok.2 ⟨_, gIndex_ok ha,
    bind_eq_ok.2 ⟨_, State.gt_ok hva, rfl⟩⟩⟩)

theorem exec_gdbl_ok :
    exec (.gdbl d a) s = .next ((s.setG ⟨d.toNat, hd⟩ (s.tower.sqr12 s.greg[a.toNat])).complete none) := by
  rw [exec, execGdbl]
  exact runCommand_of_ok hs (bind_eq_ok.2 ⟨_, gIndex_ok hd, bind_eq_ok.2 ⟨_, gIndex_ok ha,
    bind_eq_ok.2 ⟨_, State.gt_ok hva, rfl⟩⟩⟩)

theorem exec_gmov_ok :
    exec (.gmov d a) s = .next ((s.setG ⟨d.toNat, hd⟩ s.greg[a.toNat]).complete none) := by
  rw [exec, execGmov]
  exact runCommand_of_ok hs (bind_eq_ok.2 ⟨_, gIndex_ok hd, bind_eq_ok.2 ⟨_, gIndex_ok ha,
    bind_eq_ok.2 ⟨_, State.gt_ok hva, rfl⟩⟩⟩)

theorem exec_gsmul_ok (hvb : s.sv[sIndex b] = true) : exec (.gsmul d a b) s =
    .next ((s.setG ⟨d.toNat, hd⟩ (gsmul s.tower s.greg[a.toNat] (s.canonical (sIndex b)))).complete none) := by
  rw [exec, execGsmul]
  exact runCommand_of_ok hs (bind_eq_ok.2 ⟨_, gIndex_ok hd, bind_eq_ok.2 ⟨_, gIndex_ok ha,
    bind_eq_ok.2 ⟨_, State.gt_ok hva, bind_eq_ok.2 ⟨_, State.scalar_ok hvb, rfl⟩⟩⟩⟩)

theorem exec_ginv_ok {y : Fp12} (hy : s.tower.inv12 s.greg[a.toNat] = some y) :
    exec (.ginv d a) s = .next ((s.setG ⟨d.toNat, hd⟩ y).complete none) := by
  rw [exec, execGinv]
  refine runCommand_of_ok hs (bind_eq_ok.2 ⟨_, gIndex_ok hd, bind_eq_ok.2 ⟨_, gIndex_ok ha,
    bind_eq_ok.2 ⟨_, State.gt_ok hva, ?_⟩⟩⟩)
  change (match s.tower.inv12 s.greg[a.toNat] with | none => _ | some y => _) = _
  rw [hy]
  rfl

theorem exec_ginv_none (hy : s.tower.inv12 s.greg[a.toNat] = none) :
    exec (.ginv d a) s = .next (s.complete (some (.none .nonInvertible))) := by
  rw [exec, execGinv]
  refine runCommand_of_error hs (bind_eq_error.2 (.inr ⟨_, gIndex_ok hd, bind_eq_error.2 (.inr ⟨_, gIndex_ok ha,
    bind_eq_error.2 (.inr ⟨_, State.gt_ok hva, ?_⟩)⟩)⟩))
  change (match s.tower.inv12 s.greg[a.toNat] with | none => _ | some y => _) = _
  rw [hy]
  rfl

variable (hb : b.toNat < 8) (hvb : s.gv[b.toNat] = true)
include hb hvb

theorem exec_gadd_ok : exec (.gadd d a b) s =
    .next ((s.setG ⟨d.toNat, hd⟩ (s.tower.mul12 s.greg[a.toNat] s.greg[b.toNat])).complete none) := by
  rw [exec, execGadd]
  exact runCommand_of_ok hs (bind_eq_ok.2 ⟨_, gIndex_ok hd, bind_eq_ok.2 ⟨_, gIndex_ok ha,
    bind_eq_ok.2 ⟨_, gIndex_ok hb, bind_eq_ok.2 ⟨_, State.gt_ok hva, bind_eq_ok.2 ⟨_, State.gt_ok hvb, rfl⟩⟩⟩⟩⟩)

theorem exec_gsub_ok : exec (.gsub d a b) s =
    .next ((s.setG ⟨d.toNat, hd⟩ (s.tower.mul12 s.greg[a.toNat] (s.tower.conj12 s.greg[b.toNat]))).complete none) := by
  rw [exec, execGsub]
  exact runCommand_of_ok hs (bind_eq_ok.2 ⟨_, gIndex_ok hd, bind_eq_ok.2 ⟨_, gIndex_ok ha,
    bind_eq_ok.2 ⟨_, gIndex_ok hb, bind_eq_ok.2 ⟨_, State.gt_ok hva, bind_eq_ok.2 ⟨_, State.gt_ok hvb, rfl⟩⟩⟩⟩⟩)

end

/-! ### The statements -/

/-- Settles O38. -/
theorem gtRingCommands : Obligations.GtRingCommands := fun s _ _ _ hd ha hb hs hva hvb =>
  ⟨⟨_, exec_gadd_ok hs ha hva hd hb hvb, okGt_setG s _ _⟩, ⟨_, exec_gsub_ok hs ha hva hd hb hvb, okGt_setG s _ _⟩,
    ⟨_, exec_gneg_ok hs ha hva hd, okGt_setG s _ _⟩, ⟨_, exec_gdbl_ok hs ha hva hd, okGt_setG s _ _⟩⟩

/-- Settles O43. -/
theorem gtConstantsAndMove : Obligations.GtConstantsAndMove := fun s _ hd hs =>
  ⟨⟨_, exec_gone_ok hs hd, okGt_setG s _ _⟩, ⟨_, exec_ggen_ok hs hd, okGt_setG s _ _⟩,
    fun _ ha hva => ⟨_, exec_gmov_ok hs ha hva hd, okGt_setG s _ _⟩⟩

/-- Settles O39: the canonical scalar is below 2^255, so no bit of it is skipped. -/
theorem gtScalarMultiplyIsPower : Obligations.GtScalarMultiplyIsPower := by
  intro s d a b hd ha hq hp h hs hva hg hb
  refine ⟨_, exec_gsmul_ok hs ha hva hd hb.valid, ?_⟩
  rw [h.gsmul_eq_pow hp.prime.one_lt hg, Nat.mod_eq_of_lt (lt_trans (canonical_lt hq _) hq.high)]
  exact okGt_setG s _ _

/-- Settles O42. -/
theorem gtInversion : Obligations.GtInversion := by
  intro s d a hd ha hs hva
  refine ⟨fun y hy => ⟨_, exec_ginv_ok hs ha hva hd hy, okGt_setG s _ _⟩,
    fun hy => ⟨_, exec_ginv_none hs ha hva hd hy, s.complete_endsNone .nonInvertible⟩,
    fun h hg => ⟨fun hz => ⟨_, exec_ginv_none hs ha hva hd (hz ▸ h.invZero), s.complete_endsNone .nonInvertible⟩,
      fun hne => ?_⟩⟩
  obtain ⟨y, hy, hmul⟩ := h.invMul _ hg hne
  have hok := okGt_setG s ⟨d.toNat, hd⟩ y
  refine ⟨_, exec_ginv_ok hs ha hva hd hy, congrArg Status.ok hok.done.1, ?_⟩
  exact (congrArg (s.tower.mul12 _) hok.value).trans hmul

/-- Settles O44: vectors are equal exactly where their components are. -/
theorem gtQueries : Obligations.GtQueries := by
  intro s a b ha hb hs hva hvb
  have hone : Fp12.one.comps = 1 :: List.replicate 11 0 := rfl
  simp only [← hone, Fp12.comps_injective.eq_iff]
  exact ⟨⟨_, exec_gisid_ok hs ha hva, okResult_setResult s _⟩, ⟨_, exec_geq_ok hs ha hva hb hvb, okResult_setResult s _⟩,
    ⟨_, exec_gsubg_ok hs ha hva, okResult_setResult s _⟩⟩

/-- Settles O45. -/
theorem gtRandomElement : Obligations.GtRandomElement := by
  intro s d hd hp hs
  have hr := drawFp12_inRange hp
  refine ⟨hr, _, exec_grand_ok hs hd, ?_⟩
  rw [grandRound]
  split
  next hz => rfl
  next hz =>
    have hok := okGt_drawn_setG s ⟨d.toNat, hd⟩ (s.tower.fexp s.drawFp12)
    exact ⟨hok, fun h => (congrArg s.tower.subg hok.value).trans (h.fexpSubg _ hr hz)⟩

/-- A command that writes a member of the target group to `G[d]`. -/
theorem writes_member {s : State} {i : Instr} {d : RegField} {g : Fp12} (hd : d.toNat < 8)
    (he : exec i s = .next ((s.setG ⟨d.toNat, hd⟩ g).complete none)) (hr : g.inRange s.p = true)
    (hg : s.tower.subg g = true) :
    ∃ t, exec i s = .next t ∧ DoneOk s t ∧ t.gv[d.toNat] = true ∧ t.greg[d.toNat].inRange s.p = true ∧
      s.tower.subg t.greg[d.toNat] = true := by
  have hok := okGt_setG s ⟨d.toNat, hd⟩ g
  exact ⟨_, he, hok.done, hok.valid, (congrArg (Fp12.inRange s.p) hok.value).trans hr,
    (congrArg s.tower.subg hok.value).trans hg⟩

/-- Settles O46: one closure property of members per command. -/
theorem subgroupIsClosed : Obligations.SubgroupIsClosed := by
  intro s d a b c hd ha hb hqok hpok h hs hva hra hsa hvb hrb hsb hvc
  have hp := hpok.prime.one_lt
  have hq := hqok.pos
  have hrc := h.conj12 _ hra
  have hrcb := h.conj12 _ hrb
  have hone := Fp12.one_inRange hp
  have hsc := h.subg_conj hq hp hra hsa
  have hadd := h.subg_mul hq hp hra hrb hsa hsb
  have hsub := h.subg_mul hq hp hra hrcb hsa (h.subg_conj hq hp hrb hsb)
  have hinv := h.inv12_eq_conj hp hra hsa
  refine ⟨?_, fun hr hg => writes_member hd (exec_ggen_ok hs hd) hr hg, ?_, hinv, hadd, hsub, hsc,
    h.subg_sqr hq hp hra hsa, h.subg_gsmul hq hp hra hsa, h.subg_one hq hp⟩
  · simp only [List.forall_mem_cons, List.not_mem_nil, false_imp_iff, implies_true, and_true]
    refine ⟨writes_member hd (exec_gadd_ok hs ha hva hd hb hvb) (h.mul12 _ _ hra hrb) hadd,
      writes_member hd (exec_gsub_ok hs ha hva hd hb hvb) (h.mul12 _ _ hra hrcb) hsub,
      writes_member hd (exec_gneg_ok hs ha hva hd) hrc hsc,
      writes_member hd (exec_gdbl_ok hs ha hva hd) (h.sqr12 _ hra) (h.subg_sqr hq hp hra hsa),
      writes_member hd (exec_gsmul_ok hs ha hva hd hvc) ?_ (h.subg_gsmul hq hp hra hsa _),
      writes_member hd (exec_ginv_ok hs ha hva hd hinv) hrc hsc,
      writes_member hd (exec_gmov_ok hs ha hva hd) hra hsa,
      writes_member hd (exec_gone_ok hs hd) hone (h.subg_one hq hp)⟩
    exact gsmulLoop_inRange h.toClosed hra _ _ hone
  · rw [exec_gneg_ok hs ha hva hd, exec_ginv_ok hs ha hva hd hinv]

end Machine

end Sys2Proof
end

section
/-! SUPPORT. The Gt codec and the torus codec (44_gt_codec_torus.md R300 to R311): vectors in DBUF, and compression with its
inverse. -/

namespace Sys2Proof.Machine

/-! ### Vectors in DBUF (44_gt_codec_torus.md R301, R303) -/

theorem beSum_lt (m : Memory) (off n : Nat) : beSum m off n < 256 ^ n := by
  have h := beNat_lt (Memory.readBytes m off n)
  rwa [Memory.length_readBytes, beNat_readBytes] at h

theorem leSum_lt (m : Memory) (off n : Nat) : leSum m off n < 256 ^ n := by
  have h := leNat_lt (Memory.readBytes m off n)
  rwa [Memory.length_readBytes, leNat_readBytes] at h

section

variable {p n off : Nat} {order : List Byte → Nat} {m : Memory}

theorem decodeVec_of_lt (h : ∀ k < n, component order m off k < p) :
    decodeVec p order m off n = some fun k => BitVec.ofNat 384 (component order m off k) := by
  rw [decodeVec, if_pos]
  simpa using h

theorem decodeVec_of_le (h : ∃ k < n, p ≤ component order m off k) : decodeVec p order m off n = none := by
  rw [decodeVec, if_neg]
  simpa using h

end

theorem component_beNat (m : Memory) (off k : Nat) : component beNat m off k = beSum m (off + 48 * k) 48 :=
  beNat_readBytes _ _ _

theorem component_leNat (m : Memory) (off k : Nat) : component leNat m off k = leSum m (off + 48 * k) 48 :=
  leNat_readBytes _ _ _

theorem comps_ofFn12 (f : Nat → FpWord) : (Fp12.ofFn f).comps = (List.range 12).map f := rfl

theorem comps_ofFn6 (f : Nat → FpWord) : (Fp6.ofFn f).comps = (List.range 6).map f := rfl

theorem Fp12.length_comps (g : Fp12) : g.comps.length = 12 := rfl

theorem bytes48_eq : 256 ^ 48 = 2 ^ 384 := by rw [show 256 = 2 ^ 8 from rfl, ← pow_mul]

theorem toNat_ofNat_bytes48 {x : Nat} (hx : x < 256 ^ 48) : (BitVec.ofNat 384 x).toNat = x := by
  rw [BitVec.toNat_ofNat, Nat.mod_eq_of_lt (lt_of_lt_of_eq hx bytes48_eq)]

/-- The vector that a Gt load takes from DBUF (44_gt_codec_torus.md R301). -/
def loadedGt (m : Memory) (off : Nat) : Fp12 := Fp12.ofFn fun k => BitVec.ofNat 384 (component beNat m off k)

/-- The torus value that TLD takes from DBUF (44_gt_codec_torus.md R310). -/
def loadedTorus (m : Memory) (off : Nat) : Fp6 := Fp6.ofFn fun k => BitVec.ofNat 384 (component leNat m off k)

theorem comps_loadedGt (m : Memory) (off : Nat) :
    (loadedGt m off).comps.map BitVec.toNat = (List.range 12).map fun k => beSum m (off + 48 * k) 48 := by
  rw [loadedGt, comps_ofFn12, List.map_map]
  refine List.map_congr_left fun k _ => ?_
  rw [Function.comp_apply, component_beNat, toNat_ofNat_bytes48 (beSum_lt _ _ _)]

theorem comps_loadedTorus (m : Memory) (off : Nat) :
    (loadedTorus m off).comps.map BitVec.toNat = (List.range 6).map fun k => leSum m (off + 48 * k) 48 := by
  rw [loadedTorus, comps_ofFn6, List.map_map]
  refine List.map_congr_left fun k _ => ?_
  rw [Function.comp_apply, component_leNat, toNat_ofNat_bytes48 (leSum_lt _ _ _)]

section

variable {order : Nat → Nat → List Byte} (ho : ∀ n x, (order n x).length = n)
include ho

/-- Component k of an encoded vector is at 48 k. -/
theorem take_drop_encodeVec : ∀ {cs : List FpWord} {k : Nat} (hk : k < cs.length),
    ((encodeVec order cs).drop (48 * k)).take 48 = order 48 cs[k].toNat
  | c :: cs, 0, _ => by
    rw [encodeVec, List.flatMap_cons, Nat.mul_zero, List.drop_zero, List.take_left' (ho _ _)]
    rfl
  | c :: cs, k + 1, hk => by
    rw [encodeVec, List.flatMap_cons, Nat.mul_succ, Nat.add_comm, ← List.drop_drop, List.drop_left' (ho _ _)]
    exact take_drop_encodeVec (Nat.lt_of_succ_lt_succ hk)

/-- A stored vector reads back component by component. -/
theorem readBytes_store_vector {m : Memory} {off : Nat} {cs : List FpWord} (hm : m.wf = true)
    (hb : off + 48 * cs.length ≤ dbufSize) {k : Nat} (hk : k < cs.length) :
    Memory.readBytes (Memory.writeBytes m off (encodeVec order cs)) (off + 48 * k) 48 = order 48 cs[k].toNat := by
  have hlen := length_encodeVec ho cs
  have hlen48 : (((encodeVec order cs).drop (48 * k)).take 48).length = 48 := by
    rw [List.length_take, List.length_drop]; omega
  rw [← take_drop_encodeVec ho hk]
  have hread := Memory.readBytes_eq (m := Memory.writeBytes m off (encodeVec order cs)) (off := off + 48 * k)
    (bs := ((encodeVec order cs).drop (48 * k)).take 48) fun j hj => by
      rw [List.getElem_take, List.getElem_drop, Nat.add_assoc]
      exact Memory.read_writeBytes_inside (encodeVec order cs) off (48 * k + j) (by omega) (by omega) hm
  rwa [hlen48] at hread

end

/-- What GST stores, a Gt load takes back (44_gt_codec_torus.md R303). -/
theorem component_store_gt {m : Memory} {off : Nat} (hm : m.wf = true) (hb : off + 576 ≤ dbufSize) (g : Fp12) {k : Nat}
    (hk : k < g.comps.length) :
    component beNat (Memory.writeBytes m off (encodeVec beBytes g.comps)) off k = g.comps[k].toNat := by
  have hlen := Fp12.length_comps g
  rw [component, readBytes_store_vector length_beBytes hm (by omega) hk, beNat_beBytes]
  exact Nat.mod_eq_of_lt (lt_of_lt_of_eq (BitVec.isLt _) bytes48_eq.symm)

theorem loadedGt_store {m : Memory} {off : Nat} (hm : m.wf = true) (hb : off + 576 ≤ dbufSize) (g : Fp12) :
    loadedGt (Memory.writeBytes m off (encodeVec beBytes g.comps)) off = g := by
  apply Fp12.comps_injective
  rw [loadedGt, comps_ofFn12]
  refine List.ext_getElem (by simp [Fp12.length_comps]) fun k _ hk => ?_
  rw [List.getElem_map, List.getElem_range, component_store_gt hm hb g hk, BitVec.ofNat_toNat, BitVec.setWidth_eq]

theorem Fp12.comp_lt {p : Nat} {g : Fp12} (hg : g.inRange p = true) {k : Nat} (hk : k < g.comps.length) :
    g.comps[k].toNat < p := by
  have hall : ∀ c ∈ g.comps, c.toNat < p := by
    simpa [Fp12.inRange, Fp6.inRange, Fp12.comps, or_imp, forall_and] using hg
  exact hall _ (List.getElem_mem _)

theorem encodeVec_beBytes (cs : List FpWord) : encodeVec beBytes cs = vectorEncoding beEncoding cs := by
  rw [encodeVec_eq, vectorEncoding, vectorEncoding]
  simp only [beBytes_eq]

theorem encodeVec_leBytes (cs : List FpWord) : encodeVec leBytes cs = vectorEncoding leEncoding cs := by
  rw [encodeVec_eq, vectorEncoding, vectorEncoding]
  simp only [leBytes_eq]

/-! ### The commands where their checks pass -/

section

variable {s : State} {r d a : RegField} {off : BitVec 6} {len : BitVec 12} {o : Nat} (hs : s.status.halted = false)
include hs

section

variable (ho : bufferRange off len 576 = .ok o) (hr : r.toNat < 8)
include ho hr

theorem exec_gst_ok (hv : s.gv[r.toNat] = true) :
    exec (.gst r off len) s = .next ((s.store o (encodeVec beBytes s.greg[r.toNat].comps)).complete none) := by
  rw [exec, execGst]
  exact runCommand_of_ok hs (bind_eq_ok.2 ⟨_, gIndex_ok hr, bind_eq_ok.2 ⟨_, State.gt_ok hv, bind_eq_ok.2 ⟨o, ho, rfl⟩⟩⟩)

theorem exec_gldu_notCanonical (hx : ∃ k < 12, s.p ≤ component beNat s.dbuf o k) :
    exec (.gldu r off len) s = .next (s.complete (some (.none .notCanonical))) := by
  rw [exec, execGldu]
  refine runCommand_of_error hs (bind_eq_error.2 (.inr ⟨_, gIndex_ok hr, bind_eq_error.2 (.inr ⟨o, ho, ?_⟩)⟩))
  rw [decodeVec_of_le hx]
  rfl

theorem exec_gld_notCanonical (hx : ∃ k < 12, s.p ≤ component beNat s.dbuf o k) :
    exec (.gld r off len) s = .next (s.complete (some (.none .notCanonical))) := by
  rw [exec, execGld]
  refine runCommand_of_error hs (bind_eq_error.2 (.inr ⟨_, gIndex_ok hr, bind_eq_error.2 (.inr ⟨o, ho, ?_⟩)⟩))
  rw [decodeVec_of_le hx]
  rfl

variable (hx : ∀ k < 12, component beNat s.dbuf o k < s.p)
include hx

theorem exec_gldu_ok :
    exec (.gldu r off len) s = .next ((s.setG ⟨r.toNat, hr⟩ (loadedGt s.dbuf o)).complete none) := by
  rw [exec, execGldu]
  refine runCommand_of_ok hs (bind_eq_ok.2 ⟨_, gIndex_ok hr, bind_eq_ok.2 ⟨o, ho, ?_⟩⟩)
  rw [decodeVec_of_lt hx]
  rfl

theorem exec_gld_ok (hm : s.tower.subg (loadedGt s.dbuf o) = true) :
    exec (.gld r off len) s = .next ((s.setG ⟨r.toNat, hr⟩ (loadedGt s.dbuf o)).complete none) := by
  rw [exec, execGld]
  refine runCommand_of_ok hs (bind_eq_ok.2 ⟨_, gIndex_ok hr, bind_eq_ok.2 ⟨o, ho, ?_⟩⟩)
  rw [decodeVec_of_lt hx]
  exact if_pos hm

theorem exec_gld_notInSubgroup (hm : s.tower.subg (loadedGt s.dbuf o) = false) :
    exec (.gld r off len) s = .next (s.complete (some (.none .notInSubgroup))) := by
  rw [exec, execGld]
  refine runCommand_of_error hs (bind_eq_error.2 (.inr ⟨_, gIndex_ok hr, bind_eq_error.2 (.inr ⟨o, ho, ?_⟩)⟩))
  rw [decodeVec_of_lt hx]
  exact if_neg (Bool.eq_false_iff.1 hm)

end

section

variable (ho : bufferRange off len 288 = .ok o) (hr : r.toNat < 4)
include ho hr

theorem exec_tst_ok (hv : s.tv[r.toNat] = true) :
    exec (.tst r off len) s = .next ((s.store o (encodeVec leBytes s.treg[r.toNat].comps)).complete none) := by
  rw [exec, execTst]
  exact runCommand_of_ok hs
    (bind_eq_ok.2 ⟨_, tIndex_ok hr, bind_eq_ok.2 ⟨_, State.torus_ok hv, bind_eq_ok.2 ⟨o, ho, rfl⟩⟩⟩)

theorem exec_tld_notCanonical (hx : ∃ k < 6, s.p ≤ component leNat s.dbuf o k) :
    exec (.tld r off len) s = .next (s.complete (some (.none .notCanonical))) := by
  rw [exec, execTld]
  refine runCommand_of_error hs (bind_eq_error.2 (.inr ⟨_, tIndex_ok hr, bind_eq_error.2 (.inr ⟨o, ho, ?_⟩)⟩))
  rw [decodeVec_of_le hx]
  rfl

theorem exec_tld_ok (hx : ∀ k < 6, component leNat s.dbuf o k < s.p) :
    exec (.tld r off len) s = .next ((s.setT ⟨r.toNat, hr⟩ (loadedTorus s.dbuf o)).complete none) := by
  rw [exec, execTld]
  refine runCommand_of_ok hs (bind_eq_ok.2 ⟨_, tIndex_ok hr, bind_eq_ok.2 ⟨o, ho, ?_⟩⟩)
  rw [decodeVec_of_lt hx]
  rfl

end

section

variable (hd : d.toNat < 4) (ha : a.toNat < 8) (hv : s.gv[a.toNat] = true)
include hd ha hv

theorem exec_gcmpr_ok {x : Fp6} (hx : compress s.tower s.p s.greg[a.toNat] = some x) :
    exec (.gcmpr d a) s = .next ((s.setT ⟨d.toNat, hd⟩ x).complete none) := by
  rw [exec, execGcmpr]
  refine runCommand_of_ok hs (bind_eq_ok.2 ⟨_, tIndex_ok hd, bind_eq_ok.2 ⟨_, gIndex_ok ha,
    bind_eq_ok.2 ⟨_, State.gt_ok hv, ?_⟩⟩⟩)
  change (match compress s.tower s.p s.greg[a.toNat] with | none => _ | some x => _) = _
  rw [hx]
  rfl

theorem exec_gcmpr_none (hx : compress s.tower s.p s.greg[a.toNat] = none) :
    exec (.gcmpr d a) s = .next (s.complete (some (.none .nonInvertible))) := by
  rw [exec, execGcmpr]
  refine runCommand_of_error hs (bind_eq_error.2 (.inr ⟨_, tIndex_ok hd, bind_eq_error.2 (.inr ⟨_, gIndex_ok ha,
    bind_eq_error.2 (.inr ⟨_, State.gt_ok hv, ?_⟩)⟩)⟩))
  change (match compress s.tower s.p s.greg[a.toNat] with | none => _ | some x => _) = _
  rw [hx]
  rfl

end

variable (hd : d.toNat < 8) (ha : a.toNat < 4) (hv : s.tv[a.toNat] = true)
include hd ha hv

theorem exec_guncmpr_ok {g : Fp12} (hg : uncompress s.tower s.p s.treg[a.toNat] = .ok g) :
    exec (.guncmpr d a) s = .next ((s.setG ⟨d.toNat, hd⟩ g).complete none) := by
  rw [exec, execGuncmpr]
  exact runCommand_of_ok hs (bind_eq_ok.2 ⟨_, gIndex_ok hd, bind_eq_ok.2 ⟨_, tIndex_ok ha,
    bind_eq_ok.2 ⟨_, State.torus_ok hv, bind_eq_ok.2 ⟨_, hg, rfl⟩⟩⟩⟩)

theorem exec_guncmpr_error {e : Stop} (hg : uncompress s.tower s.p s.treg[a.toNat] = .error e) :
    exec (.guncmpr d a) s = .next (s.complete (some e)) := by
  rw [exec, execGuncmpr]
  exact runCommand_of_error hs (bind_eq_error.2 (.inr ⟨_, gIndex_ok hd, bind_eq_error.2 (.inr ⟨_, tIndex_ok ha,
    bind_eq_error.2 (.inr ⟨_, State.torus_ok hv, bind_eq_error.2 (.inl hg)⟩)⟩)⟩))

end

/-! ### Loads and stores -/

/-- Settles O47. -/
theorem gtLoads : Obligations.GtLoads := by
  intro s r hr off len o hs ho
  simp only [← component_beNat]
  refine ⟨fun hx => ⟨⟨_, exec_gld_notCanonical hs ho hr hx, s.complete_endsNone .notCanonical⟩,
    ⟨_, exec_gldu_notCanonical hs ho hr hx, s.complete_endsNone .notCanonical⟩⟩, fun hx => ⟨loadedGt s.dbuf o, ?_,
    ⟨_, exec_gldu_ok hs ho hr hx, okGt_setG s _ _⟩, fun hm => ⟨_, exec_gld_ok hs ho hr hx hm, okGt_setG s _ _⟩,
    fun hm => ⟨_, exec_gld_notInSubgroup hs ho hr hx hm, s.complete_endsNone .notInSubgroup⟩⟩⟩
  simp only [component_beNat, comps_loadedGt]

/-- The encoding of the identity (44_gt_codec_torus.md R304). -/
theorem vectorEncoding_one :
    vectorEncoding beEncoding Fp12.one.comps = (List.range 576).map fun k => if k = 47 then 1 else 0 := by
  decide +kernel

/-- Settles O48. -/
theorem gtStore : Obligations.GtStore := by
  intro s r hr off len o hm hs hv ho
  have hb := bufferRange_bound ho
  have hlen : (encodeVec beBytes s.greg[r.toNat].comps).length = 576 := length_encodeVec length_beBytes _
  have hok := okBuffer_store s o (encodeVec beBytes s.greg[r.toNat].comps) hm (by omega)
  refine ⟨_, exec_gst_ok hs ho hr hv, ?_⟩
  generalize (s.store o (encodeVec beBytes s.greg[r.toNat].comps)).complete none = t at hok ⊢
  rw [encodeVec_beBytes] at hok hlen
  refine ⟨hok, hlen, fun hone k hk => ?_⟩
  rw [hok.bytes k (hk.trans_eq hlen.symm)]
  simp only [hone, vectorEncoding_one, List.getElem_map, List.getElem_range]

/-- Settles O49. -/
theorem gtStoreLoadRoundTrip : Obligations.GtStoreLoadRoundTrip := by
  intro s r r' hr hr' off len o hm hs hv hg ho
  have hb := bufferRange_bound ho
  refine ⟨_, exec_gst_ok hs ho hr hv, ?_⟩
  generalize ht : (s.store o (encodeVec beBytes s.greg[r.toNat].comps)).complete none = t
  have hst : t.status.halted = false := by rw [← ht]; exact hs
  have hp : t.p = s.p := by rw [← ht, State.complete_p, State.store_p]
  have htw : t.tower = s.tower := by rw [← ht, State.complete_tower, State.store_tower]
  have hdbuf : t.dbuf = Memory.writeBytes s.dbuf o (encodeVec beBytes s.greg[r.toNat].comps) := by
    rw [← ht, State.complete_dbuf, State.store_dbuf]
  have hx : ∀ k < 12, component beNat t.dbuf o k < t.p := fun k hk => by
    rw [hdbuf, hp, component_store_gt hm hb _ hk]
    exact Fp12.comp_lt hg hk
  have hload : loadedGt t.dbuf o = s.greg[r.toNat] := by rw [hdbuf, loadedGt_store hm hb]
  rw [← htw, ← hload]
  exact ⟨⟨_, exec_gldu_ok hst ho hr' hx, okGt_setG t _ _⟩,
    fun hm => ⟨_, exec_gld_ok hst ho hr' hx hm, okGt_setG t _ _⟩,
    fun hm => ⟨_, exec_gld_notInSubgroup hst ho hr' hx hm, t.complete_endsNone .notInSubgroup⟩⟩

/-- Settles O52. -/
theorem torusLoadAndStore : Obligations.TorusLoadAndStore := by
  intro s r hr off len o hs ho
  simp only [← component_leNat]
  refine ⟨fun hx => ⟨_, exec_tld_notCanonical hs ho hr hx, s.complete_endsNone .notCanonical⟩,
    fun hx => ⟨loadedTorus s.dbuf o, ?_, _, exec_tld_ok hs ho hr hx, okTorus_setT s _ _⟩,
    fun hm hv => ⟨_, exec_tst_ok hs ho hr hv, ?_⟩⟩
  · simp only [component_leNat, comps_loadedTorus]
  · rw [← encodeVec_leBytes]
    exact okBuffer_store s o _ hm (by rw [length_encodeVec length_leBytes]; exact bufferRange_bound ho)

/-! ### Compression (44_gt_codec_torus.md R305 to R309) -/

theorem compress_of_inv6 {tw : Tower} {p : Nat} {g : Fp12} {i : Fp6} (hi : tw.inv6 g.hi = some i) :
    compress tw p g = some (tw.mul6 i (addone p g.lo)) := by
  rw [compress, hi]

theorem compress_eq_none_iff {tw : Tower} {p : Nat} {g : Fp12} : compress tw p g = none ↔ tw.inv6 g.hi = none := by
  rw [compress]
  split
  next h => simp [h]
  next h => simp [h]

theorem inv6_eq_none_iff {q p : Nat} {tw : Tower} (h : tw.Lawful q p) {x : Fp6} (hx : x.inRange p = true) :
    tw.inv6 x = none ↔ x = Fp6.zero := by
  refine ⟨fun hnone => by_contra fun hne => ?_, fun hz => hz ▸ h.inv6Zero⟩
  obtain ⟨i, hi, -⟩ := h.inv6Mul x hx hne
  rw [hnone] at hi
  cases hi

/-- Compression has a value off the identity's line, and uncompressing it gives the member back (law L8). -/
theorem compress_uncompress {q p : Nat} {tw : Tower} (h : tw.AllLaws q p) {g : Fp12}
    (hg : g.inRange p = true) (hm : tw.subg g = true) (hne : g.hi ≠ Fp6.zero) :
    ∃ x, compress tw p g = some x ∧ uncompress tw p x = .ok g := by
  obtain ⟨i, hi, -⟩ := h.inv6Mul g.hi (Fp12.inRange_iff.1 hg).2 hne
  exact ⟨_, compress_of_inv6 hi, h.roundTrip g _ hg hm (compress_of_inv6 hi)⟩

/-- `MINUS_ONE6` is not zero, so `(t, -1)` is not. -/
theorem join_minusOne6_ne_zero {p : Nat} (hp : BaseModulusOk p) (t : Fp6) : (⟨t, minusOne6 p⟩ : Fp12) ≠ Fp12.zero := by
  intro h
  have h0 : BitVec.ofNat 384 (p - 1) = 0 := congrArg (fun a : Fp12 => a.hi.c0.c0) h
  have h1 := congrArg BitVec.toNat h0
  rw [BitVec.toNat_ofNat, Nat.mod_eq_of_lt (lt_of_le_of_lt (Nat.sub_le p 1) hp.fits)] at h1
  have := hp.prime.one_lt
  simp at h1
  omega

/-- Settles O50. -/
theorem torusCompression : Obligations.TorusCompression := fun s _ _ hd ha hs hv =>
  ⟨fun _ hi => ⟨_, exec_gcmpr_ok hs hd ha hv (compress_of_inv6 hi), okTorus_setT s _ _⟩,
    fun hi => ⟨_, exec_gcmpr_none hs hd ha hv (compress_eq_none_iff.2 hi), s.complete_endsNone .nonInvertible⟩,
    fun h hg => inv6_eq_none_iff h (Fp12.inRange_iff.1 hg).2⟩

/-- Settles O51. -/
theorem torusUncompression : Obligations.TorusUncompression := by
  intro s d a hd ha hs hv
  refine ⟨fun y hy => ⟨fun hm => ⟨_, exec_guncmpr_ok hs hd ha hv ?_, okGt_setG s _ _⟩,
    fun hm => ⟨_, exec_guncmpr_error hs hd ha hv ?_, s.complete_endsNone .notInSubgroup⟩⟩,
    fun hy => ⟨_, exec_guncmpr_error hs hd ha hv ?_, s.complete_endsNone .nonInvertible⟩, fun h hp ht => ?_⟩
  · rw [uncompress, hy]
    exact if_pos hm
  · rw [uncompress, hy]
    exact if_neg (Bool.eq_false_iff.1 hm)
  · rw [uncompress, hy]
  · obtain ⟨y, hy, -⟩ := h.invMul _ (Fp12.inRange_iff.2 ⟨ht, minusOne6_inRange hp⟩) (join_minusOne6_ne_zero hp _)
    exact ⟨y, hy⟩

section

variable {q p : Nat} {L : Type} [Field L] [CharP L p] {w : L} (E : Embedding q p L w)
include E

theorem Embedding.two_ne_zero : (2 : L) ≠ 0 := fun h => by
  have hdvd : p ∣ 2 := (CharP.cast_eq_zero_iff L p 2).1 (by exact_mod_cast h)
  have := Nat.le_of_dvd (by norm_num) hdvd
  have := E.cert.four
  omega

/-- A member of Fp6 has an order that divides Q and the order of Fp6's group, so it is the identity (R309). -/
theorem Embedding.eq_one_of_hi_zero {g : Fp12} (hg : g.inRange p = true) (hm : (recommendedTower q p).subg g = true)
    (hhi : g.hi = Fp6.zero) : g = Fp12.one := by
  have hev : ev12 w g = ev6 w g.lo := by rw [ev12, hhi, ev6_zero, zero_mul, add_zero]
  obtain ⟨hne, hpow⟩ := (subg_iff q p g).1 hm
  have hq : ev6 w g.lo ^ q = 1 := by rw [← hev, ← ev12_pow E.pos E.cert.fits E.root, hpow, ev12_one]
  have hne0 : ev6 w g.lo ≠ 0 := fun h => hne ((E.zero12 hg).1 (hev.trans h))
  have h6 : ev6 w g.lo ^ (p ^ 6 - 1) = 1 := by
    refine mul_right_cancel₀ hne0 ?_
    rw [one_mul, ← pow_succ, Nat.sub_add_cancel (pow_pos E.pos 6), E.frobenius6]
  have hord := Nat.dvd_gcd (orderOf_dvd_of_pow_eq_one hq) (orderOf_dvd_of_pow_eq_one h6)
  rw [E.cert.qCoprime, Nat.dvd_one, orderOf_eq_one_iff] at hord
  exact E.injective _ _ hg (Fp12.one_inRange E.cert.prime.one_lt) (by rw [hev, hord, ev12_one])

/-- What uncompression gives solves `G · (x - w) = x + w`, so `c1 · x = c0 + 1` and `c0 · x - w² · c1 = x`. -/
theorem Embedding.uncompress_halves {x : Fp6} {g : Fp12} (hx : x.inRange p = true)
    (hu : uncompress (recommendedTower q p) p x = .ok g) :
    ev6 w g.hi * ev6 w x = ev6 w g.lo + 1 ∧ ev6 w g.lo * ev6 w x - w ^ 2 * ev6 w g.hi = ev6 w x := by
  have hP := E.pos
  have hlt := E.cert.fits
  have hok : BaseModulusOk p := ⟨E.cert.prime, hlt⟩
  have hY := join_minusOne6_ne_zero hok x
  have hYr : (⟨x, minusOne6 p⟩ : Fp12).inRange p = true := Fp12.inRange_iff.2 ⟨hx, minusOne6_inRange hok⟩
  have hXr : (⟨x, Fp6.one⟩ : Fp12).inRange p = true :=
    Fp12.inRange_iff.2 ⟨hx, Fp6.one_inRange E.cert.prime.one_lt⟩
  have hg : g = fp12Mul p ⟨x, Fp6.one⟩ (Machine.fp12Inv p ⟨x, minusOne6 p⟩) := by
    rw [uncompress, recommendedTower_inv12, if_neg hY] at hu
    dsimp only at hu
    split at hu
    · exact (Except.ok.inj hu).symm
    · cases hu
  have hmul : fp12Mul p g ⟨x, minusOne6 p⟩ = ⟨x, Fp6.one⟩ := by
    refine E.injective _ _ (fp12Mul_inRange hP hlt _ _) hXr ?_
    rw [ev12_mul hP hlt E.root, hg, ev12_mul hP hlt E.root, mul_assoc, mul_comm (ev12 w (Machine.fp12Inv p _)),
      E.fp12Inv hYr hY, mul_one]
  have hhi := congrArg (fun a => ev6 w a.hi) hmul
  have hlo := congrArg (fun a => ev6 w a.lo) hmul
  simp only [fp12Mul, ev6_add hP hlt, ev6_mul hP hlt E.root, ev6_mulV hP hlt E.root, ev6_minusOne6 hP hlt, ev6_one] at hhi hlo
  exact ⟨by linear_combination hhi, by linear_combination hlo⟩

/-- Compressing what a nonzero torus value uncompresses to gives the value back (R308). -/
theorem Embedding.compress_of_uncompress {x : Fp6} {g : Fp12} (hx : x.inRange p = true) (hne : x ≠ Fp6.zero)
    (hg : g.inRange p = true) (hu : uncompress (recommendedTower q p) p x = .ok g) :
    compress (recommendedTower q p) p g = some x := by
  have hP := E.pos
  have hlt := E.cert.fits
  obtain ⟨hhi, hlo⟩ := E.uncompress_halves hx hu
  have hgh := (Fp12.inRange_iff.1 hg).2
  have h0 : g.hi ≠ Fp6.zero := fun hz => by
    rw [hz, ev6_zero] at hhi hlo
    have h2 : 2 * ev6 w x = 0 := by linear_combination -hlo - ev6 w x * hhi
    exact hne ((E.zero6 hx).1 ((mul_eq_zero.1 h2).resolve_left E.two_ne_zero))
  have hinv : (recommendedTower q p).inv6 g.hi = some (Machine.fp6Inv p g.hi) := by
    rw [recommendedTower_inv6, if_neg h0]
  rw [compress_of_inv6 hinv]
  refine congrArg some (E.injective6 (fp6Mul_inRange hP hlt _ _) hx ?_)
  change ev6 w (fp6Mul p _ _) = _
  rw [ev6_mul hP hlt E.root, ev6_addone hP hlt, ← hhi]
  linear_combination ev6 w x * E.fp6Inv hgh h0

end

open Config (recommendedQ recommendedP) in
/-- Settles O53: over every lawful tower by law L8, at the recommended parameters by the algebra of R306 in a field. -/
theorem torusRoundTrip : Obligations.TorusRoundTrip := by
  have : Fact (Nat.Prime recommendedP) := ⟨recommendedP_prime⟩
  obtain ⟨w, E⟩ := exists_embedding recommended_cert
  refine ⟨⟨fun g hg hm hne => compress_uncompress recommendedTower_allLaws hg hm hne,
    fun x g hx hne hu => E.compress_of_uncompress hx hne
      (uncompress_inRange recommendedP_ok recommendedTower_lawful.toClosed hx hu) hu, fun g hg hm => ?_⟩, ?_⟩
  · rw [compress_eq_none_iff, inv6_eq_none_iff recommendedTower_lawful (Fp12.inRange_iff.1 hg).2]
    exact ⟨E.eq_one_of_hi_zero hg hm, fun h => by rw [h]; rfl⟩
  · intro s d a e hd ha he h hs hv hg hm hne
    obtain ⟨x, hc, hu⟩ := compress_uncompress h hg hm hne
    have hok := okTorus_setT s ⟨d.toNat, hd⟩ x
    exact ⟨_, _, x, exec_gcmpr_ok hs hd ha hv hc, hok, exec_guncmpr_ok (s := (s.setT ⟨d.toNat, hd⟩ x).complete none) hs he
      hd hok.valid ((congrArg (uncompress s.tower s.p) hok.value).trans hu), okGt_setG _ _ _⟩

end Sys2Proof.Machine
end

section
/-! SUPPORT. The host bus (20_memory.md R80 to R95), the registers on it (10_state.md R47 to R54) and the resets
(70_reset_and_hazards.md R370, R371). -/

namespace Sys2Proof.Machine

/-! ### What reaches the block and what waits -/

theorem State.addressed_iff {s : State} {a : Access} : s.addressed a = true ↔
    s.rstN = true ∧ baseOf s.platform ≤ a.addr ∧ a.addr < baseOf s.platform + windowSize := by
  simp [State.addressed, selected]

theorem State.mustWait_iff {s : State} {a : Access} :
    s.mustWait a = true ↔ s.addressed a = true ∧ s.busy = true ∧ a.neverHeld = false := by
  simp [State.mustWait, and_assoc]

theorem Access.neverHeld_eq_false_iff {a : Access} : a.neverHeld = false ↔
    ¬ ∃ addr, a = .read addr .word ∧ (addr % windowSize = 0x000 ∨ addr % windowSize = 0x008) := by
  rw [← Access.neverHeld_iff, Bool.not_eq_true]

/-- A 4-byte read of ID or STATUS waits for no command (20_memory.md R93). -/
theorem mustWait_read (s : State) {addr : Nat} (ho : addr % windowSize = 0x000 ∨ addr % windowSize = 0x008) :
    s.mustWait (.read addr .word) = false :=
  State.mustWait_of_neverHeld ((Access.neverHeld_iff _).2 ⟨addr, rfl, ho⟩)

/-- Where none waits, an access is held by the pending command alone. -/
theorem State.holds_of_held_nil {s : State} (h : s.held = []) (a : Access) : s.holds a = s.mustWait a := by
  rw [State.holds, h]
  rfl

theorem State.holds_of_held_cons {s : State} {b : Access} {waiting : List Access} (h : s.held = b :: waiting)
    (a : Access) : s.holds a = true := by
  rw [State.holds, h]
  rfl

/-! ### Turns -/

theorem engineTurn_of_pend {s : State} {w : Word} {i : Instr} (hp : s.pend = some w) (hw : decodeWord w = .ok i) :
    engineTurn s = exec i s := by
  rw [engineTurn, hp]
  exact runWord_of_decode_ok hw s

theorem step_access_perform {s : State} {a : Access} {rest : List Input} (hi : s.inputs = .access a :: rest)
    (hh : s.held = []) (ha : s.mustWait a = false) : step s = .next (State.perform { s with inputs := rest } a) := by
  rw [step_access hi (State.released_of_held_nil hh), State.holds_of_held_nil hh, ha]
  rfl

theorem step_access_hold {s : State} {a : Access} {rest : List Input} (hi : s.inputs = .access a :: rest)
    (hr : s.released = none) (ha : s.holds a = true) :
    step s = .next { s with inputs := rest, held := s.held ++ [a] } := by
  rw [step_access hi hr, if_pos ha]

/-! ### The registers (20_memory.md R85, R90) -/

section

variable {s : State} {addr : Nat}

section

variable (ha : s.addressed (.read addr .word) = true)
include ha

theorem State.perform_read_id (ho : addr % windowSize = 0x000) :
    s.perform (.read addr .word) = { s with lastResp := some ⟨.okay, some 0x424C5301⟩ } := by
  rw [State.perform_read ha, ho]
  rfl

theorem State.perform_read_ctrl (ho : addr % windowSize = 0x004) :
    s.perform (.read addr .word) = { s with lastResp := some ⟨.okay, some s.ctrlWord⟩ } := by
  rw [State.perform_read ha, ho]
  rfl

theorem State.perform_read_status (ho : addr % windowSize = 0x008) :
    s.perform (.read addr .word) = { s with lastResp := some ⟨.okay, some s.statusWord⟩ } := by
  rw [State.perform_read ha, ho]
  rfl

theorem State.perform_read_result (ho : addr % windowSize = 0x00C) :
    s.perform (.read addr .word) = { s with lastResp := some ⟨.okay, some s.result⟩ } := by
  rw [State.perform_read ha, ho]
  rfl

theorem State.perform_read_cmd (ho : addr % windowSize = 0x010) :
    s.perform (.read addr .word) = { s with lastResp := some ⟨.okay, some 0⟩ } := by
  rw [State.perform_read ha, ho]
  rfl

end

variable {data : Word} (ha : s.addressed (.write addr .word data) = true)
include ha

theorem State.perform_write_ignored (ho : addr % windowSize = 0x000 ∨ addr % windowSize = 0x00C) :
    s.perform (.write addr .word data) = { s with lastResp := some ⟨.okay, none⟩ } := by
  rw [State.perform_write ha]
  obtain ho | ho := ho
  · rw [ho]; rfl
  · rw [ho]; rfl

theorem State.perform_write_ctrl (ho : addr % windowSize = 0x004) :
    s.perform (.write addr .word data) = { s.writeCtrl data with lastResp := some ⟨.okay, none⟩ } := by
  rw [State.perform_write ha, ho]
  rfl

theorem State.perform_write_status (ho : addr % windowSize = 0x008) :
    s.perform (.write addr .word data) =
      { s with lastResp := some ⟨.okay, none⟩, status := s.status.writeOneToClear data } := by
  rw [State.perform_write ha, ho]
  rfl

end

theorem and_not_eq_ite (x b : Bool) : (x && !b) = if b then false else x := by
  cases b
  · exact Bool.and_true x
  · exact Bool.and_false x

theorem Status.writeOneToClear_eq (st : Status) (data : Word) : st.writeOneToClear data = { st with
    done := if data.getLsbD 1 then false else st.done
    noneFlag := if data.getLsbD 3 then false else st.noneFlag
    err := if data.getLsbD 4 then false else st.err
    ecode := if data.getLsbD 4 then 0 else st.ecode } := by
  rw [Status.writeOneToClear, and_not_eq_ite, and_not_eq_ite, and_not_eq_ite]

/-! ### The hold rule -/

/-- Settles O54. -/
theorem holdRuleAndAcceptance : Obligations.HoldRuleAndAcceptance := by
  refine ⟨fun s a => ?_, fun s a rest hi hh => ⟨fun hb => ?_, fun hb hr hlo hhi => ⟨fun hn => ?_, ?_, ?_⟩, ?_⟩,
    fun s a b waiting rest hh hw hi => ?_, fun s a waiting hh hi => ⟨fun hw => ?_, fun hr hlo hhi => ⟨?_, ?_⟩⟩,
    fun s hb hw => ⟨fun hi => ?_, fun rest hi => ?_⟩⟩
  · rw [State.mustWait_iff, State.addressed_iff, Access.neverHeld_eq_false_iff]
    exact ⟨fun ⟨⟨hr, hlo, hhi⟩, hb, hn⟩ => ⟨hb, hr, hlo, hhi, hn⟩,
      fun ⟨hb, hr, hlo, hhi, hn⟩ => ⟨⟨hr, hlo, hhi⟩, hb, hn⟩⟩
  · exact step_access_perform hi hh (State.mustWait_of_idle hb)
  · have hw : s.mustWait a = true :=
      State.mustWait_iff.2 ⟨State.addressed_iff.2 ⟨hr, hlo, hhi⟩, hb, Access.neverHeld_eq_false_iff.2 hn⟩
    rw [step_access_hold hi (State.released_of_held_nil hh) ((State.holds_of_held_nil hh a).trans hw), hh]
    rfl
  · rintro addr rfl ho
    exact (step_access_perform hi hh (mustWait_read s (.inl ho))).trans (congrArg Host.Outcome.next
      (State.perform_read_id (s := { s with inputs := rest }) (State.addressed_iff.2 ⟨hr, hlo, hhi⟩) ho))
  · rintro addr rfl ho
    exact (step_access_perform hi hh (mustWait_read s (.inr ho))).trans (congrArg Host.Outcome.next
      (State.perform_read_status (s := { s with inputs := rest }) (State.addressed_iff.2 ⟨hr, hlo, hhi⟩) ho))
  · rintro hb hr hlo hhi addr w rfl ho
    exact (step_access_perform hi hh (State.mustWait_of_idle hb)).trans (congrArg Host.Outcome.next
      (State.perform_write_cmd (s := { s with inputs := rest }) (State.addressed_iff.2 ⟨hr, hlo, hhi⟩) ho))
  · rw [step_access_hold hi (State.released_of_mustWait hh hw) (State.holds_of_held_cons hh a), hh]
  · exact step_released hw hh hi
  · rintro addr rfl ho
    exact (step_released (mustWait_read s (.inl ho)) hh hi).trans (congrArg Host.Outcome.next
      (State.perform_read_id (s := { s with held := waiting }) (State.addressed_iff.2 ⟨hr, hlo, hhi⟩) ho))
  · rintro addr rfl ho
    exact (step_released (mustWait_read s (.inr ho)) hh hi).trans (congrArg Host.Outcome.next
      (State.perform_read_status (s := { s with held := waiting }) (State.addressed_iff.2 ⟨hr, hlo, hhi⟩) ho))
  · exact step_engine hi (State.released_eq_none.2 hw)
  · exact step_idle hi (State.released_eq_none.2 hw)

/-- Settles O7. -/
theorem stepRunsDecodedCommand : Obligations.StepRunsDecodedCommand := by
  intro s w i hw
  refine ⟨fun hp hwait => ⟨fun hi => ?_, fun rest hi => ?_, fun a hi ha => ⟨_, ?_, rfl, ?_⟩⟩, ?_⟩
  · rw [step_engine hi (State.released_eq_none.2 hwait), engineTurn_of_pend hp hw]
  · rw [step_idle hi (State.released_eq_none.2 hwait), engineTurn_of_pend (s := { s with inputs := rest }) hp hw]
  · exact step_access_hold hi (State.released_eq_none.2 hwait) ha
  · refine (step_engine rfl (State.released_eq_none.2 fun b waiting hh => ?_)).trans
      (engineTurn_of_pend (s := { s with inputs := [], held := s.held ++ [a] }) hp hw)
    change s.mustWait b = true
    cases hheld : s.held with
    | nil =>
      rw [State.holds_of_held_nil hheld] at ha
      simp only [hheld, List.nil_append, List.cons.injEq] at hh
      rwa [← hh.1]
    | cons c rest =>
      simp only [hheld, List.cons_append, List.cons.injEq] at hh
      exact hwait b rest (by rw [hheld, hh.1])
  · have hword : BitVec.ofNat 32 (w.toNat % 2 ^ 32) = w := by
      rw [Nat.mod_eq_of_lt w.isLt, BitVec.ofNat_toNat, BitVec.setWidth_eq]
    rw [State.withFetchWord, hword]
    cases hq : s.held.map Input.access ++ s.inputs with
    | nil => rw [step_engine rfl (State.released_of_held_nil rfl), engineTurn_of_pend rfl hw]
    | cons input rest => rw [step_idle rfl (State.released_of_held_nil rfl), engineTurn_of_pend rfl hw]

/-! ### STATUS and CTRL (10_state.md R48, R49) -/

theorem State.statusWord_fields (s : State) :
    s.statusWord.getLsbD 0 = s.pend.isSome ∧ s.statusWord.getLsbD 1 = s.status.done ∧
      s.statusWord.getLsbD 2 = s.status.ok ∧ s.statusWord.getLsbD 3 = s.status.noneFlag ∧
      s.statusWord.getLsbD 4 = s.status.err ∧ s.statusWord.getLsbD 5 = s.status.halted ∧
      s.statusWord.extractLsb' 6 2 = 0 ∧ s.statusWord.extractLsb' 8 4 = s.status.reason ∧
      s.statusWord.extractLsb' 12 4 = 0 ∧ s.statusWord.extractLsb' 16 8 = s.status.ecode ∧
      s.statusWord.extractLsb' 24 8 = 0 := by
  have hfield {start len : Nat} {v : BitVec len}
      (h : ∀ i < len, s.statusWord.getLsbD (start + i) = v.getLsbD i) : s.statusWord.extractLsb' start len = v :=
    BitVec.eq_of_getLsbD_eq fun i hi => by rw [BitVec.getLsbD_extractLsb', h i hi, decide_eq_true hi, Bool.true_and]
  refine ⟨?_, ?_, ?_, ?_, ?_, ?_, hfield fun i hi => ?_, hfield fun i hi => ?_, hfield fun i hi => ?_,
    hfield fun i hi => ?_, hfield fun i hi => ?_⟩
  all_goals simp only [State.statusWord, State.busy, BitVec.getLsbD_append, BitVec.getLsbD_ofBool]
  iterate 6
    · simp
  all_goals interval_cases i <;> simp

/-- Settles O55. -/
theorem statusRegister : Obligations.StatusRegister := by
  intro s data
  have hie : s.ctrlWord.getLsbD 0 = s.ie := by
    simp only [State.ctrlWord, BitVec.getLsbD_append]
    simp
  have hupper : s.ctrlWord.extractLsb' 1 31 = 0 := by
    refine BitVec.eq_of_getLsbD_eq fun i hi => ?_
    simp only [State.ctrlWord, BitVec.getLsbD_extractLsb', BitVec.getLsbD_append]
    simp
  refine ⟨s.statusWord_fields, ⟨hie, hupper⟩, fun addr ha => ⟨State.perform_read_id ha, State.perform_read_ctrl ha,
    State.perform_read_status ha, State.perform_read_result ha, State.perform_read_cmd ha⟩,
    fun addr ha ho => State.perform_write_ignored ha ho, fun addr ha ho => ?_, ?_⟩
  · rw [State.perform_write_status ha ho, Status.writeOneToClear_eq]
  · obtain ⟨-, hdone, -⟩ := s.statusWord_fields
    rw [hie, hdone, State.irq, Bool.and_eq_true]

/-- Settles O56. -/
theorem controlAndReset : Obligations.ControlAndReset := by
  intro s data
  refine ⟨fun addr ha ho => ⟨fun hb => ?_, fun hb => ?_⟩, fun level rest hi hl => ?_, fun rest hi hr => ?_,
    fun hr a => ?_⟩
  · rw [State.perform_write_ctrl ha ho, State.writeCtrl, hb]
    rfl
  · rw [State.perform_write_ctrl ha ho, State.writeCtrl, hb]
    rfl
  · exact (step_pin hi).trans (congrArg Host.Outcome.next (State.setRstN_of_reset (s := { s with inputs := rest }) hl))
  · exact (step_pin hi).trans (congrArg Host.Outcome.next (State.setRstN_of_released (s := { s with inputs := rest }) hr))
  · exact State.perform_of_not_addressed (Bool.eq_false_iff.2 fun ha => by
      rw [addressed_rstN ha] at hr
      cases hr)

/-! ### Bus errors and DBUF (20_memory.md R86 to R89) -/

/-- The accesses that get the ERROR response. -/
theorem targetAt_eq_error {o : Nat} {w : Width} (h : (o < 0x014 ∧ (w ≠ .word ∨ o % 4 ≠ 0)) ∨
    (0x014 ≤ o ∧ o < 0x400) ∨ (0x400 ≤ o ∧ o % w.bytes ≠ 0)) : targetAt o w = .error := by
  obtain ⟨hlow, hw | ho⟩ | ⟨hlow, hhigh⟩ | ⟨hhigh, hw⟩ := h
  · rw [targetAt_low hlow, if_neg hw]
  · rw [targetAt_low hlow, if_neg (show o ≠ 0x000 by omega), if_neg (show o ≠ 0x004 by omega),
      if_neg (show o ≠ 0x008 by omega), if_neg (show o ≠ 0x00C by omega), if_neg (show o ≠ 0x010 by omega), ite_self]
  · exact targetAt_reserved hlow hhigh
  · rw [targetAt_high hhigh, if_neg hw]

/-- The window's size is a multiple of every width, so alignment in the window is alignment on the bus. -/
theorem mod_windowSize_mod_bytes (addr : Nat) (w : Width) : addr % windowSize % w.bytes = addr % w.bytes :=
  Nat.mod_mod_of_dvd _ (by cases w <;> decide)

/-- Settles O57. -/
theorem busErrorsChangeNothing : Obligations.BusErrorsChangeNothing := by
  intro s a ha h
  have htarget : targetAt (a.addr % windowSize) a.width = .error := by
    refine targetAt_eq_error ?_
    rw [mod_windowSize_mod_bytes]
    rcases h with ⟨hlow, hw⟩ | h
    · exact .inl ⟨hlow, hw.imp_right fun h4 => (mod_windowSize_mod_bytes a.addr .word).trans_ne h4⟩
    · exact .inr h
  refine ⟨fun addr width e => ?_, fun addr width data e => ?_⟩
  · subst e
    rw [State.perform_read ha, show targetAt (addr % windowSize) width = .error from htarget]
    rfl
  · subst e
    rw [State.perform_write ha, show targetAt (addr % windowSize) width = .error from htarget]
    rfl

theorem getElem_leBytes_word {n j : Nat} {data : Word} (hj : j < (leBytes n data.toNat).length) :
    (leBytes n data.toNat)[j] = data.extractLsb' (8 * j) 8 := by
  have h256 : 256 ^ j = 2 ^ (8 * j) := by rw [pow_mul]; norm_num
  simp only [leBytes_eq, leEncoding, List.getElem_map, List.getElem_range]
  apply BitVec.eq_of_toNat_eq
  rw [BitVec.toNat_ofNat, BitVec.extractLsb'_toNat, Nat.shiftRight_eq_div_pow, h256]

/-- Settles O58. -/
theorem hostBufferAccesses : Obligations.HostBufferAccesses := by
  intro s addr width data hm hhigh halign
  have htarget : targetAt (addr % windowSize) width = .dbuf (addr % windowSize - 0x400) := by
    rw [targetAt_high (show 0x400 ≤ addr % windowSize from hhigh), mod_windowSize_mod_bytes, if_pos halign]
  have hbound := target_in_dbuf htarget
  have hlen := length_leBytes width.bytes data.toNat
  refine ⟨fun ha => ?_, fun ha => ⟨_, by rw [State.perform_read ha, htarget]; rfl, ?_⟩⟩
  · rw [State.perform_write ha, htarget]
    refine ⟨fun j hj => ?_, fun k hk => ?_, ?_, rfl⟩
    · rw [← getElem_leBytes_word (hj.trans_eq hlen.symm)]
      exact Memory.read_writeBytes_inside _ _ j _ (by rwa [hlen]) hm
    · exact Memory.read_writeBytes_outside _ _ _ (by rwa [hlen])
    · exact Memory.wf_writeBytes _ _ (by rwa [hlen]) hm
  · have hlt := leSum_lt s.dbuf (addr % windowSize - 0x400) width.bytes
    have hword : 256 ^ width.bytes ≤ 2 ^ 32 := by cases width <;> decide
    rw [BitVec.toNat_ofNat, leNat_readBytes, Nat.mod_eq_of_lt (lt_of_lt_of_le hlt hword)]
    rfl

end Sys2Proof.Machine
end

section
/-! SUPPORT. The Montgomery engine (40_scalar_arith.md R160 to R166): both limb algorithms add a multiple of Q that clears
the low 256 bits, so after the shift one conditional subtraction of Q gives the Montgomery reduction. -/

namespace Sys2Proof.Machine

open Config (R)

/-! ### Limbs -/

theorem limbBase_pos : 0 < limbBase := by decide

theorem limbBase_pow_four : limbBase ^ 4 = R := by rw [limbBase, R, ← pow_mul]

/-- Limb k extends the low k limbs. -/
theorem mod_limbBase_pow_succ (x k : Nat) : x % limbBase ^ (k + 1) = x % limbBase ^ k + limbBase ^ k * limb x k :=
  Nat.mod_pow_succ

theorem limb_zero (x : Nat) : limb x 0 = x % limbBase := by rw [limb, pow_zero, Nat.div_one]

/-- An integer below 2^256 is the sum of its four limbs. -/
theorem limb_sum {x : Nat} (hx : x < R) :
    limb x 0 + limb x 1 * limbBase + limb x 2 * limbBase ^ 2 + limb x 3 * limbBase ^ 3 = x := by
  have hmod := Nat.mod_eq_of_lt (lt_of_lt_of_eq hx limbBase_pow_four.symm)
  simp only [mod_limbBase_pow_succ x 3, mod_limbBase_pow_succ x 2, mod_limbBase_pow_succ x 1, pow_one] at hmod
  rw [limb_zero]
  linarith

/-! ### The Montgomery constant of a limb (40_scalar_arith.md R161) -/

/-- Newton's iteration squares the error. -/
theorem invPow2Loop_error (q n y : Nat) :
    (1 - q * invPow2Loop q n y : ZMod limbBase) = (1 - q * y) ^ 2 ^ n := by
  induction n generalizing y with
  | zero => rw [invPow2Loop, pow_zero, pow_one]
  | succ n ih =>
    have hle : q % limbBase * y % limbBase ≤ 2 + limbBase * limbBase := by
      have h1 := Nat.mod_lt (q % limbBase * y) limbBase_pos
      have h2 := Nat.le_mul_self limbBase
      omega
    rw [invPow2Loop, ih, cast_mod, Nat.cast_mul, Nat.cast_sub hle, cast_mod, Nat.cast_mul, cast_mod, Nat.cast_add,
      Nat.cast_mul, ZMod.natCast_self, pow_succ', pow_mul]
    push_cast
    ring

theorem invPow2Loop_lt (q n : Nat) {y : Nat} (hy : y < limbBase) : invPow2Loop q n y < limbBase := by
  induction n generalizing y with
  | zero => exact hy
  | succ n ih => exact ih (Nat.mod_lt _ limbBase_pos)

/-- `INV` is the negated inverse of an odd number. -/
theorem mul_montInv {q : Nat} (hq : q % 2 = 1) : (q * montInv q : ZMod limbBase) = -1 := by
  have hlt : invPow2Loop q 6 1 < limbBase := invPow2Loop_lt q 6 (by decide)
  have herr := invPow2Loop_error q 6 1
  have hodd : (q : ZMod limbBase) = 2 * (q / 2 : Nat) + 1 := by
    conv_lhs => rw [show q = 2 * (q / 2) + 1 by omega]
    push_cast
    rfl
  have hpow : (2 : ZMod limbBase) ^ 64 = 0 :=
    calc (2 : ZMod limbBase) ^ 64 = (limbBase : Nat) := by rw [limbBase, Nat.cast_pow, Nat.cast_ofNat]
      _ = 0 := ZMod.natCast_self limbBase
  have hzero : (1 - q * (1 : Nat) : ZMod limbBase) ^ 2 ^ 6 = 0 := by
    calc (1 - q * (1 : Nat) : ZMod limbBase) ^ 2 ^ 6 = 2 ^ 64 * (-((q / 2 : Nat) : ZMod limbBase)) ^ 64 := by
          rw [← mul_pow, hodd]; push_cast; ring
      _ = 0 := by rw [hpow, zero_mul]
  rw [montInv, cast_mod, Nat.cast_sub hlt.le, ZMod.natCast_self]
  linear_combination herr.trans hzero

/-- The multiple of an odd number that clears the low limb. -/
theorem dvd_add_montInv_mul {q : Nat} (hq : q % 2 = 1) (x : Nat) :
    limbBase ∣ x + x % limbBase * montInv q % limbBase * q := by
  rw [← ZMod.natCast_eq_zero_iff, Nat.cast_add, Nat.cast_mul, cast_mod, Nat.cast_mul, cast_mod]
  linear_combination (x : ZMod limbBase) * mul_montInv hq

/-! ### The last step of both algorithms -/

/-- The integer left after the shift is below 2Q and congruent to the Montgomery reduction. -/
theorem montRed_of_shifted {q : Nat} (h : ScalarModulusOk q) {u t m : Nat} (hm : m < R) (ht : t < q * R)
    (hu : u * R = t + m * q) : (if q ≤ u then u - q else u) = montRed q t := by
  have : Fact q.Prime := ⟨h.prime⟩
  have hlt : u < 2 * q := by
    have hmq : m * q < R * q := Nat.mul_lt_mul_of_pos_right hm h.pos
    refine lt_of_mul_lt_mul_right (a := R) ?_ (Nat.zero_le _)
    calc u * R = t + m * q := hu
      _ < q * R + R * q := Nat.add_lt_add ht hmq
      _ = 2 * q * R := by ring
  have hcast : (u : ZMod q) = t * ((R : Nat) : ZMod q)⁻¹ := by
    have hmul : (u : ZMod q) * (R : Nat) = t := by
      have hc := congrArg (Nat.cast (R := ZMod q)) hu
      rwa [Nat.cast_mul, Nat.cast_add, Nat.cast_mul, ZMod.natCast_self, mul_zero, add_zero] at hc
    rw [← hmul, mul_inv_cancel_right₀ (cast_radix_ne_zero h)]
  split
  next hle =>
    refine eq_of_cast_eq (by omega) (montRed_lt h t) ?_
    rw [Nat.cast_sub hle, ZMod.natCast_self, sub_zero, hcast, montRed_cast h]
  next hlt => exact eq_of_cast_eq (by omega) (montRed_lt h t) (by rw [hcast, montRed_cast h])

/-! ### Reduction (40_scalar_arith.md R164) -/

/-- `u` is `t` plus a multiple of Q below 2^(64 k) that clears the low k words. -/
def Cleared (q t k u : Nat) : Prop := limbBase ^ k ∣ u ∧ ∃ m < limbBase ^ k, u = t + m * q

theorem redcRound_cleared {q t k u : Nat} (hq : q % 2 = 1) (h : Cleared q t k u) :
    Cleared q t (k + 1) (redcRound q k u) := by
  obtain ⟨⟨v, rfl⟩, m, hm, hu⟩ := h
  have hlimb : limb (limbBase ^ k * v) k = v % limbBase := by
    rw [limb, Nat.mul_div_cancel_left _ (pow_pos limbBase_pos k)]
  set n := v % limbBase * montInv q % limbBase with hn
  have hround : redcRound q k (limbBase ^ k * v) = limbBase ^ k * (v + n * q) := by
    rw [redcRound, hlimb, ← hn]; ring
  have hnlt : n < limbBase := Nat.mod_lt _ limbBase_pos
  refine ⟨?_, m + limbBase ^ k * n, ?_, ?_⟩
  · rw [hround, pow_succ]
    exact Nat.mul_dvd_mul_left _ (dvd_add_montInv_mul hq v)
  · calc m + limbBase ^ k * n < limbBase ^ k * (n + 1) := by rw [Nat.mul_succ]; omega
      _ ≤ limbBase ^ (k + 1) := by rw [pow_succ]; exact Nat.mul_le_mul_left _ hnlt
  · rw [hround, Nat.mul_add, hu]; ring

theorem redc_eq_montRed {q t : Nat} (h : ScalarModulusOk q) (ht : t < q * R) : redc q t = montRed q t := by
  have hstart : Cleared q t 0 t := ⟨one_dvd _, 0, Nat.one_pos, by rw [zero_mul, add_zero]⟩
  obtain ⟨hdvd, m, hm, hu⟩ := redcRound_cleared h.odd (redcRound_cleared h.odd (redcRound_cleared h.odd
    (redcRound_cleared h.odd hstart)))
  rw [limbBase_pow_four] at hdvd hm
  rw [redc, limbBase_pow_four]
  exact montRed_of_shifted h hm ht (by rw [Nat.div_mul_cancel hdvd, hu])

/-! ### Multiplication (40_scalar_arith.md R162) -/

/-- Five words with their carries hold the sum of what was put into them. -/
theorem carry_chain {B e0 x1 x2 x3 x4 c0 c1 c2 c3 c4 r0 r1 r2 r3 r4 : Nat} (h0 : B * c0 + r0 = e0)
    (h1 : B * c1 + r1 = x1 + c0) (h2 : B * c2 + r2 = x2 + c1) (h3 : B * c3 + r3 = x3 + c2) (h4 : B * c4 + r4 = x4 + c3) :
    r0 + r1 * B + r2 * B ^ 2 + r3 * B ^ 3 + r4 * B ^ 4 + c4 * B ^ 5 =
      e0 + x1 * B + x2 * B ^ 2 + x3 * B ^ 3 + x4 * B ^ 4 := by
  zify at h0 h1 h2 h3 h4 ⊢
  linear_combination h0 + B * h1 + B ^ 2 * h2 + B ^ 3 * h3 + B ^ 4 * h4

/-- A round adds `a · b_i` and a multiple of Q below a limb, and divides by 2^64. -/
theorem ciosRound_value {q a : Nat} (hodd : q % 2 = 1) (hq : q < R) (ha : a < R) (bi : Nat) (t : CiosWords) :
    ∃ m < limbBase, (ciosRound q a bi t).value * limbBase = t.value + a * bi + m * q := by
  have hsplit (e : Nat) := Nat.div_add_mod e limbBase
  set e0 := t.t0 + limb a 0 * bi with he0
  set e1 := t.t1 + limb a 1 * bi + e0 / limbBase
  set e2 := t.t2 + limb a 2 * bi + e1 / limbBase
  set e3 := t.t3 + limb a 3 * bi + e2 / limbBase
  set e4 := t.t4 + e3 / limbBase
  set m := e0 % limbBase * montInv q % limbBase with hm
  set f0 := e0 % limbBase + m * limb q 0 with hf0
  set f1 := e1 % limbBase + m * limb q 1 + f0 / limbBase
  set f2 := e2 % limbBase + m * limb q 2 + f1 / limbBase
  set f3 := e3 % limbBase + m * limb q 3 + f2 / limbBase
  set f4 := e4 % limbBase + f3 / limbBase
  have hround : ciosRound q a bi t =
    ⟨f1 % limbBase, f2 % limbBase, f3 % limbBase, f4 % limbBase, e4 / limbBase + f4 / limbBase, e4 / limbBase⟩ := rfl
  have hlow : f0 % limbBase = 0 := by
    have hdvd := dvd_add_montInv_mul hodd e0
    rw [← hm, ← Nat.modEq_zero_iff_dvd] at hdvd
    refine Eq.trans ?_ hdvd
    rw [hf0, limb_zero]
    exact (Nat.mod_modEq e0 limbBase).add ((Nat.mod_modEq q limbBase).mul_left m)
  have hadd := carry_chain (hsplit e0) (hsplit e1) (hsplit e2) (hsplit e3) (hsplit e4)
  have hred := carry_chain (hsplit f0) (hsplit f1) (hsplit f2) (hsplit f3) (hsplit f4)
  refine ⟨m, Nat.mod_lt _ limbBase_pos, ?_⟩
  rw [hlow] at hred
  rw [hround, CiosWords.value, CiosWords.value]
  have hsa := limb_sum ha
  have hsq := limb_sum hq
  zify at hred hadd he0 hf0 hsa hsq ⊢
  linear_combination hred + hadd + he0 + hf0 + bi * hsa + m * hsq

/-- After k rounds the words hold `a` times the low k limbs of `b`, plus a multiple of Q, without the low k words. -/
def CiosAfter (q a b k : Nat) (t : CiosWords) : Prop :=
  ∃ m < limbBase ^ k, t.value * limbBase ^ k = a * (b % limbBase ^ k) + m * q

theorem ciosRound_after {q a b k : Nat} {t : CiosWords} (hodd : q % 2 = 1) (hq : q < R) (ha : a < R)
    (h : CiosAfter q a b k t) : CiosAfter q a b (k + 1) (ciosRound q a (limb b k) t) := by
  obtain ⟨m, hm, hv⟩ := h
  obtain ⟨n, hn, hround⟩ := ciosRound_value hodd hq ha (limb b k) t
  refine ⟨m + limbBase ^ k * n, ?_, ?_⟩
  · calc m + limbBase ^ k * n < limbBase ^ k * (n + 1) := by rw [Nat.mul_succ]; omega
      _ ≤ limbBase ^ (k + 1) := by rw [pow_succ]; exact Nat.mul_le_mul_left _ hn
  · calc (ciosRound q a (limb b k) t).value * limbBase ^ (k + 1)
        = (ciosRound q a (limb b k) t).value * limbBase * limbBase ^ k := by ring
      _ = t.value * limbBase ^ k + (a * limb b k + n * q) * limbBase ^ k := by rw [hround]; ring
      _ = a * (b % limbBase ^ (k + 1)) + (m + limbBase ^ k * n) * q := by rw [hv, mod_limbBase_pow_succ]; ring

theorem cios_eq_montMul {q a b : Nat} (h : ScalarModulusOk q) (ha : a < R) (hb : b < q) :
    cios q a b = montMul q a b := by
  have hq : q < R := h.lt_container
  have hstart : CiosAfter q a b 0 ⟨0, 0, 0, 0, 0, 0⟩ := ⟨0, Nat.one_pos, by simp [CiosWords.value, Nat.mod_one]⟩
  have hround {k : Nat} {t : CiosWords} := ciosRound_after (b := b) (k := k) (t := t) h.odd hq ha
  obtain ⟨m, hm, hv⟩ := hround (hround (hround (hround hstart)))
  rw [limbBase_pow_four] at hm hv
  rw [Nat.mod_eq_of_lt (hb.trans hq)] at hv
  have hab : a * b < q * R := by
    rw [mul_comm q]
    exact Nat.mul_lt_mul'' ha hb
  exact montRed_of_shifted h hm hab hv

/-! ### The statements -/

/-- Settles O59. -/
theorem limbAlgorithmsComputeMontgomery : Obligations.LimbAlgorithmsComputeMontgomery := fun _ h =>
  ⟨fun _ _ ha hb => cios_eq_montMul h ha hb, fun _ hx => redc_eq_montRed h hx⟩

/-- Settles O60: each clause holds in the field of the integers modulo Q. -/
theorem conversionsAndWideReduction : Obligations.ConversionsAndWideReduction := by
  intro q h
  have : Fact q.Prime := ⟨h.prime⟩
  have hR := cast_radix_ne_zero h
  refine ⟨convertIn_eq_res h, fun m _ => rfl, fun x y => ?_, fun x y _ _ => ?_, fun v => ?_⟩
  · refine eq_of_cast_eq (montMul_lt h _ _) (res_lt h _) ?_
    rw [montMul_cast h, res_cast, res_cast, res_cast, cast_mod, Nat.cast_mul]
    field_simp
  · refine eq_of_cast_eq (modAdd_lt (res_lt h x) (res_lt h y)) (res_lt h _) ?_
    rw [modAdd_cast, res_cast, res_cast, res_cast, cast_mod, Nat.cast_add, add_mul]
  · refine eq_of_cast_eq (modAdd_lt (montMul_lt h _ _) (montMul_lt h _ _)) (res_lt h _) ?_
    have hv : (v : ZMod q) = (v % R : Nat) + (R : Nat) * (v / R : Nat) := by
      rw [← Nat.cast_mul, ← Nat.cast_add, Nat.mod_add_div]
    rw [wideReduce, modAdd_cast, montMul_cast h, montMul_cast h, res_cast, cast_mod, r2, r3, cast_mod, cast_mod,
      Nat.cast_pow, Nat.cast_pow, hv]
    field_simp

end Sys2Proof.Machine
end
